-- ==== Sys2Proof/Word.lean ====
section
/-! DEFINITION. The plain data types of the block: a payload byte, a 16-bit sample, a 32-bit diagnostic counter.
Cursors are natural numbers kept below `2^PW` (their width is a parameter); their arithmetic stands in
Machine/Cursor.lean. -/

namespace Sys2Proof

/-- A payload byte of the producer port (20_memory R104). -/
abbrev Byte := BitVec 8

/-- A sample: a 16-bit pattern, `SW = 16`; the block never interprets it (00_scope R5, R14). -/
abbrev Sample := BitVec 16

/-- A diagnostic counter, `CNTW = 32` bits, wrapping (00_scope R5, 60_exceptions R368). -/
abbrev Counter := BitVec 32

end Sys2Proof
end

