-- ==== Sys2Proof/Config.lean ====
section
/-! DEFINITION. The configuration of a QSF (00_scope R5, R6): the build-time parameters a model takes as arguments,
the configurations the spec refuses, and the open parameters of the environment. -/

namespace Sys2Proof

/-- The frequencies of a clock, in hertz: it never runs slower or faster than these (00_scope R5; 70_reset_and_hazards R410). -/
structure Clock where
  slowest : Nat
  fastest : Nat
  deriving DecidableEq, Repr

/-- Consecutive edges of a clock at these times, in ticks of which a second has `ticks`: no period is shorter than that of the
fastest frequency, and none longer than that of the slowest (R410). -/
def Clock.edgesAt (c : Clock) (ticks : Nat) (times : List Nat) : Prop :=
  times.IsChain fun t u => t ≤ u ∧ ticks ≤ (u - t) * c.fastest ∧ (u - t) * c.slowest ≤ ticks

/-- A duration of `num / den` seconds. -/
structure Duration where
  num : Nat
  den : Nat
  deriving DecidableEq, Repr

/-- The parameters of 00_scope R5, which a model takes as arguments. They are fixed for the machine: no step writes them.
`SW = 16`, `CNTW = 32` (Word.lean) and `NSYNC = 2` (two stage registers for each crossing bit) do not vary. `none` in an OPEN
parameter says that the configuration does not fix it; no rule of the block reads one (log 15). -/
structure Config where
  /-- `AW`, storage address width in bits. -/
  aw : Nat
  /-- `C`, capacity in samples. -/
  c : Nat
  /-- `F`, the consumer's frame size in samples. -/
  f : Nat
  /-- `PW`, cursor width in bits. -/
  pw : Nat
  /-- `FS`, sample rate in hertz: informational, the logic never uses it. -/
  fs : Nat := 16000
  /-- `CH`, channel count: informational, the logic never uses it. -/
  ch : Nat := 1
  /-- `MAX_BURST_BYTES`, the transport's maximum payload, OPEN (decision D31): the block accepts bursts of any length. -/
  maxBurstBytes : Option Nat := none
  /-- `f_wclk`, OPEN (decision D36): constrained only by 70_reset_and_hazards R410. -/
  wclk : Option Clock := none
  /-- `f_rclk`, OPEN (decision D36): constrained only by R410 and R411. -/
  rclk : Option Clock := none
  /-- `T_SVC`, the host's service interval, OPEN (decision D36); the reference is `F / FS`. -/
  tSvc : Duration := ⟨f, fs⟩
  deriving DecidableEq, Repr

/-- The bursts of a transport within `MAX_BURST_BYTES`, where the configuration fixes it (R5; 40_producer R190). -/
def Config.takesBurst (k : Config) (bytes : List Byte) : Prop := ∀ n ∈ k.maxBurstBytes, bytes.length ≤ n

/-- A configuration that is a QSF: the constraints of 00_scope R5 hold, so none of the refusals of R6 does
(`C` not a power of two, `F > C`, `F = 0`, `PW != AW + 1`). DEDUCED (log 3): `AW = 0` and a `C` other than `2^AW`
break a constraint of R5 that R6 does not repeat, and are refused with the rest. -/
def Config.isQsf (k : Config) : Bool :=
  decide (1 ≤ k.aw) && decide (k.c = 2 ^ k.aw) && decide (1 ≤ k.f) && decide (k.f ≤ k.c) && decide (k.pw = k.aw + 1)

/-- The configuration of address width `aw` and frame size `f`: `QSF-AW<aw>-F<f>` (00_scope R2, R5). -/
def Config.qsf (aw f : Nat) : Config := { aw := aw, c := 2 ^ aw, f := f, pw := aw + 1 }

/-- The reference configuration `QSF-AW12-F512`: `C = 4096`, `F = 512`, `PW = 13` (00_scope R2, R5). -/
def Config.reference : Config := { aw := 12, c := 4096, f := 512, pw := 13 }

/-- The configuration string `QSF-AW<AW>-F<F>` (00_scope R2). -/
def Config.name (k : Config) : String := "QSF-AW" ++ toString k.aw ++ "-F" ++ toString k.f

end Sys2Proof
end

