-- ==== Sys2Proof/Syntax.lean ====
section
/-! DEFINITION. The transactions of the two ports (30_encoding R145, R146; every row of spec/opcode_table.json), the
words that carry them, and the edges of a run (00_scope R8, R9). -/

namespace Sys2Proof

/-- A port transaction: one constructor per row of the opcode table. Don't-care fields (R147) are not kept. -/
inductive Instr where
  /-- `PNOP`: no payload byte, no end of burst (R181). -/
  | pnop
  /-- `BYTE d`: one payload byte, the burst continues (R182). -/
  | byte (d : Byte)
  /-- `BYTEL d`: one payload byte, the last of its burst (R183). -/
  | bytel (d : Byte)
  /-- `EOB`: end of burst with no byte (R184). -/
  | eob
  /-- `CNOP`: no command presented (R225). -/
  | cnop
  /-- `PULL`: pull one frame of `F` samples, all or nothing (R226). -/
  | pull
  /-- `READ n`: emit exactly `n` samples; `n` is an unsigned `PW`-bit number (R229, R144). -/
  | read (n : Nat)
  /-- `CLRS`: clear the sticky overflow indication (R230). -/
  | clrs
  /-- `RSVD`: the reserved command code (R231). -/
  | rsvd
  deriving DecidableEq, Repr

/-- The two ports: the producer's in the `wclk` domain, the consumer's in the `rclk` domain (R140). -/
inductive Port where
  | producer
  | consumer
  deriving DecidableEq, Repr

/-- The port on which a transaction is presented (R145, R146). -/
def Instr.port : Instr → Port
  | .pnop => .producer
  | .byte _ => .producer
  | .bytel _ => .producer
  | .eob => .producer
  | .cnop => .consumer
  | .pull => .consumer
  | .read _ => .consumer
  | .clrs => .consumer
  | .rsvd => .consumer

/-- A word presented on a port (R140): the P-format word has 10 bits; the C-format word has `3 + PW` bits, a width that
depends on the configuration, so it is held as the number it spells (`PortWord.wf` bounds it). -/
inductive PortWord where
  | producer (w : BitVec 10)
  | consumer (w : Nat)
  deriving DecidableEq, Repr

/-- Whether a word is a consumer word, so that its edge is an `rstep` (00_scope R8). -/
def PortWord.isConsumer : PortWord → Bool
  | .producer _ => false
  | .consumer _ => true

/-- One event of a run (00_scope R8, R9): a clock edge of one domain with the word presented on that domain's port, or a
reset. Two edges at the same instant are two events in either order (R10). -/
inductive Edge where
  | port (w : PortWord)
  | reset
  deriving DecidableEq, Repr

/-- One output event `emit(data, sil, last)` (00_scope R18). -/
structure OutEvent where
  /-- The 16-bit sample. -/
  data : Sample
  /-- The silence source supplied it. -/
  silence : Bool
  /-- It is the final sample of its command. -/
  last : Bool
  deriving DecidableEq, Repr

end Sys2Proof
end

