-- ==== Sys2Proof/WellFormed.lean ====
section
/-! DEFINITION. Which transactions and port words exist in a configuration: the bounds that the types do not carry. -/

namespace Sys2Proof

/-- A transaction of the configuration: the count of a `READ` is a `PW`-bit number, `0 .. 2^PW - 1` (30_encoding R144).
Every other transaction is well formed. -/
def Instr.wf (k : Config) : Instr → Bool
  | .pnop => true
  | .byte _ => true
  | .bytel _ => true
  | .eob => true
  | .cnop => true
  | .pull => true
  | .read n => decide (n < 2 ^ k.pw)
  | .clrs => true
  | .rsvd => true

/-- A word of its port: a consumer word has `3 + PW` bits (30_encoding R140); a producer word has its 10 bits by its type. -/
def PortWord.wf (k : Config) : PortWord → Bool
  | .producer _ => true
  | .consumer w => decide (w < 2 ^ (k.pw + 3))

/-- An edge whose word is a word of its port. -/
def Edge.wf (k : Config) : Edge → Bool
  | .port w => w.wf k
  | .reset => true

end Sys2Proof
end

