-- ==== Sys2Proof/Decode.lean ====
section
/-! DEFINITION. The decoder and the encoder of the two port formats (30_encoding R140 to R149), and the reading of a word
numbered as spec/opcode_table.json numbers it. -/

namespace Sys2Proof

/-- Why a value presented to the decoder is no transaction. -/
inductive DecodeError where
  /-- The value does not fit the consumer port's `3 + PW` wires (30_encoding R140): it is no word of the port. -/
  | consumerWordTooWide
  deriving DecidableEq, Repr

/-- `p_valid`, bit 9 of a P-format word (R141). -/
def pValid (w : BitVec 10) : Bool := w.getLsbD 9

/-- `p_eob`, bit 8 of a P-format word (R141). -/
def pEob (w : BitVec 10) : Bool := w.getLsbD 8

/-- `p_data`, bits 7:0 of a P-format word (R141). -/
def pData (w : BitVec 10) : Byte := w.extractLsb' 0 8

/-- `c_valid`, bit `PW+2` of a C-format word (R142). -/
def cValid (pw w : Nat) : Bool := w / 2 ^ (pw + 2) % 2 == 1

/-- `c_cmd`, bits `PW+1 : PW` of a C-format word (R142). -/
def cCmd (pw w : Nat) : Nat := w / 2 ^ pw % 4

/-- `c_count`, bits `PW-1 : 0` of a C-format word (R142), as the unsigned number `n` (R144). -/
def cCount (pw w : Nat) : Nat := w % 2 ^ pw

/-- The P-format opcode map on `{p_valid, p_eob}` (R145). -/
def decodeProducer (w : BitVec 10) : Instr :=
  match pValid w, pEob w with
  | false, false => .pnop
  | true, false => .byte (pData w)
  | true, true => .bytel (pData w)
  | false, true => .eob

/-- The C-format opcode map on `{c_valid, c_cmd}` (R146). -/
def decodeConsumer (pw w : Nat) : Instr :=
  if cValid pw w then
    match cCmd pw w with
    | 0 => .pull
    | 1 => .read (cCount pw w)
    | 2 => .clrs
    | _ => .rsvd
  else .cnop

/-- The decoder: total on every word of either port (R148); a value wider than the consumer port is refused by name. -/
def decode (k : Config) : PortWord → Except DecodeError Instr
  | .producer w => .ok (decodeProducer w)
  | .consumer w => if w < 2 ^ (k.pw + 3) then .ok (decodeConsumer k.pw w) else .error .consumerWordTooWide

/-- A P-format word from its fields (R141). -/
def producerWord (valid eob : Bool) (data : Byte) : BitVec 10 := BitVec.ofBool valid ++ (BitVec.ofBool eob ++ data)

/-- A C-format word with `c_valid = 1` from its fields (R142). -/
def commandWord (pw cmd count : Nat) : Nat := 2 ^ (pw + 2) + cmd * 2 ^ pw + count

/-- The word of a transaction (R145, R146). DESIGN CHOICE (log 20): don't-care fields are written 0, as in R152. -/
def encode (k : Config) : Instr → PortWord
  | .pnop => .producer (producerWord false false 0)
  | .byte d => .producer (producerWord true false d)
  | .bytel d => .producer (producerWord true true d)
  | .eob => .producer (producerWord false true 0)
  | .cnop => .consumer 0
  | .pull => .consumer (commandWord k.pw 0 0)
  | .read n => .consumer (commandWord k.pw 1 n)
  | .clrs => .consumer (commandWord k.pw 2 0)
  | .rsvd => .consumer (commandWord k.pw 3 0)

/-- The port word that a number of the opcode table spells in the reference configuration, where a C word has 16 bits.
The table's rows do not say their port in the word, so the port is read from it. DESIGN CHOICE (log 7): a row given fewer
than 16 bits, and a nonzero number below `2^10`, is a P word; any other number, zero among them, is a C word. -/
def tableWord (nbits w : Nat) : PortWord :=
  if (nbits < 16 || 0 < w) && w < 2 ^ 10 then .producer (BitVec.ofNat 10 w) else .consumer w

/-- What the decoder reads from a word numbered as spec/opcode_table.json numbers it (the reference configuration). -/
def decodeTableWord (nbits w : Nat) : Option Instr :=
  match decode Config.reference (tableWord nbits w) with
  | .ok i => some i
  | .error _ => none

end Sys2Proof
end

