-- ==== Sys2Proof/Machine/State.lean ====
section
/-! DEFINITION. The state of the block, its faults and refusals, and the state right after reset (10_state R40 to R60,
70_reset_and_hazards R400). -/

namespace Sys2Proof.Machine

/-- The storage `mem` (10_state R44), as a list of bytes in one canonical form (Machine/Storage.lean): addresses strictly
rising, no byte listed that an unlisted address reads as. Slot `s` lies at addresses `2s` (bits 7:0) and `2s+1` (bits 15:8).
DESIGN CHOICE (log 10): the spec has no byte addresses, and no transaction can see this layout. -/
abbrev Memory := List Host.Cell

/-- The whole state. Cursor and count fields are numbers below `2^PW` (`State.Wf` in Safety.lean states it and every step
keeps it). -/
structure State where
  /-- The configuration (00_scope R5): not state, never written. DESIGN CHOICE (log 1). -/
  cfg : Config
  -- the write domain, 10_state R42
  /-- `W`, the write cursor, `PW` bits. -/
  W : Nat
  /-- `Wg`, the Gray code of `W`, `PW` bits: the only copy of the write cursor that crosses domains. -/
  Wg : Nat
  /-- `lo_pending`: a low byte has arrived and its high byte has not (R50). -/
  loPending : Bool
  /-- `lo_byte`, the pending low byte. -/
  loByte : Byte
  /-- `burst_count`, bursts ended since reset (R187). -/
  burstCount : Counter
  /-- `req_s1`, first synchroniser stage of `req_r`. -/
  reqS1 : Bool
  /-- `req_s2`, second synchroniser stage of `req_r`. -/
  reqS2 : Bool
  /-- `ack_w`, the handshake's acknowledge toggle. -/
  ackW : Bool
  /-- `R_w`, the write domain's copy of the read cursor, `PW` bits. -/
  Rw : Nat
  -- the read domain, 10_state R43
  /-- `R`, the read cursor, `PW` bits. -/
  R : Nat
  /-- `ws1`, first synchroniser stage of `Wg`, `PW` bits. -/
  ws1 : Nat
  /-- `ws2`, second synchroniser stage of `Wg`, `PW` bits. -/
  ws2 : Nat
  /-- `req_r`, the handshake's request toggle. -/
  reqR : Bool
  /-- `R_hold`, the held read-cursor bundle, `PW` bits. -/
  Rhold : Nat
  /-- `ack_s1`, first synchroniser stage of `ack_w`. -/
  ackS1 : Bool
  /-- `ack_s2`, second synchroniser stage of `ack_w`. -/
  ackS2 : Bool
  /-- `n_real`, real samples the current command still has to emit, `PW` bits. -/
  nReal : Nat
  /-- `n_zero`, silence samples the current command still has to emit, `PW` bits. -/
  nZero : Nat
  /-- `starved`: true is STARVED, false is FEEDING (R48). -/
  starved : Bool
  /-- `ovf`, the sticky overflow indication (R49). -/
  ovf : Bool
  /-- `underrun_count` (R237). -/
  underrunCount : Counter
  /-- `drop_count` (R222). -/
  dropCount : Counter
  /-- `mem`, the storage: `C` samples (R44). -/
  mem : Memory
  -- the consumer output port, 10_state R58
  /-- `o_valid`. -/
  oValid : Bool
  /-- `o_data`. -/
  oData : Sample
  /-- `o_silence`. -/
  oSilence : Bool
  /-- `o_last`. -/
  oLast : Bool
  /-- The output trace: every event emitted since reset, oldest first (00_scope R18; log 11). -/
  trace : List OutEvent
  /-- The model's own field: the edges the environment presents next, in order (00_scope R8, R9). DESIGN CHOICE (log 4). -/
  edges : List Edge
  deriving DecidableEq, Repr

/-- The reasons a step could fault. There is none: no transaction, command or condition raises an exception, a trap, an abort
or an error response (60_exceptions R360; 00_scope R13). -/
inductive Fault where
  deriving DecidableEq, Repr

/-- The reasons a step has no meaning. -/
inductive Refusal where
  /-- Raised by an arm of `exec` whose instruction has no meaning yet. No arm raises it. Safe. -/
  | notModelled (mnemonic : String)
  /-- Raised by every step of a state whose configuration is refused: a model has no meaning for it (00_scope R6). Safe. -/
  | notAQsf
  /-- Raised by `step` when the value presented to the consumer port does not fit its `3 + PW` wires (30_encoding R140), so it
  is no word of the port. Safe. -/
  | notAPortWord
  deriving DecidableEq, Repr

/-- The state right after reset in configuration `k` (70_reset_and_hazards R400): every register at 0 except `starved`, the
storage all zero, the output port at 0, nothing emitted, and no edge presented yet. -/
def State.resetOf (k : Config) : State where
  cfg := k
  W := 0
  Wg := 0
  loPending := false
  loByte := 0
  burstCount := 0
  reqS1 := false
  reqS2 := false
  ackW := false
  Rw := 0
  R := 0
  ws1 := 0
  ws2 := 0
  reqR := false
  Rhold := 0
  ackS1 := false
  ackS2 := false
  nReal := 0
  nZero := 0
  starved := true
  ovf := false
  underrunCount := 0
  dropCount := 0
  mem := []
  oValid := false
  oData := 0
  oSilence := false
  oLast := false
  trace := []
  edges := []

/-- The state right after reset, in the reference configuration. DESIGN CHOICE (log 2). -/
def State.reset : State := State.resetOf Config.reference

end Sys2Proof.Machine
end

