-- ==== Sys2Proof/Machine/Cursor.lean ====
section
/-! DEFINITION. Pointer arithmetic modulo `2^PW` (00_scope R15) and the Gray code of a cursor (R16). -/

namespace Sys2Proof.Machine

/-- `a +P k`: the sum modulo `2^PW` (R15). -/
def addP (k : Config) (a n : Nat) : Nat := (a + n) % 2 ^ k.pw

/-- `a -P b`: the difference modulo `2^PW`, in `[0, 2^PW)` (R15). -/
def subP (k : Config) (a b : Nat) : Nat := (a + (2 ^ k.pw - b % 2 ^ k.pw)) % 2 ^ k.pw

/-- `slot(p) = p[AW-1:0]`, the storage index a cursor names (R15). -/
def slot (k : Config) (p : Nat) : Nat := p % 2 ^ k.aw

/-- `bin2gray(x) = x XOR (x >> 1)` (R16). -/
def bin2gray (x : Nat) : Nat := x ^^^ (x >>> 1)

/-- The XOR of `g`, `g >> 1`, ..., `g >> (n-1)`: its bit `i` is the XOR of bits `i+n-1` down to `i` of `g`. -/
def xorShifts (g : Nat) : Nat → Nat
  | 0 => 0
  | n + 1 => xorShifts g n ^^^ (g >>> n)

/-- `gray2bin(g)`: bit `i` of the result is the XOR of bits `PW-1` down to `i` of `g` (R16). -/
def gray2bin (pw g : Nat) : Nat := xorShifts (g % 2 ^ pw) pw

end Sys2Proof.Machine
end

