-- ==== Sys2Proof/Machine/Flags.lean ====
section
/-! DEFINITION. The status outputs, each a function of its own domain's registers (10_state R51 to R57), and the read
domain's view of the write cursor. -/

namespace Sys2Proof.Machine

/-- `Ws = gray2bin(ws2)`, the read domain's synchronised copy of the write cursor (00_scope R20, 41_consumer R221). -/
def State.Ws (s : State) : Nat := gray2bin s.cfg.pw s.ws2

/-- `w_fill = min(W -P R_w, C)` (R52). -/
def State.wFill (s : State) : Nat := min (subP s.cfg s.W s.Rw) s.cfg.c

/-- `w_full = 1` exactly when `(W -P R_w) >= C` (R53). -/
def State.wFull (s : State) : Bool := decide (s.cfg.c ≤ subP s.cfg s.W s.Rw)

/-- `w_burst_count` (R54). -/
def State.wBurstCount (s : State) : Counter := s.burstCount

/-- `r_avail = min(Ws -P R, C)` (R55). -/
def State.rAvail (s : State) : Nat := min (subP s.cfg s.Ws s.R) s.cfg.c

/-- `r_starved` (R56). -/
def State.rStarved (s : State) : Bool := s.starved

/-- `r_ovf` (R56). -/
def State.rOvf (s : State) : Bool := s.ovf

/-- `r_underrun_count` (R56). -/
def State.rUnderrunCount (s : State) : Counter := s.underrunCount

/-- `r_drop_count` (R56). -/
def State.rDropCount (s : State) : Counter := s.dropCount

/-- `c_ready = 1` exactly when `n_real = 0` and `n_zero = 0` (R57). -/
def State.cReady (s : State) : Bool := s.nReal == 0 && s.nZero == 0

end Sys2Proof.Machine
end

