-- ==== Sys2Proof/Machine/Operands.lean ====
section
/-! DEFINITION. Operand assembly (30_encoding R144): two bytes form a sample; a `READ` count splits into real and silence
samples. The other commands take no operand. -/

namespace Sys2Proof.Machine

/-- The sample `{high, low}`: the earlier byte is bits 7:0, the later byte is bits 15:8 (20_memory R103). -/
def sampleOf (high low : Byte) : Sample := high ++ low

/-- The real part of a `READ n` when `avail` samples are available: `k = min(n, d1)` (41_consumer R229). -/
def realPart (n avail : Nat) : Nat := min n avail

/-- The silence part of a `READ n`: `n - k` (41_consumer R229). -/
def zeroPart (n avail : Nat) : Nat := n - realPart n avail

end Sys2Proof.Machine
end

