-- ==== Sys2Proof/Machine/Storage.lean ====
section
/-! DEFINITION. The storage primitives `MemRead(s, 2)` and `MemWrite(s, 2, v)` (00_scope R17) over the canonical list of
bytes that holds `mem`. A slot number is always in range (10_state R45), so no access faults (20_memory R102). -/

namespace Sys2Proof.Machine

/-- What an address that is not listed reads as: the reset contents of the storage (10_state R44: every entry is 0). -/
def unlistedByte : Byte := 0

/-- One byte of the storage. -/
def readByte : Memory → Nat → Byte
  | [], _ => unlistedByte
  | (k, v) :: rest, a => if k = a then v else readByte rest a

/-- Set one byte of the storage, keeping the canonical form. -/
def writeByte : Memory → Nat → Byte → Memory
  | [], a, v => if v = unlistedByte then [] else [(a, v)]
  | (k, w) :: rest, a, v =>
    if a < k then (if v = unlistedByte then (k, w) :: rest else (a, v) :: (k, w) :: rest)
    else if a = k then (if v = unlistedByte then rest else (a, v) :: rest)
    else (k, w) :: writeByte rest a v

/-- The canonical form: addresses strictly rising, and no entry equal to what an unlisted address reads as. -/
def Memory.wf : Memory → Bool
  | [] => true
  | (k, v) :: rest => v != unlistedByte && rest.all (fun cell => decide (k < cell.1)) && Memory.wf rest

/-- `MemRead(s, 2)`: the 16-bit value of entry `s` (R17). -/
def memRead (m : Memory) (s : Nat) : Sample := readByte m (2 * s + 1) ++ readByte m (2 * s)

/-- `MemWrite(s, 2, v)`: entry `s` becomes the 16-bit value `v` (R17), whole and in one step (20_memory R106). -/
def memWrite (m : Memory) (s : Nat) (v : Sample) : Memory :=
  writeByte (writeByte m (2 * s) (v.extractLsb' 0 8)) (2 * s + 1) (v.extractLsb' 8 8)

/-- Every listed byte lies in one of the `c` slots. -/
def Memory.within (c : Nat) (m : Memory) : Bool := m.all (fun cell => decide (cell.1 < 2 * c))

end Sys2Proof.Machine
end

