-- ==== Sys2Proof/Machine/Ops.lean ====
section
/-! DEFINITION. The shared operations of the two step functions: the sample write, the byte assembler, catch-up, acceptance,
streaming, the two crossings, and the steps `wstep` and `rstep` built from them (40_producer R180, 41_consumer R220), with the
reset step (70_reset_and_hazards R400). There is no exception to take and none to return from (60_exceptions R364, R365). -/

namespace Sys2Proof.Machine

/-- A step of a QSF has a next state (00_scope R13); a refused configuration has no meaning (R6). -/
def onQsf (s t : State) : Host.Outcome State Fault Refusal :=
  if s.cfg.isQsf then .next t else .refused .notAQsf

/-- `write_sample(v)`: store one sample at `slot(W)` and publish it in the same step (40_producer R185). -/
def writeSample (v : Sample) (s : State) : State :=
  { s with
    mem := memWrite s.mem (slot s.cfg s.W) v
    W := addP s.cfg s.W 1
    Wg := bin2gray (addP s.cfg s.W 1) }

/-- The byte assembler: a byte completes the pending sample, or becomes the pending low byte (40_producer R182). -/
def takeByte (d : Byte) (s : State) : State :=
  if s.loPending then { writeSample (sampleOf d s.loByte) s with loPending := false }
  else { s with loByte := d, loPending := true }

/-- The end of a burst: a pending low byte is discarded and the burst is counted (40_producer R184, R187). -/
def endBurst (s : State) : State :=
  { s with loPending := false, burstCount := s.burstCount + 1 }

/-- The handshake receiver, at every `wstep`: capture the held read cursor when a request has arrived, and shift the
request synchroniser (42_cdc R285). -/
def receiveHandshake (s : State) : State :=
  { s with
    Rw := if s.reqS2 != s.ackW then s.Rhold else s.Rw
    ackW := if s.reqS2 != s.ackW then s.reqS2 else s.ackW
    reqS2 := s.reqS1
    reqS1 := s.reqR }

/-- `wstep`: the byte action, then the end of burst, then the handshake receiver (40_producer R180; 60_exceptions R363).
The payload is `none` when `p_valid = 0`. The parts write different registers and read none that an earlier part wrote, but
for `loPending`, where the later assignment wins, so doing them in turn takes every register to its next value at once
(00_scope R11). -/
def wstep (payload : Option Byte) (eob : Bool) (s : State) : State :=
  let s1 := match payload with
    | some d => takeByte d s
    | none => s
  let s2 := if eob then endBurst s1 else s1
  receiveHandshake s2

/-- What catch-up finds at an `rstep` (41_consumer R220): the cursor `R1`, the samples dropped and the count `d1`. -/
structure CatchUp where
  r1 : Nat
  drop : Nat
  d1 : Nat
  deriving DecidableEq, Repr

/-- `d0 = Ws -P R`, the count of unread samples before catch-up (41_consumer R221). -/
def unread (s : State) : Nat := subP s.cfg s.Ws s.R

/-- Catch-up, the drop-oldest policy in the read domain: when more than `C` samples are unread, skip the oldest ones
(41_consumer R222). -/
def catchUp (s : State) : CatchUp :=
  if s.cfg.c < unread s then ⟨subP s.cfg s.Ws s.cfg.c, unread s - s.cfg.c, s.cfg.c⟩
  else ⟨s.R, 0, unread s⟩

/-- The registers catch-up writes: `R`, `drop_count` and `ovf` (41_consumer R222). -/
def applyCatchUp (u : CatchUp) (s : State) : State :=
  { s with
    R := u.r1
    dropCount := s.dropCount + BitVec.ofNat 32 u.drop
    ovf := s.ovf || decide (0 < u.drop) }

/-- `emit(data, sil, last)`: the event on the output port and in the trace (00_scope R18, 10_state R58). -/
def emit (e : OutEvent) (s : State) : State :=
  { s with oValid := true, oData := e.data, oSilence := e.silence, oLast := e.last, trace := s.trace ++ [e] }

/-- The output port at an `rstep` that emits nothing: `o_valid = 0`, and the other three driven to 0 (10_state R58). -/
def emitNothing (s : State) : State :=
  { s with oValid := false, oData := 0, oSilence := false, oLast := false }

/-- The constant of the silence source (41_consumer R234). -/
def silenceSample : Sample := 0

/-- The real-sample step: emit the sample at `slot(R1)` and advance the cursor (41_consumer R232). -/
def streamReal (u : CatchUp) (s : State) : State :=
  emit ⟨memRead s.mem (slot s.cfg u.r1), false, s.nReal == 1 && s.nZero == 0⟩
    { s with R := addP s.cfg u.r1 1, nReal := s.nReal - 1 }

/-- The silence step: emit the silence source's constant (41_consumer R233, R234). -/
def streamSilence (s : State) : State :=
  emit ⟨silenceSample, true, s.nZero == 1⟩ { s with nZero := s.nZero - 1 }

/-- The write-cursor synchroniser, at every `rstep` (42_cdc R281). -/
def synchronise (s : State) : State :=
  { s with ws2 := s.ws1, ws1 := s.Wg }

/-- The handshake sender, at every `rstep`: when the last request is acknowledged, hold a new copy of `r`, the pre-step value
of `R`, and toggle the request; then shift the acknowledge synchroniser (42_cdc R284). -/
def sendHandshake (r : Nat) (s : State) : State :=
  { s with
    Rhold := if s.ackS2 == s.reqR then r else s.Rhold
    reqR := if s.ackS2 == s.reqR then !s.reqR else s.reqR
    ackS2 := s.ackS1
    ackS1 := s.ackW }

/-- What an accepted command does, given the count after catch-up: it acts on the state catch-up has written. -/
abbrev Command := CatchUp → State → State

/-- The acceptance or streaming part of an `rstep` (41_consumer R224): a command is accepted when `c_ready = 1` before the
step; otherwise the presented word is ignored and one streaming step runs. -/
def acceptOrStream (cmd : Command) (u : CatchUp) (s : State) : State :=
  if s.cReady then emitNothing (cmd u s)
  else if 0 < s.nReal then streamReal u s
  else streamSilence s

/-- `rstep`: catch-up, acceptance or streaming, the synchroniser, the handshake sender (41_consumer R220). The parts read
registers of other parts only in their pre-step values, but for `R1` and `drop`, which are the step's own (00_scope R11). -/
def rstep (cmd : Command) (s : State) : State :=
  let u := catchUp s
  sendHandshake s.R (synchronise (acceptOrStream cmd u (applyCatchUp u s)))

/-- The state with other edges waiting: the environment's choices, no register of the block (00_scope R8; log 4). -/
def withEdges (es : List Edge) (s : State) : State := { s with edges := es }

/-- The reset step in one atomic step: every register of both domains, the storage and the output port at their reset values
(70_reset_and_hazards R400); the configuration is not changed, the coming edges are the environment's, and the run's trace
starts anew (00_scope R9). -/
def resetStep (s : State) : Host.Outcome State Fault Refusal :=
  onQsf s (withEdges s.edges (State.resetOf s.cfg))

/-- No edge: no domain takes a step, and all state survives (60_exceptions R373; log 5). -/
def idleStep (s : State) : Host.Outcome State Fault Refusal := onQsf s s

/-- The edge the environment presents next, and the state with it taken (00_scope R8, R9). -/
def nextEdge (s : State) : Option (Edge × State) :=
  match s.edges with
  | [] => none
  | e :: rest => some (e, withEdges rest s)

/-- The state with a word presented at the next edge, before the edges already there. -/
def presentWord (w : PortWord) (s : State) : State := withEdges (.port w :: s.edges) s

end Sys2Proof.Machine
end

