-- ==== Sys2Proof/Machine/Consumer.lean ====
section
/-! DEFINITION. The meanings of the consumer port's commands (41_consumer R225 to R231): each is one `rstep` with the
command's own action at acceptance. -/

namespace Sys2Proof.Machine

/-- `CNOP` presents no command: nothing is accepted (R225). -/
def acceptNothing : Command := fun _ s => s

/-- `PULL` at acceptance: the FEEDING path when a whole frame is available (R227), else the STARVED path (R228). -/
def acceptPull : Command := fun u s =>
  if s.cfg.f ≤ u.d1 then { s with nReal := s.cfg.f, nZero := 0, starved := false }
  else { s with nReal := 0, nZero := s.cfg.f, starved := true, underrunCount := s.underrunCount + 1 }

/-- `READ n` at acceptance: the split into real and silence samples is fixed (R229). -/
def acceptRead (n : Nat) : Command := fun u s =>
  { s with nReal := realPart n u.d1, nZero := zeroPart n u.d1 }

/-- `CLRS` at acceptance: clear `ovf`, unless this step's catch-up dropped (R230; 60_exceptions R363: setting wins). -/
def acceptClrs : Command := fun u s =>
  if u.drop = 0 then { s with ovf := false } else s

/-- `RSVD` at acceptance: no effect (R231). -/
def acceptRsvd : Command := fun _ s => s

/-- `CNOP` (R225). -/
def execCnop (s : State) : Host.Outcome State Fault Refusal := onQsf s (rstep acceptNothing s)

/-- `PULL` (R226). -/
def execPull (s : State) : Host.Outcome State Fault Refusal := onQsf s (rstep acceptPull s)

/-- `READ n` (R229). -/
def execRead (n : Nat) (s : State) : Host.Outcome State Fault Refusal := onQsf s (rstep (acceptRead n) s)

/-- `CLRS` (R230). -/
def execClrs (s : State) : Host.Outcome State Fault Refusal := onQsf s (rstep acceptClrs s)

/-- `RSVD` (R231). -/
def execRsvd (s : State) : Host.Outcome State Fault Refusal := onQsf s (rstep acceptRsvd s)

end Sys2Proof.Machine
end

