-- ==== Sys2Proof/Machine/Producer.lean ====
section
/-! DEFINITION. The meanings of the producer port's transactions (40_producer R181 to R184): each is one `wstep`. -/

namespace Sys2Proof.Machine

/-- `PNOP`: no payload byte and no end of burst (R181). -/
def execPnop (s : State) : Host.Outcome State Fault Refusal := onQsf s (wstep none false s)

/-- `BYTE d`: one payload byte, the burst continues (R182). -/
def execByte (d : Byte) (s : State) : Host.Outcome State Fault Refusal := onQsf s (wstep (some d) false s)

/-- `BYTEL d`: one payload byte, which is the last of the burst (R183). -/
def execBytel (d : Byte) (s : State) : Host.Outcome State Fault Refusal := onQsf s (wstep (some d) true s)

/-- `EOB`: end of burst with no byte (R184). -/
def execEob (s : State) : Host.Outcome State Fault Refusal := onQsf s (wstep none true s)

end Sys2Proof.Machine
end

