-- ==== Sys2Proof/Machine/Dispatch.lean ====
section
/-! DEFINITION. One arm per transaction, each a direct call of its meaning. -/

namespace Sys2Proof.Machine

def exec (i : Instr) (s : State) : Host.Outcome State Fault Refusal :=
  match i with
  | .pnop => Sys2Proof.Machine.execPnop s
  | .byte d => Sys2Proof.Machine.execByte d s
  | .bytel d => Sys2Proof.Machine.execBytel d s
  | .eob => Sys2Proof.Machine.execEob s
  | .cnop => Sys2Proof.Machine.execCnop s
  | .pull => Sys2Proof.Machine.execPull s
  | .read n => Sys2Proof.Machine.execRead n s
  | .clrs => Sys2Proof.Machine.execClrs s
  | .rsvd => Sys2Proof.Machine.execRsvd s

end Sys2Proof.Machine
end

