-- ==== Sys2Proof/Machine/Step.lean ====
section
/-! DEFINITION. One step of the machine: the next edge of the environment's list, as a `wstep`, an `rstep` or a reset
(00_scope R8, R9). -/

namespace Sys2Proof.Machine

/-- The step of a presented word: its transaction runs; a value that is no word of its port is refused (log 14). -/
def stepWord (w : PortWord) (s : State) : Host.Outcome State Fault Refusal :=
  match decode s.cfg w with
  | .ok i => exec i s
  | .error _ => .refused .notAPortWord

/-- One step: take the next edge and perform it. With no edge presented nothing happens (log 5). -/
def step (s : State) : Host.Outcome State Fault Refusal :=
  match nextEdge s with
  | none => idleStep s
  | some (.port w, t) => stepWord w t
  | some (.reset, t) => resetStep t

/-- The state whose next edge presents the word `w` of the opcode table (log 6). -/
def State.withFetchWord (s : State) (nbits w : Nat) : State := presentWord (tableWord nbits w) s

end Sys2Proof.Machine
end

