-- ==== Sys2Proof/Machine/Reference.lean ====
section
/-! DEFINITION. The sequential reference model of 43_reference_model (R320 to R326), the abstraction map from hardware state
to reference state (R328) and the settled point at which it is taken (R329). -/

namespace Sys2Proof.Machine

/-- The two states of the source's consumer state machine (43_reference_model R320, R326). -/
inductive Mode where
  | starved
  | feeding
  deriving DecidableEq, Repr

/-- One element a reference call returns, tagged real or silence (R324). -/
structure RefSample where
  value : Sample
  silence : Bool
  deriving DecidableEq, Repr

/-- The reference state of a configuration `(C, F)` (R320). -/
structure RefState where
  c : Nat
  f : Nat
  /-- An array of `C` samples. -/
  storage : List Sample
  writeCursor : Nat
  readCursor : Nat
  available : Nat
  mode : Mode
  burstCounter : Nat
  overflowCount : Nat
  underrunCount : Nat
  deriving DecidableEq, Repr

/-- Creation (R321). -/
def RefState.create (c f : Nat) : RefState where
  c := c
  f := f
  storage := List.replicate c 0
  writeCursor := 0
  readCursor := 0
  available := 0
  mode := .starved
  burstCounter := 0
  overflowCount := 0
  underrunCount := 0

/-- `write1(s)`: write one sample; when the buffer is full, drop the oldest (R322). -/
def RefState.write1 (v : Sample) (r : RefState) : RefState :=
  let stored := { r with storage := r.storage.set r.writeCursor v, writeCursor := (r.writeCursor + 1) % r.c }
  if r.available < r.c then { stored with available := r.available + 1 }
  else { stored with readCursor := (r.readCursor + 1) % r.c, overflowCount := r.overflowCount + 1 }

/-- `write(seq)`: the samples in order (R323). -/
def RefState.write : List Sample → RefState → RefState
  | [], r => r
  | v :: rest, r => RefState.write rest (r.write1 v)

/-- The samples of a burst's bytes: `s[i] = b[2i] + 256 * b[2i+1]`, a trailing odd byte discarded (R323, 20_memory R103). -/
def samplesOf : List Byte → List Sample
  | low :: high :: rest => sampleOf high low :: samplesOf rest
  | _ => []

/-- `on_burst(b)`, the Producer Adapter (R323). -/
def RefState.onBurst (bytes : List Byte) (r : RefState) : RefState :=
  let w := r.write (samplesOf bytes)
  { w with burstCounter := w.burstCounter + 1 }

/-- `read(N)`: pop up to `N` samples, then silence (R324). -/
def RefState.read : Nat → RefState → List RefSample × RefState
  | 0, r => ([], r)
  | n + 1, r =>
    if 0 < r.available then
      let rest := RefState.read n { r with readCursor := (r.readCursor + 1) % r.c, available := r.available - 1 }
      (⟨r.storage.getD r.readCursor 0, false⟩ :: rest.1, rest.2)
    else
      let rest := RefState.read n r
      (⟨0, true⟩ :: rest.1, rest.2)

/-- `pull()`: all or nothing (R325). -/
def RefState.pull (r : RefState) : List RefSample × RefState :=
  if r.f ≤ r.available then RefState.read r.f { r with mode := .feeding }
  else (List.replicate r.f ⟨0, true⟩, { r with mode := .starved, underrunCount := r.underrunCount + 1 })

/-- The reference invariants on the cursors and the count (R327). -/
abbrev RefState.Sound (r : RefState) : Prop :=
  r.storage.length = r.c ∧ r.writeCursor < r.c ∧ r.readCursor < r.c ∧ r.available ≤ r.c ∧
    r.writeCursor = (r.readCursor + r.available) % r.c

/-- A call of the reference model (R322 to R325); `write [s]` is `write1(s)`. -/
inductive RefCall where
  /-- `write(seq)`. -/
  | write (vs : List Sample)
  /-- `on_burst(b)`. -/
  | burst (bytes : List Byte)
  /-- `pull()`. -/
  | pull
  /-- `read(N)`. -/
  | read (n : Nat)
  deriving DecidableEq, Repr

/-- What a call returns, and the state after it. -/
def RefState.call : RefCall → RefState → List RefSample × RefState
  | .write vs, r => ([], r.write vs)
  | .burst bytes, r => ([], r.onBurst bytes)
  | .pull, r => r.pull
  | .read n, r => r.read n

/-- What a sequence of calls returns in all, in order, and the state after them. -/
def RefState.calls : List RefCall → RefState → List RefSample × RefState
  | [], r => ([], r)
  | c :: cs, r =>
    let one := r.call c
    let rest := RefState.calls cs one.2
    (one.1 ++ rest.1, rest.2)

/-- The samples a call writes, in order. -/
def RefCall.samples : RefCall → List Sample
  | .write vs => vs
  | .burst bytes => samplesOf bytes
  | .pull => []
  | .read _ => []

/-- The samples a sequence of calls writes, in order. -/
def samplesWritten (cs : List RefCall) : List Sample := cs.flatMap RefCall.samples

/-- The real samples among returned elements, in order. -/
def realValues (es : List RefSample) : List Sample := (es.filter fun e => !e.silence).map RefSample.value

/-- The third invariant of R327: of the samples written so far, the `available` ones at `read_cursor`, `read_cursor + 1`, ...
(mod `C`) are the last `available` written, in write order; and those read so far are, in order, among the others, which are
those read and those lost. -/
abbrev RefState.HoldsLast (r : RefState) (written read : List Sample) : Prop :=
  written.length = read.length + r.overflowCount + r.available ∧
  (∀ i < r.available,
    r.storage.getD ((r.readCursor + i) % r.c) 0 = written.getD (written.length - r.available + i) 0) ∧
  read.Sublist (written.take (written.length - r.available))

/-- The form of a hardware state at a settled point (R329): `c_ready = 1`, `lo_pending = 0`, and the read domain has seen every
write and caught up. A settled run has it at every settled point; it can have it earlier. -/
abbrev State.Settled (s : State) : Prop :=
  s.cReady = true ∧ s.loPending = false ∧ s.ws1 = s.Wg ∧ s.ws2 = s.Wg ∧ subP s.cfg s.W s.R ≤ s.cfg.c

/-- The abstraction map (R328), as a relation between a hardware state and a reference state. -/
abbrev Abstracts (s : State) (r : RefState) : Prop :=
  r.c = s.cfg.c ∧ r.f = s.cfg.f ∧ r.storage.length = s.cfg.c ∧
    (∀ i < s.cfg.c, r.storage.getD i 0 = memRead s.mem i) ∧
    r.writeCursor = slot s.cfg s.W ∧ r.readCursor = slot s.cfg s.R ∧ r.available = subP s.cfg s.W s.R ∧
    (r.mode = .starved ↔ s.starved = true) ∧ s.burstCount = BitVec.ofNat 32 r.burstCounter ∧
    s.dropCount = BitVec.ofNat 32 r.overflowCount ∧ s.underrunCount = BitVec.ofNat 32 r.underrunCount

end Sys2Proof.Machine
end

