-- ==== Sys2Proof/Machine/Script.lean ====
section
/-! DEFINITION. The transaction scripts of 30_encoding (R150) and their pseudo-transactions (R151), as lists of lines and the
edges they stand for. The text syntax itself is not modelled: a line is data. -/

namespace Sys2Proof.Machine

/-- A script line: `w <tx>` or `r <cmd>` (the port is the transaction's), or `reset` (R150). -/
inductive Line where
  | tx (i : Instr)
  | reset
  deriving DecidableEq, Repr

/-- The edge of a line: the transaction's word on its port (R150). -/
def lineEdge (k : Config) : Line → Edge
  | .tx i => .port (encode k i)
  | .reset => .reset

/-- The interleaving a script fixes: lines run in order (R150). -/
def scriptEdges (k : Config) (lines : List Line) : List Edge := lines.map (lineEdge k)

/-- `SAMPLE v`: `w BYTE v[7:0]` then `w BYTE v[15:8]` (R151). -/
def sampleLines (v : Sample) : List Line := [.tx (.byte (v.extractLsb' 0 8)), .tx (.byte (v.extractLsb' 8 8))]

/-- `SAMPLEL v`: `w BYTE v[7:0]` then `w BYTEL v[15:8]` (R151). -/
def sampleLastLines (v : Sample) : List Line := [.tx (.byte (v.extractLsb' 0 8)), .tx (.bytel (v.extractLsb' 8 8))]

/-- `BURST v0, ..., vk`; with no values it is `w EOB` (R151). -/
def burstLines : List Sample → List Line
  | [] => [.tx .eob]
  | [v] => sampleLastLines v
  | v :: rest => sampleLines v ++ burstLines rest

/-- `REPEAT k <line>` (R151). -/
def repeatLines (n : Nat) (lines : List Line) : List Line := (List.replicate n lines).flatten

/-- `WIDLE k`: `k` lines of `w PNOP` (R151). -/
def widleLines (n : Nat) : List Line := List.replicate n (.tx .pnop)

/-- `RIDLE k`: `k` lines of `r CNOP` (R151). -/
def ridleLines (n : Nat) : List Line := List.replicate n (.tx .cnop)

/-- `LOCK`: `r CNOP` after each `w` line (R151). -/
def lockLines : List Line → List Line
  | [] => []
  | .tx i :: rest => if i.port = .producer then .tx i :: .tx .cnop :: lockLines rest else .tx i :: lockLines rest
  | .reset :: rest => .reset :: lockLines rest

/-- `SETTLE`: `LOCK w PNOP` ten times (R151; 90_conflicts C9). -/
def settleLines : List Line := lockLines (widleLines 10)

/-- The number of samples a command emits once accepted: `F` for `PULL`, the count for `READ`, 0 otherwise
(41_consumer R241). -/
def commandLength (k : Config) : Instr → Nat
  | .pull => k.f
  | .read n => n
  | .pnop => 0
  | .byte _ => 0
  | .bytel _ => 0
  | .eob => 0
  | .cnop => 0
  | .clrs => 0
  | .rsvd => 0

/-- `DO <cmd>`, used while `c_ready = 1`: `r <cmd>` and then `r CNOP` until `c_ready = 1` after a step, which is as many as
the command emits samples (R151, 41_consumer R241). -/
def doLines (k : Config) (cmd : Instr) : List Line := .tx cmd :: ridleLines (commandLength k cmd)

/-- A `BURST` value list `a .. a + n - 1` (R151). -/
def valueRange (a n : Nat) : List Sample := (List.range n).map fun i => BitVec.ofNat 16 (a + i)

/-! ### The scenarios of 43_reference_model R332 and the programs of 95_test_vectors L3 -/

/-- Scenarios B and A in any configuration: a pull with nothing written; then a frame of `F` samples `v` in one burst, and a
pull. -/
def scenarioBA (k : Config) (v : Sample) : List Line :=
  doLines k .pull ++ lockLines (burstLines (List.replicate k.f v)) ++ ridleLines 2 ++ doLines k .pull

/-- Scenario C in any configuration: the samples `vs` in one burst, then `n` pulls. -/
def scenarioC (k : Config) (vs : List Sample) (n : Nat) : List Line :=
  lockLines (burstLines vs) ++ ridleLines 2 ++ repeatLines n (doLines k .pull)

/-- Program P1: scenarios B then A, in the reference configuration. -/
def programP1 : List Line := .reset :: scenarioBA Config.reference 100 ++ settleLines

/-- Program P2: scenario C and a ninth pull, in the reference configuration. -/
def programP2 : List Line := .reset :: scenarioC Config.reference (valueRange 0 5000) 9 ++ settleLines

/-- Program P3: malformed bursts, overflow, `READ` padding, `CLRS` and `RSVD`, in `QSF-AW2-F2`. -/
def programP3 : List Line :=
  .reset :: lockLines (burstLines [1, 2, 3]) ++ lockLines [.tx (.byte 0x11)] ++ lockLines [.tx .eob] ++ lockLines [.tx .eob] ++
    lockLines [.tx (.bytel 0x22)] ++ lockLines (burstLines [0x4444, 0x5555, 0x6666]) ++ ridleLines 2 ++
    doLines (Config.qsf 2 2) (.read 6) ++ doLines (Config.qsf 2 2) .clrs ++ doLines (Config.qsf 2 2) .rsvd ++
    doLines (Config.qsf 2 2) .pull ++ settleLines

/-- Program P4: the lapped-read race of 70_reset_and_hazards R413, in `QSF-AW2-F4`. -/
def programP4 : List Line :=
  .reset :: lockLines (burstLines [10, 11, 12, 13]) ++ repeatLines 3 (lockLines [.tx .pnop]) ++ [.tx .pull] ++
    burstLines [20, 21, 22] ++ ridleLines 4 ++ settleLines

end Sys2Proof.Machine
end

