-- ==== Sys2Proof/Safety.lean ====
section
/-! DEFINITION. The terms claims use: runs of the machine, the well-formed state, the handshake's order, the environment
conditions ENV-RATE, ENV-WSTAT and ENV-NOLAP over unbounded counts (42_cdc R288, R291; 70_reset_and_hazards R413), the clock
conditions of R410 and R411, and the conditions of a settled schedule (43_reference_model R329). -/

namespace Sys2Proof.Machine

/-! ### Runs -/

/-- The run of a list of edges from a state: the machine's own steps, one per edge (00_scope R9). -/
def play (es : List Edge) (s : State) : Host.Outcome State Fault Refusal :=
  Sys2Proof.core.run es.length (withEdges es s)

/-- The edges of a list of transactions, each on its own port. -/
def schedule (k : Config) (is : List Instr) : List Edge := is.map (fun i => .port (encode k i))

/-- A run after its reset step: any finite or infinite interleaving of the words of the two ports (00_scope R9). -/
inductive Run where
  | finite (ws : List PortWord)
  | infinite (ws : Nat → PortWord)

/-- The word of the `n`th step after the reset, where the run has one. -/
def Run.word : Run → Nat → Option PortWord
  | .finite ws, n => ws[n]?
  | .infinite ws, n => some (ws n)

/-- The first `n` words of a run (all of them, where it has fewer). -/
def Run.first (ρ : Run) (n : Nat) : List PortWord := (List.range n).filterMap ρ.word

/-- The state of a run after its reset step and `n` further steps; a run that has ended keeps its state
(60_exceptions R373; log 28). -/
def Run.after (k : Config) (ρ : Run) : Nat → Host.Outcome State Fault Refusal
  | 0 => .next (State.resetOf k)
  | n + 1 =>
    match Run.after k ρ n with
    | .next s =>
      match ρ.word n with
      | some w => step (withEdges [.port w] s)
      | none => .next s
    | .fault r => .fault r
    | .refused r => .refused r

/-- Whether a transaction is a consumer word, so that its edge is an `rstep`. -/
def onConsumer (i : Instr) : Bool := decide (i.port = .consumer)

/-- Whether a transaction is a producer word, so that its edge is a `wstep`. -/
def onProducer (i : Instr) : Bool := decide (i.port = .producer)

/-! ### The well-formed state -/

/-- The form of a state: a QSF; every cursor and count within its width; `Wg` the Gray code of `W` (42_cdc R281); the storage
canonical and within its `C` slots; the output port 0 when it carries nothing, and the last emitted event when it carries one
(10_state R58); every silence sample 0 (41_consumer R234). -/
abbrev State.Wf (s : State) : Prop :=
  s.cfg.isQsf = true ∧
  s.W < 2 ^ s.cfg.pw ∧ s.Wg = bin2gray s.W ∧ s.Rw < 2 ^ s.cfg.pw ∧
  s.R < 2 ^ s.cfg.pw ∧ s.ws1 < 2 ^ s.cfg.pw ∧ s.ws2 < 2 ^ s.cfg.pw ∧ s.Rhold < 2 ^ s.cfg.pw ∧
  s.nReal ≤ s.cfg.c ∧ s.nZero < 2 ^ s.cfg.pw ∧
  Memory.wf s.mem = true ∧ Memory.within s.cfg.c s.mem = true ∧
  (s.oValid = false → s.oData = 0 ∧ s.oSilence = false ∧ s.oLast = false) ∧
  (s.oValid = true → s.trace.getLast? = some ⟨s.oData, s.oSilence, s.oLast⟩) ∧
  (s.trace.all fun e => !e.silence || e.data == 0) = true

/-! ### What a step leaves and what it takes over -/

/-- The registers of the read domain, its output port and the trace are unchanged (10_state R43, R58). -/
abbrev SameReadDomain (s t : State) : Prop :=
  t.R = s.R ∧ t.ws1 = s.ws1 ∧ t.ws2 = s.ws2 ∧ t.reqR = s.reqR ∧ t.Rhold = s.Rhold ∧ t.ackS1 = s.ackS1 ∧ t.ackS2 = s.ackS2 ∧
  t.nReal = s.nReal ∧ t.nZero = s.nZero ∧ t.starved = s.starved ∧ t.ovf = s.ovf ∧ t.underrunCount = s.underrunCount ∧
  t.dropCount = s.dropCount ∧ t.oValid = s.oValid ∧ t.oData = s.oData ∧ t.oSilence = s.oSilence ∧ t.oLast = s.oLast ∧
  t.trace = s.trace

/-- The registers of the write domain are unchanged (10_state R42). -/
abbrev SameWriteDomain (s t : State) : Prop :=
  t.W = s.W ∧ t.Wg = s.Wg ∧ t.loPending = s.loPending ∧ t.loByte = s.loByte ∧ t.burstCount = s.burstCount ∧
  t.reqS1 = s.reqS1 ∧ t.reqS2 = s.reqS2 ∧ t.ackW = s.ackW ∧ t.Rw = s.Rw

/-- Every byte of the storage reads as before. -/
abbrev SameStorage (s t : State) : Prop := ∀ a, readByte t.mem a = readByte s.mem a

/-- Every byte of the storage reads as before, but for the two bytes of slot `n`. -/
abbrev SameStorageButSlot (n : Nat) (s t : State) : Prop :=
  ∀ a, a ≠ 2 * n → a ≠ 2 * n + 1 → readByte t.mem a = readByte s.mem a

/-- The configuration and the coming edges are unchanged: no meaning writes them. -/
abbrev SameEnvironment (s t : State) : Prop := t.cfg = s.cfg ∧ t.edges = s.edges

/-- The handshake receiver has run (42_cdc R285), from the values before the step. -/
abbrev ReceivesHandshake (s t : State) : Prop :=
  (s.reqS2 ≠ s.ackW → t.Rw = s.Rhold ∧ t.ackW = s.reqS2) ∧ (s.reqS2 = s.ackW → t.Rw = s.Rw ∧ t.ackW = s.ackW) ∧
  t.reqS2 = s.reqS1 ∧ t.reqS1 = s.reqR

/-- The write-cursor synchroniser (42_cdc R281) and the handshake sender (R284) have run, from the values before the step. -/
abbrev Crosses (s t : State) : Prop :=
  t.ws2 = s.ws1 ∧ t.ws1 = s.Wg ∧
  (s.ackS2 = s.reqR → t.Rhold = s.R ∧ t.reqR = !s.reqR) ∧ (s.ackS2 ≠ s.reqR → t.Rhold = s.Rhold ∧ t.reqR = s.reqR) ∧
  t.ackS2 = s.ackS1 ∧ t.ackS1 = s.ackW

/-- The state with other values in the indications that gate nothing: `starved`, `ovf` and the three counters (10_state R48,
R49; 40_producer R187; 41_consumer R238). -/
def withIndications (starved ovf : Bool) (under drop burst : Counter) (s : State) : State :=
  { s with starved := starved, ovf := ovf, underrunCount := under, dropCount := drop, burstCount := burst }

/-- How many samples this `rstep`'s catch-up drops: what the unread count `Ws -P R` exceeds `C` by (41_consumer R222). -/
def State.toDrop (s : State) : Nat := subP s.cfg s.Ws s.R - s.cfg.c

/-- The read cursor after this `rstep`'s catch-up (41_consumer R222). -/
def State.caughtUp (s : State) : Nat := if s.toDrop = 0 then s.R else subP s.cfg s.Ws s.cfg.c

/-- The step emits nothing: the output port is driven to 0 and the trace is as before (10_state R58). -/
abbrev EmitsNothing (s t : State) : Prop :=
  t.oValid = false ∧ t.oData = 0 ∧ t.oSilence = false ∧ t.oLast = false ∧ t.trace = s.trace

/-- The step emits the event `e` (00_scope R18, 10_state R58). -/
abbrev EmitsEvent (e : OutEvent) (s t : State) : Prop :=
  t.oValid = true ∧ t.oData = e.data ∧ t.oSilence = e.silence ∧ t.oLast = e.last ∧ t.trace = s.trace ++ [e]

/-- What every `rstep` does and leaves beside the command or the streaming: catch-up counts what it drops, the crossings run,
and the write domain, the storage, the configuration and the coming edges are unchanged (41_consumer R220). -/
abbrev RstepFrame (s t : State) : Prop :=
  t.dropCount = s.dropCount + BitVec.ofNat 32 s.toDrop ∧ Crosses s t ∧ SameWriteDomain s t ∧ SameStorage s t ∧
  SameEnvironment s t

/-- A streaming step, by what is left to emit: a real sample from the cursor after catch-up (41_consumer R232), or a silence
sample (R233). -/
abbrev StreamsOne (s t : State) : Prop :=
  (0 < s.nReal →
    EmitsEvent ⟨memRead s.mem (slot s.cfg s.caughtUp), false, decide (s.nReal = 1 ∧ s.nZero = 0)⟩ s t ∧
    t.R = addP s.cfg s.caughtUp 1 ∧ t.nReal = s.nReal - 1 ∧ t.nZero = s.nZero) ∧
  (s.nReal = 0 →
    EmitsEvent ⟨0, true, decide (s.nZero = 1)⟩ s t ∧ t.R = s.caughtUp ∧ t.nReal = 0 ∧ t.nZero = s.nZero - 1) ∧
  t.starved = s.starved ∧ t.underrunCount = s.underrunCount ∧ t.ovf = (s.ovf || decide (0 < s.toDrop)) ∧ RstepFrame s t

/-! ### Encodings -/

/-- The words with `p_valid` and `p_eob` as given decode to the transaction their data selects, whatever the data (30_encoding
R145, R147). -/
abbrev ProducerCode (k : Config) (valid eob : Bool) (i : Byte → Instr) : Prop :=
  ∀ d, decode k (.producer (producerWord valid eob d)) = .ok (i d)

/-- The words with `c_valid = 1` and `c_cmd` as given decode to the command their count selects, whatever the count (30_encoding
R146, R147). -/
abbrev ConsumerCode (k : Config) (cmd : Nat) (i : Nat → Instr) : Prop :=
  ∀ n < 2 ^ k.pw, decode k (.consumer (commandWord k.pw cmd n)) = .ok (i n)

/-! ### The handshake -/

/-- How many neighbours differ in a list of toggles. -/
def toggles : List Bool → Nat
  | a :: b :: rest => (if a = b then 0 else 1) + toggles (b :: rest)
  | _ => 0

/-- The handshake's order: along `req_r`, `req_s1`, `req_s2`, `ack_w`, `ack_s1`, `ack_s2` at most one toggle is under way
(42_cdc R284, R285). -/
abbrev State.HandshakeInOrder (s : State) : Prop :=
  toggles [s.reqR, s.reqS1, s.reqS2, s.ackW, s.ackS1, s.ackS2] ≤ 1

/-! ### Unbounded counts and the environment conditions -/

/-- The unbounded counts of a run (42_cdc R282, R287, R289): what the cursors and their copies would hold without the
modulus, the samples written since the last `rstep`, every sample written, and the numbers of the real samples emitted and how
many were dropped. They are no state of the block. -/
structure Counts where
  w : Nat
  r : Nat
  ws1 : Nat
  ws2 : Nat
  rHold : Nat
  rW : Nat
  sinceR : Nat
  written : List Sample
  emitted : List Nat
  dropped : Nat
  deriving DecidableEq, Repr

/-- The counts right after reset. -/
def Counts.zero : Counts where
  w := 0
  r := 0
  ws1 := 0
  ws2 := 0
  rHold := 0
  rW := 0
  sinceR := 0
  written := []
  emitted := []
  dropped := 0

/-- Whether a producer word completes a sample in state `s` (40_producer R182, R183). -/
def completesSample (s : State) (w : BitVec 10) : Bool := pValid w && s.loPending

/-- The unbounded read cursor after this `rstep`'s catch-up (41_consumer R222). -/
def Counts.r1 (k : Config) (g : Counts) : Nat := g.r + (g.ws2 - g.r - k.c)

/-- Whether this `rstep` is a real-sample step (41_consumer R232). -/
def realStep (s : State) : Bool := !s.cReady && decide (0 < s.nReal)

/-- The counts after one edge performed in state `s`. -/
def Counts.after (s : State) (e : Edge) (g : Counts) : Counts :=
  match e with
  | .reset => Counts.zero
  | .port (.producer w) =>
    { g with
      w := if completesSample s w then g.w + 1 else g.w
      sinceR := if completesSample s w then g.sinceR + 1 else g.sinceR
      written := if completesSample s w then g.written ++ [sampleOf (pData w) s.loByte] else g.written
      rW := if s.reqS2 != s.ackW then g.rHold else g.rW }
  | .port (.consumer _) =>
    { g with
      r := if realStep s then g.r1 s.cfg + 1 else g.r1 s.cfg
      emitted := if realStep s then g.emitted ++ [g.r1 s.cfg] else g.emitted
      dropped := g.dropped + (g.r1 s.cfg - g.r)
      ws2 := g.ws1
      ws1 := g.w
      rHold := if s.ackS2 == s.reqR then g.r else g.rHold
      sinceR := 0 }

/-- Whether an edge is an `rstep`. -/
def isRstep : Edge → Bool
  | .port (.consumer _) => true
  | .port (.producer _) => false
  | .reset => false

/-- ENV-RATE at one edge: after it, at most `C - 1` samples have been written since the last `rstep` (42_cdc R288). A stopped
`rclk` with `C` or more samples arriving violates it (60_exceptions R373). -/
abbrev EnvRate (s : State) (g : Counts) (e : Edge) : Prop := (g.after s e).sinceR ≤ s.cfg.c - 1

/-- ENV-WSTAT: the true distance `W - R_w` is at most `2C - 1` (42_cdc R291). -/
abbrev EnvWstat (s : State) (g : Counts) : Prop := g.w - g.rW ≤ 2 * s.cfg.c - 1

/-- ENV-NOLAP at one edge: at a real-sample step, `W - R1 <= C` (70_reset_and_hazards R413). -/
abbrev EnvNoLap (s : State) (g : Counts) (e : Edge) : Prop :=
  isRstep e = true → realStep s = true → g.w - g.r1 s.cfg ≤ s.cfg.c

/-- The states and counts along a list of edges: where they stand after it. -/
def follow : List Edge → State → Counts → State × Counts
  | [], s, g => (s, g)
  | e :: es, s, g =>
    match step (withEdges [e] s) with
    | .next t => follow es t (g.after s e)
    | .fault _ => (s, g)
    | .refused _ => (s, g)

/-- ENV-RATE along a list of edges: at no point have more than `C - 1` samples been written since the last `rstep`
(42_cdc R288). -/
def EnvRateAlong (es : List Edge) (s : State) (g : Counts) : Prop :=
  ∀ n, (follow (es.take n) s g).2.sinceR ≤ s.cfg.c - 1

/-- ENV-WSTAT along a list of edges (42_cdc R291). -/
def EnvWstatAlong (es : List Edge) (s : State) (g : Counts) : Prop :=
  ∀ n, EnvWstat s (follow (es.take n) s g).2

/-- The state holds the counts modulo `2^PW`, and the counts are in the order and within the bounds of 42_cdc R287 and R289:
`R_w <= R <= Ws <= W`, ENV-RATE not violated since the last `rstep`, the count `Ws - R` below `2^PW`, streaming covered, every
advance of `R` accounted for, and each slot of the storage holding the newest sample written to it. -/
abbrev Tracks (s : State) (g : Counts) : Prop :=
  s.Wf ∧
  s.W = g.w % 2 ^ s.cfg.pw ∧ s.R = g.r % 2 ^ s.cfg.pw ∧ s.ws1 = bin2gray (g.ws1 % 2 ^ s.cfg.pw) ∧
  s.ws2 = bin2gray (g.ws2 % 2 ^ s.cfg.pw) ∧ s.Rhold = g.rHold % 2 ^ s.cfg.pw ∧ s.Rw = g.rW % 2 ^ s.cfg.pw ∧
  g.rW ≤ g.rHold ∧ g.rHold ≤ g.r ∧ g.r ≤ g.ws2 ∧ g.ws2 ≤ g.ws1 ∧ g.w = g.ws1 + g.sinceR ∧
  g.sinceR ≤ s.cfg.c - 1 ∧
  g.ws1 - g.ws2 ≤ s.cfg.c - 1 ∧ g.ws2 - g.r ≤ 2 * s.cfg.c - 1 ∧ s.nReal ≤ g.ws2 - g.r ∧
  g.r = g.emitted.length + g.dropped ∧ s.dropCount = BitVec.ofNat 32 g.dropped ∧
  (s.trace.filter fun e => !e.silence).length = g.emitted.length ∧
  g.written.length = g.w ∧ (∀ n < g.w, g.w ≤ n + s.cfg.c → memRead s.mem (n % s.cfg.c) = g.written.getD n 0)

/-- Drop-oldest correctness so far (42_cdc R290): the real samples emitted are the written samples with the emitted numbers,
and those numbers rise and are below the read cursor, so each written sample is emitted at most once and in write order. -/
abbrev EmittedInOrder (s : State) (g : Counts) : Prop :=
  g.emitted.Pairwise (· < ·) ∧ (∀ n ∈ g.emitted, n < g.r) ∧
    (s.trace.filter fun e => !e.silence).map OutEvent.data = g.emitted.map fun n => g.written.getD n 0

/-! ### Clocks and pacing (70_reset_and_hazards R410, R411) -/

/-- The bound `floor(f_wclk_max / f_rclk_min) + 1` on the number of `wclk` edges between two consecutive `rclk` edges (R410). -/
def edgeRatioBound (w r : Clock) : Nat := w.fastest / r.slowest + 1

/-- The sufficient clock condition for ENV-RATE: `m <= 2C - 2` (R410). -/
def rateClockCondition (k : Config) (m : Nat) : Prop := m ≤ 2 * k.c - 2

/-- The sufficient clock condition for ENV-WSTAT: `k = ceil(m / 2)` satisfies `6k + 4 <= C` (R410, 42_cdc R292). -/
def statusClockCondition (k : Config) (m : Nat) : Prop := 6 * ((m + 1) / 2) + 4 ≤ k.c

/-- The clocks a configuration fixes meet the sufficient condition for ENV-RATE (R410). -/
def clocksMeetEnvRate (k : Config) : Prop :=
  ∀ w ∈ k.wclk, ∀ r ∈ k.rclk, 0 < r.slowest ∧ rateClockCondition k (edgeRatioBound w r)

/-- The clocks a configuration fixes meet the sufficient condition for ENV-WSTAT (R410). -/
def clocksMeetEnvWstat (k : Config) : Prop :=
  ∀ w ∈ k.wclk, ∀ r ∈ k.rclk, 0 < r.slowest ∧ statusClockCondition k (edgeRatioBound w r)

/-- An `rclk` of this frequency paces the host: `T_SVC * f_rclk >= F + 1` (R411). -/
def pacesHost (k : Config) (hertz : Nat) : Prop := (k.f + 1) * k.tSvc.den ≤ k.tSvc.num * hertz

/-- The `rclk` a configuration fixes paces its host, even at its slowest (R411). -/
def rclkPacesHost (k : Config) : Prop := ∀ r ∈ k.rclk, pacesHost k r.slowest

/-- At most `m` `wstep`s between any two consecutive `rstep`s, `n` of them so far (R410). -/
def wstepsBetween (m : Nat) : Nat → List PortWord → Bool
  | _, [] => true
  | n, .producer _ :: rest => decide (n + 1 ≤ m) && wstepsBetween m (n + 1) rest
  | _, .consumer _ :: rest => wstepsBetween m 0 rest

/-- At most `m` bytes presented between any two consecutive `rstep`s, `n` of them so far: transport pacing (R410). -/
def bytesBetween (m : Nat) : Nat → List PortWord → Bool
  | _, [] => true
  | n, .producer w :: rest =>
    if pValid w then decide (n + 1 ≤ m) && bytesBetween m (n + 1) rest else bytesBetween m n rest
  | _, .consumer _ :: rest => bytesBetween m 0 rest

/-- At most `m` sample writes between any two consecutive `rstep`s, from the given `lo_pending`, `n` of them so far (42_cdc R288,
R292). -/
def writesBetween (m : Nat) : Bool → Nat → List PortWord → Bool
  | _, _, [] => true
  | lo, n, .producer w :: rest =>
    if pValid w && lo then decide (n + 1 ≤ m) && writesBetween m false (n + 1) rest
    else writesBetween m (if pEob w then false else pValid w || lo) n rest
  | lo, _, .consumer _ :: rest => writesBetween m lo 0 rest

/-! ### Bursts and settled schedules -/

/-- The payload bytes a list of transactions presents, in order. -/
def bytesOf : List Instr → List Byte
  | [] => []
  | .byte d :: rest => d :: bytesOf rest
  | .bytel d :: rest => d :: bytesOf rest
  | _ :: rest => bytesOf rest

/-- No byte and no end of burst is presented. -/
def quiet : List Instr → Bool
  | [] => true
  | .byte _ :: _ => false
  | .bytel _ :: _ => false
  | .eob :: _ => false
  | _ :: rest => quiet rest

/-- Exactly one end of burst is presented, and no byte after it: from the start of a burst, the list is that burst with any
`PNOP`s and consumer words inside it and after it (40_producer R190). -/
def oneBurst : List Instr → Bool
  | [] => false
  | .bytel _ :: rest => quiet rest
  | .eob :: rest => quiet rest
  | _ :: rest => oneBurst rest

/-- The number of samples a list of producer words writes, from the given `lo_pending` (40_producer R182 to R184). -/
def samplesIn : Bool → List (BitVec 10) → Nat
  | _, [] => 0
  | lo, w :: rest =>
    (if pValid w && lo then 1 else 0) + samplesIn (if pEob w then false else if pValid w then !lo else lo) rest

/-- The producer words among a list of port words, in order. -/
def producerWords : List PortWord → List (BitVec 10)
  | [] => []
  | .producer w :: rest => w :: producerWords rest
  | .consumer _ :: rest => producerWords rest

/-- ENV-RATE over a list of transactions, from the given `lo_pending` and number of samples written since the last `rstep`:
never more than `C - 1` samples between two `rstep`s (42_cdc R288). -/
def rateOver (c : Nat) : Bool → Nat → List Instr → Bool
  | _, _, [] => true
  | lo, n, .byte _ :: rest =>
    if lo then decide (n + 1 ≤ c - 1) && rateOver c false (n + 1) rest else rateOver c true n rest
  | lo, n, .bytel _ :: rest =>
    if lo then decide (n + 1 ≤ c - 1) && rateOver c false (n + 1) rest else rateOver c false n rest
  | _, n, .eob :: rest => rateOver c false n rest
  | lo, n, .pnop :: rest => rateOver c lo n rest
  | lo, _, _ :: rest => rateOver c lo 0 rest

/-! ### Settled schedules (43_reference_model R329) -/

/-- What a run is watched for, beside its states: the bytes of the burst in progress, the samples written since the last
`rstep`, how many `rstep`s have occurred since the last sample write (`none` before the first), and the reference calls so far,
ordered by when each burst ends and each command is accepted (R330). It is no state of the block. -/
structure Watch where
  burst : List Byte
  writes : Nat
  sinceWrite : Option Nat
  calls : List RefCall
  deriving DecidableEq, Repr

/-- What is watched right after reset. -/
def Watch.start : Watch where
  burst := []
  writes := 0
  sinceWrite := none
  calls := []

/-- Whether a transaction writes a sample in state `s` (40_producer R182, R183). -/
def writesSample (s : State) : Instr → Bool
  | .pnop => false
  | .byte _ => s.loPending
  | .bytel _ => s.loPending
  | .eob => false
  | .cnop => false
  | .pull => false
  | .read _ => false
  | .clrs => false
  | .rsvd => false

/-- The reference calls of a command: one for `PULL` and one for `READ n` (R330). -/
def callsOf : Instr → List RefCall
  | .pnop => []
  | .byte _ => []
  | .bytel _ => []
  | .eob => []
  | .cnop => []
  | .pull => [.pull]
  | .read n => [.read n]
  | .clrs => []
  | .rsvd => []

/-- Whether a transaction is a command, a consumer word with `c_valid = 1` (41_consumer R224). -/
def isCommand : Instr → Bool
  | .pnop => false
  | .byte _ => false
  | .bytel _ => false
  | .eob => false
  | .cnop => false
  | .pull => true
  | .read _ => true
  | .clrs => true
  | .rsvd => true

/-- A byte that does not end the burst, as it is watched. -/
def Watch.takeByte (s : State) (d : Byte) (v : Watch) : Watch :=
  { v with
    burst := v.burst ++ [d]
    writes := if s.loPending then v.writes + 1 else v.writes
    sinceWrite := if s.loPending then some 0 else v.sinceWrite }

/-- The end of a burst, as it is watched: it is one `on_burst` call of the burst's bytes (R330). -/
def Watch.endBurst (v : Watch) : Watch := { v with burst := [], calls := v.calls ++ [.burst v.burst] }

/-- An `rstep`, as it is watched: an accepted `PULL` or `READ` is one call (R330). -/
def Watch.rstep (s : State) (i : Instr) (v : Watch) : Watch :=
  { v with
    writes := 0
    sinceWrite := v.sinceWrite.map (· + 1)
    calls := if s.cReady then v.calls ++ callsOf i else v.calls }

/-- What is watched after a transaction performed in state `s`. -/
def Watch.after (s : State) (i : Instr) (v : Watch) : Watch :=
  match i with
  | .pnop => v
  | .byte d => v.takeByte s d
  | .bytel d => (v.takeByte s d).endBurst
  | .eob => v.endBurst
  | .cnop => v.rstep s .cnop
  | .pull => v.rstep s .pull
  | .read n => v.rstep s (.read n)
  | .clrs => v.rstep s .clrs
  | .rsvd => v.rstep s .rsvd

/-- The state and what is watched after a list of transactions. -/
def watch : List Instr → State → Watch → State × Watch
  | [], s, v => (s, v)
  | i :: is, s, v =>
    match exec i s with
    | .next t => watch is t (v.after s i)
    | .fault _ => (s, v)
    | .refused _ => (s, v)

/-- S1, ENV-RATE: a sample write leaves at most `C - 1` written since the last `rstep` (R329). -/
def meetsS1 (s : State) (v : Watch) (i : Instr) : Bool := !writesSample s i || decide (v.writes + 1 ≤ s.cfg.c - 1)

/-- S2: no sample write occurs while a command streams (R329). -/
def meetsS2 (s : State) (i : Instr) : Bool := !writesSample s i || s.cReady

/-- S3: at an acceptance of a `PULL` or `READ`, at least two `rstep`s have occurred since the last sample write (R329; log 29). -/
def meetsS3 (s : State) (v : Watch) (i : Instr) : Bool :=
  !s.cReady || callsOf i == [] || v.sinceWrite.all (fun n => decide (2 ≤ n))

/-- S4: when a command is accepted, no burst is in progress (R329; log 29). -/
def meetsS4 (s : State) (v : Watch) (i : Instr) : Bool := !s.cReady || !isCommand i || v.burst == []

/-- Every transaction of the list meets S1 to S4 where it is performed. -/
def settledFrom : List Instr → State → Watch → Bool
  | [], _, _ => true
  | i :: is, s, v =>
    meetsS1 s v i && meetsS2 s i && meetsS3 s v i && meetsS4 s v i &&
      match exec i s with
      | .next t => settledFrom is t (v.after s i)
      | .fault _ => false
      | .refused _ => false

/-- A settled schedule: a run from reset that meets S1 to S4 (R329), as the transactions it presents. -/
def SettledSchedule (k : Config) (is : List Instr) : Prop :=
  k.isQsf = true ∧ (∀ i ∈ is, i.wf k = true) ∧ settledFrom is (State.resetOf k) Watch.start = true

/-- A run, finite or infinite, is settled when the transactions of each of its beginnings are a settled schedule (R9, R329). -/
def SettledRun (k : Config) (ρ : Run) : Prop :=
  ∀ n, ∃ is, (ρ.first n).map (decode k) = is.map Except.ok ∧ SettledSchedule k is

/-- A settled point: `c_ready = 1`, `lo_pending = 0`, and at least three `rstep`s since the last sample write (R329). -/
abbrev SettledPoint (s : State) (v : Watch) : Prop :=
  s.cReady = true ∧ s.loPending = false ∧ v.sinceWrite.all (fun n => decide (3 ≤ n)) = true

/-- Storing a list of samples at consecutive cursor values from `p` on. -/
def storeAll (k : Config) (m : Memory) (p : Nat) : List Sample → Memory
  | [] => m
  | v :: rest => storeAll k (memWrite m (slot k p) v) (addP k p 1) rest

/-- The values and tags of output events, for comparison with a reference call (43_reference_model R330). -/
def tagged (es : List OutEvent) : List RefSample := es.map fun e => ⟨e.data, e.silence⟩

end Sys2Proof.Machine
end

