-- ==== Sys2Proof/Certificates/Slice0/Obligations.lean ====
section
/-! DEFINITION. The statements for the provers. Each docstring names the rule of spec/ a statement formalises; a statement
that rests on a choice of the model names its log entry. -/

open Sys2Proof Sys2Proof.Machine

/-! ### Encoding -/

/-- 30_encoding R152: the worked encodings of the reference configuration decode to their transactions. -/
def Obligations.WorkedEncodingsDecode : Prop :=
  decode Config.reference (.producer 0x000) = .ok .pnop ∧ decode Config.reference (.producer 0x264) = .ok (.byte 0x64) ∧
  decode Config.reference (.producer 0x200) = .ok (.byte 0x00) ∧ decode Config.reference (.producer 0x300) = .ok (.bytel 0x00) ∧
  decode Config.reference (.producer 0x3AB) = .ok (.bytel 0xAB) ∧ decode Config.reference (.producer 0x100) = .ok .eob ∧
  decode Config.reference (.consumer 0x0000) = .ok .cnop ∧ decode Config.reference (.consumer 0x8000) = .ok .pull ∧
  decode Config.reference (.consumer 0xA005) = .ok (.read 5) ∧ decode Config.reference (.consumer 0xBFFF) = .ok (.read 8191) ∧
  decode Config.reference (.consumer 0xC000) = .ok .clrs ∧ decode Config.reference (.consumer 0xE000) = .ok .rsvd

/-- 30_encoding R141, R142, R145, R146: in every configuration, the decoder gives back every well-formed transaction from the
word the encoder writes for it. -/
def Obligations.DecodeGivesBackEncode : Prop :=
  ∀ (k : Config) (i : Instr), i.wf k = true → decode k (encode k i) = .ok i

/-- 30_encoding R145, R146, R147: every word of either port decodes to the row its fields select, whatever its don't-care
fields hold; a consumer word is `c_valid * 2^(PW+2) + c_cmd * 2^PW + c_count`, and every word below `2^(PW+3)` is of that
form. -/
def Obligations.EveryWordDecodesByItsFields : Prop :=
  (∀ (k : Config) (valid eob : Bool) (data : Byte),
    decode k (.producer (producerWord valid eob data)) =
      .ok (if valid then (if eob then .bytel data else .byte data) else (if eob then .eob else .pnop))) ∧
  (∀ w : BitVec 10, ∃ valid eob data, w = producerWord valid eob data) ∧
  (∀ (k : Config) (cmd n : Nat), cmd < 4 → n < 2 ^ k.pw →
    decode k (.consumer (cmd * 2 ^ k.pw + n)) = .ok .cnop ∧
    decode k (.consumer (2 ^ (k.pw + 2) + cmd * 2 ^ k.pw + n)) =
      .ok (if cmd = 0 then .pull else if cmd = 1 then .read n else if cmd = 2 then .clrs else .rsvd)) ∧
  (∀ (k : Config) (w : Nat), w < 2 ^ (k.pw + 3) → ∃ valid cmd n : Nat, valid < 2 ∧ cmd < 4 ∧ n < 2 ^ k.pw ∧
    w = valid * 2 ^ (k.pw + 2) + cmd * 2 ^ k.pw + n)

/-! ### The step -/

/-- 00_scope R8, 30_encoding R143: when the next edge presents a word that decodes to `i`, the step is `exec` of `i` at the
state with that edge taken. -/
def Obligations.StepRunsThePresentedTransaction : Prop :=
  ∀ (s : State) (w : PortWord) (es : List Edge) (i : Instr),
    s.edges = .port w :: es → decode s.cfg w = .ok i → step s = exec i { s with edges := es }

/-- The model's choices (log 5, log 14, log 8 and log 11): with no edge presented a QSF keeps its state; a value that does not fit
the consumer port's `3 + PW` wires is refused by name; a reset edge leaves the edges behind it and starts the trace anew. -/
def Obligations.StepWithoutAPortWord : Prop :=
  (∀ s : State, s.cfg.isQsf = true → s.edges = [] → step s = .next s) ∧
  (∀ (s : State) (w : Nat) (es : List Edge), s.edges = .port (.consumer w) :: es → 2 ^ (s.cfg.pw + 3) ≤ w →
    step s = .refused .notAPortWord) ∧
  (∀ (s : State) (es : List Edge), s.cfg.isQsf = true → s.edges = .reset :: es →
    ∃ t, step s = .next t ∧ t.edges = es ∧ t.trace = [])

/-- 00_scope R6: a configuration with `C` not a power of two, `F > C`, `F = 0` or `PW != AW + 1` is refused: no transaction
has a meaning for it, and a step refuses. -/
def Obligations.RefusedConfigurationsHaveNoMeaning : Prop :=
  ∀ s : State, (∀ n, s.cfg.c ≠ 2 ^ n) ∨ s.cfg.c < s.cfg.f ∨ s.cfg.f = 0 ∨ s.cfg.pw ≠ s.cfg.aw + 1 →
    (∀ i, exec i s = .refused .notAQsf) ∧ ∃ r, step s = .refused r

/-- 00_scope R13, 60_exceptions R360: every step of a QSF on edges that are words of their ports has a next state, for every
state, and so does every transaction. -/
def Obligations.EveryStepIsTotal : Prop :=
  ∀ s : State, s.cfg.isQsf = true →
    (∀ i, ∃ t, exec i s = .next t) ∧ ((∀ e ∈ s.edges, e.wf s.cfg = true) → ∃ t, step s = .next t)

/-! ### Reset -/

/-- 70_reset_and_hazards R400: a reset edge sets every register of both domains, every entry of `mem` and the output port to
its reset value, from any state, and leaves the configuration. -/
def Obligations.ResetSetsEveryRegister : Prop :=
  ∀ (s : State) (es : List Edge), s.cfg.isQsf = true → s.edges = .reset :: es →
    ∃ t, step s = .next t ∧ t.cfg = s.cfg ∧
      (∀ a, readByte t.mem a = 0) ∧ (∀ n < s.cfg.c, memRead t.mem n = 0) ∧
      t.W = 0 ∧ t.Wg = 0 ∧ t.loPending = false ∧ t.loByte = 0 ∧ t.burstCount = 0 ∧
      t.reqS1 = false ∧ t.reqS2 = false ∧ t.ackW = false ∧ t.Rw = 0 ∧
      t.R = 0 ∧ t.ws1 = 0 ∧ t.ws2 = 0 ∧ t.reqR = false ∧ t.Rhold = 0 ∧ t.ackS1 = false ∧ t.ackS2 = false ∧
      t.nReal = 0 ∧ t.nZero = 0 ∧ t.starved = true ∧ t.ovf = false ∧ t.underrunCount = 0 ∧ t.dropCount = 0 ∧
      t.oValid = false ∧ t.oData = 0 ∧ t.oSilence = false ∧ t.oLast = false

/-- 70_reset_and_hazards R402: what the ports show right after reset, in every QSF; the first `rstep` sends a request carrying
`R = 0`, and the first byte is a low byte. -/
def Obligations.StatusAfterReset : Prop :=
  ∀ (k : Config), k.isQsf = true →
    (State.resetOf k).cReady = true ∧ (State.resetOf k).rAvail = 0 ∧ (State.resetOf k).wFill = 0 ∧
    (State.resetOf k).wFull = false ∧ (State.resetOf k).rStarved = true ∧ (State.resetOf k).rOvf = false ∧
    (State.resetOf k).wBurstCount = 0 ∧ (State.resetOf k).rUnderrunCount = 0 ∧ (State.resetOf k).rDropCount = 0 ∧
    (State.resetOf k).reqR = false ∧ (State.resetOf k).ackW = false ∧
    (∀ i, i.port = .consumer → ∃ t, exec i (State.resetOf k) = .next t ∧ t.reqR = true ∧ t.Rhold = 0) ∧
    (∀ d, ∃ t, exec (.byte d) (State.resetOf k) = .next t ∧ t.loPending = true ∧ t.loByte = d ∧ t.W = 0) ∧
    (∀ d, ∃ t, exec (.bytel d) (State.resetOf k) = .next t ∧ t.loByte = d ∧ t.W = 0)

/-- The reset state of every QSF meets each invariant stated below, stands at a settled point and maps to the reference
model's creation (42_cdc R296, 43_reference_model R321, R328). -/
def Obligations.ResetMeetsTheInvariants : Prop :=
  ∀ k : Config, k.isQsf = true →
    (State.resetOf k).Wf ∧ (State.resetOf k).HandshakeInOrder ∧ Tracks (State.resetOf k) Counts.zero ∧
    EmittedInOrder (State.resetOf k) Counts.zero ∧ (State.resetOf k).Settled ∧
    Abstracts (State.resetOf k) (RefState.create k.c k.f)

/-! ### The producer port -/

/-- 40_producer R181: `PNOP` runs the handshake receiver and changes nothing else. -/
def Obligations.PnopOnlyReceivesTheHandshake : Prop :=
  ∀ s : State, s.cfg.isQsf = true →
    ProducerCode s.cfg false false (fun _ => .pnop) ∧
    ∃ t, exec .pnop s = .next t ∧ ReceivesHandshake s t ∧ t.W = s.W ∧ t.Wg = s.Wg ∧ t.loPending = s.loPending ∧
      t.loByte = s.loByte ∧ t.burstCount = s.burstCount ∧ SameReadDomain s t ∧ SameStorage s t ∧ SameEnvironment s t

/-- 40_producer R182, with R185: `BYTE d` keeps `d` as the low byte when none is pending; otherwise it writes the sample
`{d, lo_byte}` at `slot(W)` and advances `W` and its Gray code in the same step, whether or not the slot's sample was read. -/
def Obligations.ByteStartsOrCompletesASample : Prop :=
  ∀ (s : State) (d : Byte), s.cfg.isQsf = true →
    ProducerCode s.cfg true false .byte ∧
    (s.loPending = false → ∃ t, exec (.byte d) s = .next t ∧ t.loByte = d ∧ t.loPending = true ∧ t.W = s.W ∧ t.Wg = s.Wg ∧
      t.burstCount = s.burstCount ∧ ReceivesHandshake s t ∧ SameReadDomain s t ∧ SameStorage s t ∧ SameEnvironment s t) ∧
    (s.loPending = true → ∃ t, exec (.byte d) s = .next t ∧ t.loByte = s.loByte ∧ t.loPending = false ∧
      t.W = addP s.cfg s.W 1 ∧ t.Wg = bin2gray (addP s.cfg s.W 1) ∧
      (Memory.wf s.mem = true → memRead t.mem (slot s.cfg s.W) = d ++ s.loByte) ∧
      SameStorageButSlot (slot s.cfg s.W) s t ∧ t.burstCount = s.burstCount ∧ ReceivesHandshake s t ∧
      SameReadDomain s t ∧ SameEnvironment s t)

/-- 40_producer R183: `BYTEL d` completes a pending sample, or is discarded as the trailing byte of an odd-length burst
(`lo_byte` still takes it); either way the burst ends and is counted. -/
def Obligations.BytelEndsTheBurst : Prop :=
  ∀ (s : State) (d : Byte), s.cfg.isQsf = true →
    ProducerCode s.cfg true true .bytel ∧
    (s.loPending = false → ∃ t, exec (.bytel d) s = .next t ∧ t.loByte = d ∧ t.loPending = false ∧ t.W = s.W ∧ t.Wg = s.Wg ∧
      t.burstCount = s.burstCount + 1 ∧ ReceivesHandshake s t ∧ SameReadDomain s t ∧ SameStorage s t ∧ SameEnvironment s t) ∧
    (s.loPending = true → ∃ t, exec (.bytel d) s = .next t ∧ t.loByte = s.loByte ∧ t.loPending = false ∧
      t.W = addP s.cfg s.W 1 ∧ t.Wg = bin2gray (addP s.cfg s.W 1) ∧
      (Memory.wf s.mem = true → memRead t.mem (slot s.cfg s.W) = d ++ s.loByte) ∧
      SameStorageButSlot (slot s.cfg s.W) s t ∧ t.burstCount = s.burstCount + 1 ∧ ReceivesHandshake s t ∧
      SameReadDomain s t ∧ SameEnvironment s t)

/-- 40_producer R184, with R189: `EOB` ends the burst with no byte: a pending low byte is discarded, the burst is counted. -/
def Obligations.EobEndsTheBurst : Prop :=
  ∀ s : State, s.cfg.isQsf = true →
    ProducerCode s.cfg false true (fun _ => .eob) ∧
    ∃ t, exec .eob s = .next t ∧ t.loPending = false ∧ t.burstCount = s.burstCount + 1 ∧ t.loByte = s.loByte ∧ t.W = s.W ∧
      t.Wg = s.Wg ∧ ReceivesHandshake s t ∧ SameReadDomain s t ∧ SameStorage s t ∧ SameEnvironment s t

/-- 40_producer R191, with R188 and R189: one burst, presented from `lo_pending = 0` with any `PNOP`s and any consumer words
interleaved, writes exactly the `floor(L/2)` samples `{b[2i+1], b[2i]}` in order at consecutive cursor values, leaves
`lo_pending = 0` and counts one burst. -/
def Obligations.BurstWritesItsSamplesInOrder : Prop :=
  ∀ (s : State) (is : List Instr), s.cfg.isQsf = true → s.loPending = false → s.W < 2 ^ s.cfg.pw →
    (∀ i ∈ is, i.wf s.cfg = true) → oneBurst is = true →
    ∃ t, play (schedule s.cfg is) s = .next t ∧ t.loPending = false ∧ t.burstCount = s.burstCount + 1 ∧
      t.W = addP s.cfg s.W ((bytesOf is).length / 2) ∧ t.mem = storeAll s.cfg s.mem s.W (samplesOf (bytesOf is)) ∧
      (samplesOf (bytesOf is)).length = (bytesOf is).length / 2 ∧
      ∀ n < (bytesOf is).length / 2, (samplesOf (bytesOf is))[n]? =
        ((bytesOf is)[2 * n + 1]?.bind fun high => (bytesOf is)[2 * n]?.map fun low => high ++ low)

/-- 40_producer R193, and the first condition of 70_reset_and_hazards R410: in any run with `m` `wstep`s, and any `rstep`s between
them, at most `ceil(m / 2)` samples are written, so at most `C - 1` when `m <= 2C - 2`. -/
def Obligations.AtMostOneSamplePerTwoWsteps : Prop :=
  ∀ (s : State) (ws : List PortWord), s.cfg.isQsf = true → s.W < 2 ^ s.cfg.pw → (∀ w ∈ ws, w.wf s.cfg = true) →
    (∃ t, play (ws.map .port) s = .next t ∧ t.W = addP s.cfg s.W (samplesIn s.loPending (producerWords ws))) ∧
    samplesIn s.loPending (producerWords ws) ≤ ((producerWords ws).length + 1) / 2 ∧
    (rateClockCondition s.cfg (producerWords ws).length → samplesIn s.loPending (producerWords ws) ≤ s.cfg.c - 1)

/-! ### The consumer port -/

/-- 41_consumer R223: the count after catch-up never exceeds `C`, and it is what `r_avail` shows before the step. -/
def Obligations.CountAfterCatchUpIsAvail : Prop :=
  ∀ s : State, (catchUp s).d1 = s.rAvail ∧ (catchUp s).d1 ≤ s.cfg.c

/-- 41_consumer R222: at every `rstep`, whatever the command or the streaming, catch-up skips the `d0 - C` oldest unread samples
when `d0 > C` (`R` moves to `Ws -P C` before anything else uses it, `drop_count` counts them, `ovf` is set), and changes
nothing when `d0 <= C`. -/
def Obligations.CatchUpDropsTheOldest : Prop :=
  ∀ (s : State) (i : Instr), s.cfg.isQsf = true → i.port = .consumer →
    ∃ t, exec i s = .next t ∧
      (s.cfg.c < subP s.cfg s.Ws s.R →
        t.R = (if 0 < s.nReal then addP s.cfg (subP s.cfg s.Ws s.cfg.c) 1 else subP s.cfg s.Ws s.cfg.c) ∧
        t.dropCount = s.dropCount + BitVec.ofNat 32 (subP s.cfg s.Ws s.R - s.cfg.c) ∧ t.ovf = true) ∧
      (subP s.cfg s.Ws s.R ≤ s.cfg.c →
        t.R = (if 0 < s.nReal then addP s.cfg s.R 1 else s.R) ∧ t.dropCount = s.dropCount ∧
        t.ovf = (if i = .clrs ∧ s.cReady = true then false else s.ovf))

/-- 41_consumer R225: `CNOP` at `c_ready = 1` emits nothing and changes nothing but catch-up, the synchroniser and the
handshake; at `c_ready = 0` one streaming step runs. -/
def Obligations.CnopPresentsNoCommand : Prop :=
  ∀ s : State, s.cfg.isQsf = true →
    (∀ w < 2 ^ (s.cfg.pw + 2), decode s.cfg (.consumer w) = .ok .cnop) ∧
    (s.cReady = true → ∃ t, exec .cnop s = .next t ∧ t.R = s.caughtUp ∧ t.ovf = (s.ovf || decide (0 < s.toDrop)) ∧
      t.nReal = 0 ∧ t.nZero = 0 ∧ t.starved = s.starved ∧ t.underrunCount = s.underrunCount ∧ EmitsNothing s t ∧
      RstepFrame s t) ∧
    (s.cReady = false → ∃ t, exec .cnop s = .next t ∧ StreamsOne s t)

/-- 41_consumer R226, R227, R228, R236, R237: an accepted `PULL` takes the FEEDING path when a whole frame is available and the
STARVED path otherwise; it emits nothing in the accepting step. -/
def Obligations.PullDecidesAllOrNothing : Prop :=
  ∀ s : State, s.cfg.isQsf = true → s.cReady = true →
    ConsumerCode s.cfg 0 (fun _ => .pull) ∧
    ∃ t, exec .pull s = .next t ∧
      (s.cfg.f ≤ s.rAvail → t.nReal = s.cfg.f ∧ t.nZero = 0 ∧ t.starved = false ∧ t.underrunCount = s.underrunCount) ∧
      (s.rAvail < s.cfg.f → t.nReal = 0 ∧ t.nZero = s.cfg.f ∧ t.starved = true ∧ t.underrunCount = s.underrunCount + 1 ∧
        s.toDrop = 0 ∧ t.R = s.R) ∧
      t.R = s.caughtUp ∧ t.ovf = (s.ovf || decide (0 < s.toDrop)) ∧ t.cReady = false ∧ EmitsNothing s t ∧ RstepFrame s t

/-- 41_consumer R229: an accepted `READ n` fixes its split at acceptance: the `min(n, d1)` oldest samples, then zeros. -/
def Obligations.ReadSplitsItsCount : Prop :=
  ∀ (s : State) (n : Nat), s.cfg.isQsf = true → s.cReady = true → n < 2 ^ s.cfg.pw →
    ConsumerCode s.cfg 1 .read ∧
    ∃ t, exec (.read n) s = .next t ∧ t.nReal = min n s.rAvail ∧ t.nZero = n - min n s.rAvail ∧ t.starved = s.starved ∧
      t.underrunCount = s.underrunCount ∧ t.R = s.caughtUp ∧ t.ovf = (s.ovf || decide (0 < s.toDrop)) ∧
      (t.cReady = true ↔ n = 0) ∧ EmitsNothing s t ∧ RstepFrame s t

/-- 41_consumer R230, 60_exceptions R363: an accepted `CLRS` clears `ovf`, unless the same step's catch-up dropped samples; it
clears no counter. -/
def Obligations.ClrsClearsUnlessDropping : Prop :=
  ∀ s : State, s.cfg.isQsf = true → s.cReady = true →
    ConsumerCode s.cfg 2 (fun _ => .clrs) ∧
    ∃ t, exec .clrs s = .next t ∧ t.ovf = decide (0 < s.toDrop) ∧ t.R = s.caughtUp ∧ t.nReal = 0 ∧ t.nZero = 0 ∧
      t.starved = s.starved ∧ t.underrunCount = s.underrunCount ∧ EmitsNothing s t ∧ RstepFrame s t

/-- 41_consumer R231: `RSVD` is accepted and has no effect: at `c_ready = 1` it does exactly what `CNOP` does, and `c_ready`
stays 1. -/
def Obligations.RsvdHasNoEffect : Prop :=
  ∀ s : State, s.cfg.isQsf = true → s.cReady = true →
    ConsumerCode s.cfg 3 (fun _ => .rsvd) ∧
    ∃ t, exec .rsvd s = .next t ∧ exec .cnop s = .next t ∧ t.cReady = true ∧ t.R = s.caughtUp ∧ t.ovf = (s.ovf || decide (0 < s.toDrop)) ∧
      t.nReal = 0 ∧ t.nZero = 0 ∧ t.starved = s.starved ∧ t.underrunCount = s.underrunCount ∧ EmitsNothing s t ∧ RstepFrame s t

/-- 41_consumer R232, R224: with real samples left, every consumer word is ignored and the step emits the sample at `slot(R1)`,
where `R1` is the cursor after catch-up; `last` marks the command's final sample. -/
def Obligations.RealStepEmitsTheSampleAtTheCursor : Prop :=
  ∀ (s : State) (i : Instr), s.cfg.isQsf = true → i.port = .consumer → 0 < s.nReal →
    ∃ t, exec i s = .next t ∧
      EmitsEvent ⟨memRead s.mem (slot s.cfg s.caughtUp), false, decide (s.nReal = 1 ∧ s.nZero = 0)⟩ s t ∧
      t.R = addP s.cfg s.caughtUp 1 ∧ t.nReal = s.nReal - 1 ∧ t.nZero = s.nZero ∧ t.starved = s.starved ∧
      t.underrunCount = s.underrunCount ∧ t.ovf = (s.ovf || decide (0 < s.toDrop)) ∧ RstepFrame s t

/-- 41_consumer R233, R234, R224: with only silence samples left, every consumer word is ignored and the step emits `0x0000` from
the silence source; `R` changes only by catch-up. -/
def Obligations.SilenceStepEmitsZero : Prop :=
  ∀ (s : State) (i : Instr), s.cfg.isQsf = true → i.port = .consumer → s.nReal = 0 → 0 < s.nZero →
    ∃ t, exec i s = .next t ∧ EmitsEvent ⟨0, true, decide (s.nZero = 1)⟩ s t ∧ t.R = s.caughtUp ∧ t.nReal = 0 ∧
      t.nZero = s.nZero - 1 ∧ t.starved = s.starved ∧ t.underrunCount = s.underrunCount ∧
      t.ovf = (s.ovf || decide (0 < s.toDrop)) ∧ RstepFrame s t

/-- 41_consumer R239: a command word presented while `c_ready = 0` is not accepted and has no effect: the step is the same
whatever word is presented. -/
def Obligations.BusyStepIgnoresTheWord : Prop :=
  ∀ (s : State) (i j : Instr), s.cReady = false → i.port = .consumer → j.port = .consumer → exec i s = exec j s

/-- 41_consumer R241, R242: an accepted command with `n` samples to emit (`F` for `PULL`, the count for `READ`, 0 otherwise)
occupies its accepting `rstep` and the next `n`: after `m <= n` of them, with any words presented and any `wstep`s between, it has
emitted `m` samples, `last` on the `n`th only, and `c_ready` is 1 again exactly when `m = n`. -/
def Obligations.CommandsOccupyTheirDuration : Prop :=
  ∀ (s : State) (i : Instr) (is : List Instr), s.cfg.isQsf = true → s.cReady = true → i.port = .consumer → i.wf s.cfg = true →
    (∀ j ∈ is, j.wf s.cfg = true) → is.countP onConsumer ≤ commandLength s.cfg i →
    ∃ t evs, play (schedule s.cfg (i :: is)) s = .next t ∧ t.trace = s.trace ++ evs ∧ evs.length = is.countP onConsumer ∧
      evs.map OutEvent.last = (List.range (is.countP onConsumer)).map (fun j => decide (j + 1 = commandLength s.cfg i)) ∧
      (t.cReady = true ↔ is.countP onConsumer = commandLength s.cfg i)

/-- 41_consumer R240, with R242: a `PULL` accepted at `c_ready = 1`, followed by exactly `F` `rstep`s with any words and any
`wstep`s between, emits exactly `F` samples, all real or all silence as the accepting step decided, `last` on the final one
only, and is then done. -/
def Obligations.PullEmitsOneWholeFrame : Prop :=
  ∀ (s : State) (is : List Instr), s.cfg.isQsf = true → s.cReady = true → (∀ i ∈ is, i.wf s.cfg = true) →
    is.countP onConsumer = s.cfg.f →
    ∃ t evs, play (schedule s.cfg (.pull :: is)) s = .next t ∧ t.trace = s.trace ++ evs ∧ evs.length = s.cfg.f ∧
      (∀ e ∈ evs, e.silence = decide (s.rAvail < s.cfg.f) ∧ (e.silence = true → e.data = 0)) ∧
      evs.map OutEvent.last = (List.range s.cfg.f).map (fun j => decide (j + 1 = s.cfg.f)) ∧ t.cReady = true

/-- 41_consumer R229, with R242: a `READ n` accepted at `c_ready = 1`, followed by exactly `n` `rstep`s with any words and any
`wstep`s between, emits exactly `n` samples: `min(n, d1)` real ones, then zeros, `last` on the final one only, and is then
done. -/
def Obligations.ReadEmitsExactlyItsCount : Prop :=
  ∀ (s : State) (n : Nat) (is : List Instr), s.cfg.isQsf = true → s.cReady = true → n < 2 ^ s.cfg.pw →
    (∀ i ∈ is, i.wf s.cfg = true) → is.countP onConsumer = n →
    ∃ t evs, play (schedule s.cfg (.read n :: is)) s = .next t ∧ t.trace = s.trace ++ evs ∧
      evs.map OutEvent.silence = List.replicate (min n s.rAvail) false ++ List.replicate (n - min n s.rAvail) true ∧
      (∀ e ∈ evs, e.silence = true → e.data = 0) ∧
      evs.map OutEvent.last = (List.range n).map (fun j => decide (j + 1 = n)) ∧ t.cReady = true

/-! ### The crossings -/

/-- 10_state R46, with 00_scope R11: no step writes a register of the other domain, and `mem` is written only by the write domain. -/
def Obligations.DomainsWriteOnlyTheirOwn : Prop :=
  ∀ (s t : State) (i : Instr), exec i s = .next t → SameEnvironment s t ∧
    (i.port = .producer → SameReadDomain s t) ∧ (i.port = .consumer → SameWriteDomain s t ∧ t.mem = s.mem)

/-- 10_state R47: of the write domain a `rstep` reads only `Wg`, `ack_w` and the storage; of the read domain a `wstep` reads only
`req_r` and `R_hold`. Two states that agree on those, on the configuration and on the stepping domain (and, for a `wstep`, on the
storage it writes) still agree on that domain after the step. -/
def Obligations.DomainsSeeOnlyTheCrossings : Prop :=
  (∀ (s u : State) (i : Instr), s.cfg.isQsf = true → i.port = .consumer → u.cfg = s.cfg → SameReadDomain s u → u.Wg = s.Wg →
    u.ackW = s.ackW → SameStorage s u → ∃ t v, exec i s = .next t ∧ exec i u = .next v ∧ SameReadDomain t v) ∧
  (∀ (s u : State) (i : Instr), s.cfg.isQsf = true → i.port = .producer → u.cfg = s.cfg → SameWriteDomain s u →
    u.reqR = s.reqR → u.Rhold = s.Rhold → u.mem = s.mem →
    ∃ t v, exec i s = .next t ∧ exec i u = .next v ∧ SameWriteDomain t v ∧ v.mem = t.mem)

/-- 10_state R48, R49, 40_producer R187, 41_consumer R238: `starved`, `ovf` and the three counters gate nothing: with any other
values in them, a transaction does the same to every other register, to the storage and to the output. -/
def Obligations.IndicationsGateNothing : Prop :=
  ∀ (s : State) (i : Instr) (starved ovf : Bool) (under drop burst : Counter), s.cfg.isQsf = true →
    ∃ t v, exec i s = .next t ∧ exec i (withIndications starved ovf under drop burst s) = .next v ∧
      v = withIndications v.starved v.ovf v.underrunCount v.dropCount v.burstCount t

/-- 00_scope R16: `gray2bin` is the inverse of `bin2gray` on `PW`-bit values, and the codes of `x` and `x +P 1` differ in
exactly one bit, the wrap included. -/
def Obligations.GrayCodeInvertsAndStepsOneBit : Prop :=
  ∀ (k : Config) (x : Nat), 1 ≤ k.pw → x < 2 ^ k.pw →
    gray2bin k.pw (bin2gray x) = x ∧ bin2gray (gray2bin k.pw x) = x ∧
    ∃ n < k.pw, bin2gray (addP k x 1) = bin2gray x ^^^ 2 ^ n

/-- 42_cdc R282, R281, R283: the `Ws` that a `rstep` uses is the value of `W` at the second `rstep` before it: two `rstep`s later,
with any `wstep`s between and after, `Ws` is the `W` of the first. -/
def Obligations.WriteCursorArrivesTwoRstepsLater : Prop :=
  ∀ (s : State) (i j : Instr) (ps qs : List Instr), s.Wf → i.port = .consumer → j.port = .consumer → i.wf s.cfg = true →
    j.wf s.cfg = true → ps.all onProducer = true → qs.all onProducer = true →
    ∃ t, play (schedule s.cfg (i :: ps ++ j :: qs)) s = .next t ∧ t.Ws = s.W

/-- 42_cdc R284, R285: along the handshake at most one toggle is under way, at every step. -/
def Obligations.HandshakeStaysInOrder : Prop :=
  ∀ s t : State, s.HandshakeInOrder → step s = .next t → t.HandshakeInOrder

/-- 42_cdc R285, bundle stability: `R_hold` is written only when the write domain has captured the previous copy and has not
seen the new toggle; and a capture reads the copy written at the toggle that `req_s2` carries, which no `rstep` is about to
replace. -/
def Obligations.HeldBundleIsStable : Prop :=
  ∀ s : State, s.cfg.isQsf = true → s.HandshakeInOrder →
    (∀ i t, i.port = .consumer → exec i s = .next t → t.Rhold ≠ s.Rhold ∨ t.reqR ≠ s.reqR →
      s.ackW = s.reqR ∧ s.reqS1 = s.reqR ∧ s.reqS2 = s.reqR) ∧
    (∀ i t, i.port = .producer → exec i s = .next t → s.reqS2 ≠ s.ackW →
      t.Rw = s.Rhold ∧ s.reqR = s.reqS2 ∧ s.ackS2 ≠ s.reqR)

/-- 42_cdc R286, first point: a request sent at a `rstep` is captured into `R_w` at the third `wstep` after it, and not before,
with any `rstep`s between. -/
def Obligations.RequestIsCapturedAtTheThirdWstep : Prop :=
  ∀ (s : State) (i : Instr) (is : List Instr), s.cfg.isQsf = true → s.HandshakeInOrder → s.ackS2 = s.reqR →
    i.port = .consumer → i.wf s.cfg = true → (∀ j ∈ is, j.wf s.cfg = true) →
    ∃ t, play (schedule s.cfg (i :: is)) s = .next t ∧
      (is.countP onProducer ≤ 2 → t.Rw = s.Rw) ∧ (is.countP onProducer = 3 → t.Rw = s.R ∧ t.ackW = !s.reqR)

/-- 42_cdc R286, second point, 30_encoding R151 (`SETTLE`) and 43_reference_model R330 point 3: from a settled point, eight or
more `LOCK` pairs of `PNOP` bring `R_w` to `R` from any phase of the handshake; then both domains' status outputs agree on what
is available. -/
def Obligations.EightLockPairsSettle : Prop :=
  ∀ (s : State) (n : Nat), s.Wf → s.HandshakeInOrder → s.Settled → 8 ≤ n →
    ∃ t, play (scriptEdges s.cfg (lockLines (widleLines n))) s = .next t ∧ t.Settled ∧ t.Rw = s.R ∧ t.R = s.R ∧ t.W = s.W ∧
      t.Ws = t.W ∧ t.trace = s.trace ∧ t.wFill = subP s.cfg s.W s.R ∧ t.rAvail = subP s.cfg s.W s.R ∧
      (t.wFull = true ↔ subP s.cfg s.W s.R = s.cfg.c)

/-! ### Invariants -/

/-- Every step of every run keeps the form of a state: cursors and counts within their widths, `Wg` the Gray code of `W`
(42_cdc R281), the storage canonical and within its slots, the output port as 10_state R58 says, every silence sample 0
(41_consumer R234). -/
def Obligations.StepKeepsTheForm : Prop :=
  ∀ s t : State, s.Wf → step s = .next t → t.Wf

/-- 42_cdc R287, R289, under ENV-RATE: every step keeps the cursors equal to their unbounded counts, in the order
`R_w <= R <= Ws <= W`, the unread count exact (below `2^PW`), streaming covered by published samples, and every advance of `R`
accounted for as an emitted or a dropped sample. -/
def Obligations.EnvRateKeepsTheCountsExact : Prop :=
  ∀ (s t : State) (g : Counts) (e : Edge) (es : List Edge), Tracks s g → s.edges = e :: es → EnvRate s g e →
    step s = .next t → Tracks t (g.after s e)

/-- 42_cdc R290, 70_reset_and_hazards R413, under ENV-RATE and ENV-NOLAP: every step keeps the real samples emitted a
subsequence of the written samples, in write order, each emitted at most once. -/
def Obligations.NoLapKeepsWriteOrder : Prop :=
  ∀ (s t : State) (g : Counts) (e : Edge) (es : List Edge), Tracks s g → EmittedInOrder s g → s.edges = e :: es →
    EnvRate s g e → EnvNoLap s g e → step s = .next t → EmittedInOrder t (g.after s e)

/-- 70_reset_and_hazards R413, 20_memory R111: under ENV-NOLAP a real-sample step emits the written sample numbered `R1`;
in any run under ENV-RATE it emits a written sample whose number is `R1` modulo `C`, and not older. -/
def Obligations.RealStepEmitsTheNumberedSample : Prop :=
  ∀ (s : State) (g : Counts) (i : Instr), Tracks s g → i.port = .consumer → 0 < s.nReal →
    ∃ t, exec i s = .next t ∧
      (g.w - g.r1 s.cfg ≤ s.cfg.c → t.oData = g.written.getD (g.r1 s.cfg) 0) ∧
      ∃ n, g.r1 s.cfg ≤ n ∧ n < g.w ∧ n % s.cfg.c = g.r1 s.cfg % s.cfg.c ∧ t.oData = g.written.getD n 0

/-- 42_cdc R291, R289 point 4: under ENV-WSTAT `W -P R_w` is the true distance, `w_fill` does not understate the unread
samples, and `w_full` is 1 whenever the next write overwrites an unread sample; `r_avail` never overstates them. -/
def Obligations.StatusOutputsAreConservative : Prop :=
  ∀ (s : State) (g : Counts), Tracks s g →
    s.rAvail ≤ g.w - g.r ∧
    (EnvWstat s g → subP s.cfg s.W s.Rw = g.w - g.rW ∧ min (g.w - g.r) s.cfg.c ≤ s.wFill ∧
      (s.cfg.c ≤ g.w - g.r → s.wFull = true))

/-- 43_reference_model R332, capacity invariant: `r_avail` and `w_fill` never exceed `C`, in every state. -/
def Obligations.StatusNeverExceedsTheCapacity : Prop :=
  ∀ s : State, s.rAvail ≤ s.cfg.c ∧ s.wFill ≤ s.cfg.c

/-- 70_reset_and_hazards R403: the reset value of `mem` is never observable: two runs from reset that differ only in what the
storage holds emit the same samples and leave the same registers, on any edges, under no condition on the environment. -/
def Obligations.ResetStorageIsNeverObserved : Prop :=
  ∀ (k : Config) (m : Memory) (is : List Instr), k.isQsf = true → Memory.wf m = true → (∀ i ∈ is, i.wf k = true) →
    ∃ t v, play (schedule k is) (State.resetOf k) = .next t ∧
      play (schedule k is) { State.resetOf k with mem := m } = .next v ∧ SameReadDomain t v ∧ SameWriteDomain t v

/-! ### The reference model -/

/-- 43_reference_model R327: every reference call keeps `0 <= available <= C` and `write_cursor = (read_cursor + available) mod C`. -/
def Obligations.ReferenceCallsKeepTheCounts : Prop :=
  ∀ r : RefState, r.Sound →
    (∀ v, (r.write1 v).Sound) ∧ (∀ bytes, (r.onBurst bytes).Sound) ∧ (∀ n, (r.read n).2.Sound) ∧ r.pull.2.Sound

/-- 43_reference_model R332, FIFO order and overflow drop-oldest, of the reference model: after any writes into an empty
buffer, reading as many samples as are kept (at most `C`) gives the last of them in write order, all real, and
`overflow_count` is how many were lost. -/
def Obligations.ReferenceReadsTheLastWritten : Prop :=
  ∀ (c f : Nat) (vs : List Sample), 1 ≤ c →
    (((RefState.create c f).write vs).read (min vs.length c)).1 =
      (vs.drop (vs.length - c)).map (fun v => (⟨v, false⟩ : RefSample)) ∧
    ((RefState.create c f).write vs).overflowCount = vs.length - c

/-- 43_reference_model R330 for `PULL`: from a settled point that maps to `r`, an accepted `PULL` with its `F` further `rstep`s and
no byte between emits what the reference `pull()` returns, the same values and tags, and ends at a settled point that maps to
the state after the call. -/
def Obligations.PullAgreesWithTheReference : Prop :=
  ∀ (s : State) (r : RefState) (is : List Instr), s.Wf → s.Settled → Abstracts s r → (∀ i ∈ is, i.wf s.cfg = true) →
    quiet is = true → is.countP onConsumer = s.cfg.f →
    ∃ t evs, play (schedule s.cfg (.pull :: is)) s = .next t ∧ t.trace = s.trace ++ evs ∧ tagged evs = r.pull.1 ∧
      t.Settled ∧ Abstracts t r.pull.2

/-- 43_reference_model R330 for `READ n`: as for `PULL`, against the reference `read(n)`. -/
def Obligations.ReadAgreesWithTheReference : Prop :=
  ∀ (s : State) (r : RefState) (n : Nat) (is : List Instr), s.Wf → s.Settled → Abstracts s r → n < 2 ^ s.cfg.pw →
    (∀ i ∈ is, i.wf s.cfg = true) → quiet is = true → is.countP onConsumer = n →
    ∃ t evs, play (schedule s.cfg (.read n :: is)) s = .next t ∧ t.trace = s.trace ++ evs ∧ tagged evs = (r.read n).1 ∧
      t.Settled ∧ Abstracts t (r.read n).2

/-- 43_reference_model R330 for a burst: from a settled point that maps to `r`, one burst under ENV-RATE with any `CNOP`s between
its words, followed by three `CNOP`s (after which the read domain has caught up), emits nothing and ends at a settled point that
maps to the state after `on_burst` of its bytes: the samples the read domain drops are those the reference drops. -/
def Obligations.BurstAgreesWithTheReference : Prop :=
  ∀ (s : State) (r : RefState) (is : List Instr), s.Wf → s.Settled → Abstracts s r → oneBurst is = true →
    (∀ i ∈ is, i.port = .consumer → i = .cnop) → rateOver s.cfg.c false 0 is = true →
    ∃ t, play (schedule s.cfg (is ++ [.cnop, .cnop, .cnop])) s = .next t ∧ t.trace = s.trace ∧ t.Settled ∧
      Abstracts t (r.onBurst (bytesOf is))

/-! ### Runs of any length -/

/-- 00_scope R9: a run is the reset step and then its words: what it reaches after `n` of them is what playing the reset step and
its first `n` words reaches, from any state of the configuration. The step after the last word of a finite run is the model's
choice (log 28): the state stays. -/
def Obligations.RunsPlayTheirWords : Prop :=
  ∀ (k : Config) (ρ : Run) (n : Nat) (s : State), k.isQsf = true → s.cfg = k → (∀ w ∈ ρ.first n, w.wf k = true) →
    ∃ t, ρ.after k n = .next t ∧ play (.reset :: (ρ.first n).map .port) s = .next t

/-- 41_consumer R242 under the fairness premise of 00_scope R12: in an infinite run in which `rstep`s occur infinitely often, from
every point on the command in flight finishes, having emitted every sample it still had to emit. -/
def Obligations.CommandsFinishUnderFairness : Prop :=
  ∀ (k : Config) (ws : Nat → PortWord) (n : Nat), k.isQsf = true → (∀ i, (ws i).wf k = true) →
    (∀ i, ∃ j, i ≤ j ∧ (ws j).isConsumer = true) →
    ∃ s m t evs, (Run.infinite ws).after k n = .next s ∧ n ≤ m ∧ (Run.infinite ws).after k m = .next t ∧ t.cReady = true ∧
      t.trace = s.trace ++ evs ∧ evs.length = s.nReal + s.nZero

/-! ### Clocks and the environment conditions -/

/-- 60_exceptions R373, 70_reset_and_hazards R410: while `rclk` is stopped the read domain takes no step and keeps every register,
the samples written since the last `rstep` add up, and ENV-RATE is violated once there are `C` of them; while `wclk` is stopped
the write domain and the storage keep all they hold. -/
def Obligations.StoppedClockKeepsItsDomain : Prop :=
  ∀ (s : State) (g : Counts) (ws : List PortWord), s.cfg.isQsf = true → (∀ w ∈ ws, w.wf s.cfg = true) →
    (ws.all (fun w => !w.isConsumer) = true → ∃ t, play (ws.map .port) s = .next t ∧ SameReadDomain s t ∧
      (follow (ws.map .port) s g).2.sinceR = g.sinceR + samplesIn s.loPending (producerWords ws) ∧
      (s.cfg.c ≤ g.sinceR + samplesIn s.loPending (producerWords ws) → ¬ EnvRateAlong (ws.map .port) s g)) ∧
    (ws.all PortWord.isConsumer = true → ∃ t, play (ws.map .port) s = .next t ∧ SameWriteDomain s t ∧ SameStorage s t)

/-- 70_reset_and_hazards R410, ENV-RATE: within the fastest `wclk` and the slowest `rclk`, at most `floor(f_wclk_max / f_rclk_min) + 1`
`wclk` edges fall between two consecutive `rclk` edges, those that coincide with one counted; and a run from reset with at most
`m <= 2C - 2` `wstep`s, or bytes presented by a slower transport, between consecutive `rstep`s writes at most `ceil(m / 2)` samples
between them and meets ENV-RATE. -/
def Obligations.ClockConditionsGiveEnvRate : Prop :=
  (∀ (w r : Clock) (ticks a b : Nat) (times : List Nat), 0 < ticks → 0 < r.slowest → r.edgesAt ticks [a, b] →
    w.edgesAt ticks times → (∀ t ∈ times, a ≤ t ∧ t ≤ b) → times.length ≤ edgeRatioBound w r) ∧
  (∀ (k : Config) (m : Nat) (ws : List PortWord), k.isQsf = true → (∀ w ∈ ws, w.wf k = true) →
    wstepsBetween m 0 ws = true ∨ bytesBetween m 0 ws = true →
    writesBetween ((m + 1) / 2) false 0 ws = true ∧
    (rateClockCondition k m → EnvRateAlong (ws.map .port) (State.resetOf k) Counts.zero))

/-- 42_cdc R292, 70_reset_and_hazards R410, ENV-WSTAT: a run from reset with at most `n` sample writes between consecutive `rstep`s,
where `6n + 4 <= C`, meets ENV-WSTAT; so does one with at most `m` `wstep`s, or bytes presented, between them, where
`n = ceil(m / 2)` satisfies that. -/
def Obligations.WriteBoundGivesEnvWstat : Prop :=
  ∀ (k : Config) (ws : List PortWord), k.isQsf = true → (∀ w ∈ ws, w.wf k = true) →
    (∀ n, writesBetween n false 0 ws = true → 6 * n + 4 ≤ k.c → EnvWstatAlong (ws.map .port) (State.resetOf k) Counts.zero) ∧
    (∀ m, wstepsBetween m 0 ws = true ∨ bytesBetween m 0 ws = true → statusClockCondition k m →
      EnvWstatAlong (ws.map .port) (State.resetOf k) Counts.zero)

/-! ### Call sequences and settled schedules -/

/-- 43_reference_model R327: after any sequence of calls from creation, the count and the cursors are as the first two invariants
say, and the `available` samples at `read_cursor` are the last `available` samples written and not yet read, in write order. -/
def Obligations.ReferenceCallsKeepTheInvariants : Prop :=
  ∀ (c f : Nat) (calls : List RefCall), 1 ≤ c →
    ((RefState.create c f).calls calls).2.Sound ∧
    ((RefState.create c f).calls calls).2.HoldsLast (samplesWritten calls)
      (realValues ((RefState.create c f).calls calls).1)

/-- 43_reference_model R330, of every settled schedule, with its reference calls in the order in which bursts end and commands are
accepted: what has been emitted is the beginning of what the calls return, the same values and tags, short only of what the
command in flight has still to emit; at a settled point the hardware state maps to the reference state, and after `SETTLE` both
domains' status outputs show its `available`. A burst in progress at a settled point has written its whole samples so far
(DEDUCED, log 27): with none in progress, `samplesOf []` writes nothing. -/
def Obligations.SettledRunsAgreeWithTheReference : Prop :=
  ∀ (k : Config) (is : List Instr) (s : State) (v : Watch) (out : List RefSample) (r : RefState), SettledSchedule k is →
    watch is (State.resetOf k) Watch.start = (s, v) → (RefState.create k.c k.f).calls v.calls = (out, r) →
    play (schedule k is) (State.resetOf k) = .next s ∧
    tagged s.trace = out.take s.trace.length ∧ out.length = s.trace.length + (s.nReal + s.nZero) ∧
    (SettledPoint s v → s.Settled ∧ Abstracts s (r.write (samplesOf v.burst)) ∧
      ∃ t, play (scriptEdges k settleLines) s = .next t ∧ t.trace = s.trace ∧
        t.wFill = (r.write (samplesOf v.burst)).available ∧ t.rAvail = (r.write (samplesOf v.burst)).available ∧
        (t.wFull = true ↔ (r.write (samplesOf v.burst)).available = k.c))

/-- 43_reference_model R332, FIFO order and overflow drop-oldest, of the hardware: a settled schedule that, once what it wrote
before is read or lost, writes `N` samples in bursts and then reads the last `min(N, C)` of them, with one `READ` or with
`min(N, C) / F` `PULL`s, emits exactly those, in write order and all real, after what it emitted before; and `drop_count` counts
as many more as were lost. -/
def Obligations.SettledRunsReadInOrder : Prop :=
  ∀ (k : Config) (is : List Instr) (s : State) (v : Watch) (before reads : List RefCall) (bursts : List (List Byte))
    (vs : List Sample) (out : List RefSample) (r : RefState),
    SettledSchedule k is → watch is (State.resetOf k) Watch.start = (s, v) →
    (RefState.create k.c k.f).calls before = (out, r) → r.available = 0 → vs = samplesWritten (bursts.map .burst) →
    (reads = [.read (min vs.length k.c)] ∨ ∃ j, reads = List.replicate j .pull ∧ j * k.f = min vs.length k.c) →
    v.calls = before ++ bursts.map .burst ++ reads → v.burst = [] → s.cReady = true →
    tagged s.trace = out ++ (vs.drop (vs.length - k.c)).map (fun x => (⟨x, false⟩ : RefSample)) ∧
    s.dropCount = BitVec.ofNat 32 (r.overflowCount + (vs.length - k.c))

/-- 43_reference_model R332, scenarios B, A and C, in every QSF. B and A: a `PULL` with nothing written emits a silence frame; then
`F` samples `x` are written and a `PULL` emits them, and nothing is left. C: at least `C` samples are written and the `C / F`
`PULL`s emit the last `C` of them, in order; one more `PULL` emits a silence frame. -/
def Obligations.ScenariosGiveTheirFrames : Prop :=
  ∀ k : Config, k.isQsf = true →
    (∀ x : Sample, ∃ t, play (scriptEdges k (scenarioBA k x)) (State.resetOf k) = .next t ∧
      tagged t.trace = List.replicate k.f ⟨0, true⟩ ++ List.replicate k.f ⟨x, false⟩ ∧
      t.rAvail = 0 ∧ t.starved = false ∧ t.underrunCount = 1 ∧ t.dropCount = 0) ∧
    (∀ (vs : List Sample) (j : Nat), k.c ≤ vs.length → j * k.f = k.c →
      ∃ t u, play (scriptEdges k (scenarioC k vs j)) (State.resetOf k) = .next t ∧
        tagged t.trace = (vs.drop (vs.length - k.c)).map (fun x => (⟨x, false⟩ : RefSample)) ∧
        t.rAvail = 0 ∧ t.starved = false ∧ t.dropCount = BitVec.ofNat 32 (vs.length - k.c) ∧
        t.ovf = decide (k.c < vs.length) ∧
        play (scriptEdges k (scenarioC k vs (j + 1))) (State.resetOf k) = .next u ∧
        tagged u.trace = tagged t.trace ++ List.replicate k.f ⟨0, true⟩ ∧ u.rAvail = 0 ∧ u.starved = true)
end

