-- ==== Sys2Proof/Laws/Cursor.lean ====
section
/-! SUPPORT. Bounds of the pointer arithmetic, the Gray code's value at 0, and what catch-up and the status outputs can be. -/

namespace Sys2Proof.Machine

theorem addP_lt (k : Config) (a n : Nat) : addP k a n < 2 ^ k.pw := Nat.mod_lt _ (Nat.two_pow_pos _)

theorem subP_lt (k : Config) (a b : Nat) : subP k a b < 2 ^ k.pw := Nat.mod_lt _ (Nat.two_pow_pos _)

theorem slot_lt (k : Config) (p : Nat) : slot k p < 2 ^ k.aw := Nat.mod_lt _ (Nat.two_pow_pos _)

/-- The constraints that make a configuration a QSF. -/
theorem isQsf_iff (k : Config) :
    k.isQsf = true ↔ 1 ≤ k.aw ∧ k.c = 2 ^ k.aw ∧ 1 ≤ k.f ∧ k.f ≤ k.c ∧ k.pw = k.aw + 1 := by
  simp [Config.isQsf, and_assoc]

/-- In a QSF a cursor counts twice the capacity. -/
theorem two_pow_pw (k : Config) (h : k.isQsf = true) : 2 ^ k.pw = 2 * k.c := by
  obtain ⟨_, hc, _, _, hp⟩ := (isQsf_iff k).mp h
  rw [hp, hc, Nat.pow_succ, Nat.mul_comm]

theorem slot_lt_c (k : Config) (p : Nat) (h : k.isQsf = true) : slot k p < k.c := by
  obtain ⟨_, hc, _⟩ := (isQsf_iff k).mp h
  exact hc ▸ slot_lt k p

/-- The Gray code of a number has no more bits than the number. -/
theorem bin2gray_lt (n x : Nat) (h : x < 2 ^ n) : bin2gray x < 2 ^ n :=
  Nat.xor_lt_two_pow h (lt_of_le_of_lt (Nat.shiftRight_le x 1) h)

theorem xorShifts_lt (n g j : Nat) (h : g < 2 ^ n) : xorShifts g j < 2 ^ n := by
  induction j with
  | zero => exact Nat.two_pow_pos n
  | succ j ih => exact Nat.xor_lt_two_pow ih (lt_of_le_of_lt (Nat.shiftRight_le g j) h)

theorem gray2bin_lt (pw g : Nat) : gray2bin pw g < 2 ^ pw :=
  xorShifts_lt _ _ _ (Nat.mod_lt _ (Nat.two_pow_pos pw))

theorem Ws_lt (s : State) : s.Ws < 2 ^ s.cfg.pw := gray2bin_lt _ _

theorem unread_lt (s : State) : unread s < 2 ^ s.cfg.pw := subP_lt _ _ _

/-- Catch-up when it drops: more than `C` samples are unread. -/
theorem catchUp_drops (s : State) (h : s.cfg.c < unread s) :
    catchUp s = ⟨subP s.cfg s.Ws s.cfg.c, unread s - s.cfg.c, s.cfg.c⟩ := by simp [catchUp, h]

/-- Catch-up when it drops nothing. -/
theorem catchUp_keeps (s : State) (h : unread s ≤ s.cfg.c) : catchUp s = ⟨s.R, 0, unread s⟩ := by
  simp [catchUp, Nat.not_lt.mpr h]

/-- The cursor after catch-up stays within its width. -/
theorem catchUp_r1_lt (s : State) (h : s.R < 2 ^ s.cfg.pw) : (catchUp s).r1 < 2 ^ s.cfg.pw := by
  unfold catchUp
  split
  · exact subP_lt _ _ _
  · exact h

/-- Adding a number and taking it away again. -/
theorem subP_addP_cancel (k : Config) (a n : Nat) (h : n < 2 ^ k.pw) : subP k (addP k a n) a = n := by
  have hp : 0 < 2 ^ k.pw := Nat.two_pow_pos _
  have ha := Nat.mod_lt a hp
  have hd := Nat.mod_add_div a (2 ^ k.pw)
  unfold subP addP
  rw [Nat.mod_add_mod, show a + n + (2 ^ k.pw - a % 2 ^ k.pw) = n + 2 ^ k.pw + 2 ^ k.pw * (a / 2 ^ k.pw) by omega,
    Nat.add_mul_mod_self_left, Nat.add_mod_right, Nat.mod_eq_of_lt h]

end Sys2Proof.Machine
end

