-- ==== Sys2Proof/Laws/Memory.lean ====
section
/-! SUPPORT. The laws of the storage: what a read after a write gives, that a write leaves every other place alone, and that
every write keeps the canonical form and the bound of the storage. -/

namespace Sys2Proof.Machine

/-- A canonical list, taken apart: its first byte is not the unlisted one, its address is below all others, and the rest is
canonical. -/
theorem Memory.wf_cons (k : Nat) (v : Byte) (rest : Memory) :
    Memory.wf ((k, v) :: rest) = true ↔
      v ≠ unlistedByte ∧ (∀ cell ∈ rest, k < cell.1) ∧ Memory.wf rest = true := by
  simp [Memory.wf, and_assoc]

/-- An address below every listed one reads as unlisted. -/
theorem readByte_below (m : Memory) (a : Nat) (h : ∀ cell ∈ m, a < cell.1) : readByte m a = unlistedByte := by
  induction m with
  | nil => rfl
  | cons head rest ih =>
    obtain ⟨k, v⟩ := head
    have hk : a < k := h (k, v) (by simp)
    simp only [readByte, if_neg (Nat.ne_of_gt hk)]
    exact ih fun cell hc => h cell (by simp [hc])

/-- The addresses a byte write can list: the written one and those listed before. -/
theorem mem_writeByte (m : Memory) (a : Nat) (v : Byte) (cell : Host.Cell) (h : cell ∈ writeByte m a v) :
    cell.1 = a ∨ cell ∈ m := by
  induction m with
  | nil =>
    simp only [writeByte] at h
    split at h <;> simp_all
  | cons head rest ih =>
    obtain ⟨k, w⟩ := head
    simp only [writeByte] at h
    split at h
    · split at h
      · exact .inr h
      · rcases List.mem_cons.mp h with rfl | h
        · exact .inl rfl
        · exact .inr h
    · split at h
      · split at h
        · exact .inr (by simp [h])
        · rcases List.mem_cons.mp h with rfl | h
          · exact .inl rfl
          · exact .inr (by simp [h])
      · rcases List.mem_cons.mp h with rfl | h
        · exact .inr (by simp)
        · rcases ih h with h | h
          · exact .inl h
          · exact .inr (by simp [h])

/-- A byte write keeps the canonical form. -/
theorem writeByte_wf (m : Memory) (a : Nat) (v : Byte) (h : Memory.wf m = true) : Memory.wf (writeByte m a v) = true := by
  induction m with
  | nil =>
    simp only [writeByte]
    split <;> simp_all [Memory.wf]
  | cons head rest ih =>
    obtain ⟨k, w⟩ := head
    have hw := h
    rw [Memory.wf_cons] at h
    obtain ⟨h1, h2, h3⟩ := h
    simp only [writeByte]
    split
    · rename_i hak
      split
      · exact hw
      · rename_i hv
        rw [Memory.wf_cons]
        refine ⟨hv, fun cell hc => ?_, hw⟩
        rcases List.mem_cons.mp hc with rfl | hc
        · exact hak
        · exact hak.trans (h2 cell hc)
    · split
      · rename_i hne hak
        split
        · exact h3
        · rename_i hv
          rw [Memory.wf_cons]
          exact ⟨hv, fun cell hc => hak ▸ h2 cell hc, h3⟩
      · rename_i hlt hne
        rw [Memory.wf_cons]
        refine ⟨h1, fun cell hc => ?_, ih h3⟩
        rcases mem_writeByte rest a v cell hc with h | h
        · omega
        · exact h2 cell h

/-- A byte reads as it was written. -/
theorem readByte_writeByte_same (m : Memory) (a : Nat) (v : Byte) (h : Memory.wf m = true) :
    readByte (writeByte m a v) a = v := by
  induction m with
  | nil =>
    simp only [writeByte]
    split <;> simp_all [readByte]
  | cons head rest ih =>
    obtain ⟨k, w⟩ := head
    rw [Memory.wf_cons] at h
    obtain ⟨_, h2, h3⟩ := h
    simp only [writeByte]
    split
    · rename_i hak
      split
      · rename_i hv
        rw [hv]
        refine readByte_below _ _ fun cell hc => ?_
        rcases List.mem_cons.mp hc with rfl | hc
        · exact hak
        · exact hak.trans (h2 cell hc)
      · simp [readByte]
    · split
      · rename_i hne hak
        split
        · rename_i hv
          rw [hv]
          exact readByte_below _ _ fun cell hc => hak ▸ h2 cell hc
        · simp [readByte]
      · rename_i hlt hne
        simp only [readByte, if_neg (Ne.symm hne)]
        exact ih h3

/-- A byte write leaves every other byte alone. -/
theorem readByte_writeByte_other (m : Memory) (a b : Nat) (v : Byte) (hb : b ≠ a) :
    readByte (writeByte m a v) b = readByte m b := by
  induction m with
  | nil =>
    simp only [writeByte]
    split
    · rfl
    · simp [readByte, Ne.symm hb]
  | cons head rest ih =>
    obtain ⟨k, w⟩ := head
    simp only [writeByte]
    split
    · split
      · rfl
      · simp [readByte, Ne.symm hb]
    · split
      · rename_i hne hak
        subst hak
        split <;> simp [readByte, Ne.symm hb]
      · simp only [readByte, ih]

/-- `MemWrite` keeps the canonical form. -/
theorem memWrite_wf (m : Memory) (s : Nat) (v : Sample) (h : Memory.wf m = true) : Memory.wf (memWrite m s v) = true :=
  writeByte_wf _ _ _ (writeByte_wf _ _ _ h)

/-- `MemWrite` to a slot of the storage lists no byte outside the storage. -/
theorem memWrite_within (m : Memory) (c s : Nat) (v : Sample) (hs : s < c) (h : Memory.within c m = true) :
    Memory.within c (memWrite m s v) = true := by
  simp only [Memory.within, List.all_eq_true, decide_eq_true_eq] at h ⊢
  intro cell hc
  rcases mem_writeByte _ _ _ _ hc with e | hc
  · omega
  · rcases mem_writeByte _ _ _ _ hc with e | hc
    · omega
    · exact h cell hc

/-- `MemWrite` leaves every byte outside its slot alone. -/
theorem readByte_memWrite_other (m : Memory) (s a : Nat) (v : Sample) (h0 : a ≠ 2 * s) (h1 : a ≠ 2 * s + 1) :
    readByte (memWrite m s v) a = readByte m a := by
  rw [memWrite, readByte_writeByte_other _ _ _ _ h1, readByte_writeByte_other _ _ _ _ h0]

/-- A slot reads as it was written. -/
theorem memRead_memWrite_same (m : Memory) (s : Nat) (v : Sample) (h : Memory.wf m = true) :
    memRead (memWrite m s v) s = v := by
  have h1 : readByte (memWrite m s v) (2 * s + 1) = v.extractLsb' 8 8 :=
    readByte_writeByte_same _ _ _ (writeByte_wf _ _ _ h)
  have h0 : readByte (memWrite m s v) (2 * s) = v.extractLsb' 0 8 := by
    rw [memWrite, readByte_writeByte_other _ _ _ _ (by omega), readByte_writeByte_same _ _ _ h]
  simp only [memRead, h1, h0]
  ext i hi
  simp only [BitVec.getElem_append, BitVec.getElem_extractLsb']
  split
  · simp [BitVec.getLsbD_eq_getElem hi]
  · rw [show 8 + (i - 8) = i by omega, BitVec.getLsbD_eq_getElem hi]

/-- A slot write leaves every other slot alone. -/
theorem memRead_memWrite_other (m : Memory) (s t : Nat) (v : Sample) (h : t ≠ s) :
    memRead (memWrite m s v) t = memRead m t := by
  simp only [memRead]
  rw [readByte_memWrite_other _ _ _ _ (by omega) (by omega), readByte_memWrite_other _ _ _ _ (by omega) (by omega)]

/-- The storage right after reset: every slot reads 0. -/
@[simp] theorem memRead_nil (s : Nat) : memRead [] s = 0 := by
  simp [memRead, readByte, unlistedByte]

end Sys2Proof.Machine
end

