-- ==== Sys2Proof/Laws/State.lean ====
section
/-! SUPPORT. What each shared update does to each field of State, one lemma per field per update: no later proof unfolds a
record update. Then the accessors of the state right after reset. -/

namespace Sys2Proof.Machine

/-! ### writeSample -/

@[simp] theorem writeSample_cfg (v : Sample) (s : State) : (writeSample v s).cfg = s.cfg := rfl
@[simp] theorem writeSample_W (v : Sample) (s : State) : (writeSample v s).W = addP s.cfg s.W 1 := rfl
@[simp] theorem writeSample_Wg (v : Sample) (s : State) : (writeSample v s).Wg = bin2gray (addP s.cfg s.W 1) := rfl
@[simp] theorem writeSample_loPending (v : Sample) (s : State) : (writeSample v s).loPending = s.loPending := rfl
@[simp] theorem writeSample_loByte (v : Sample) (s : State) : (writeSample v s).loByte = s.loByte := rfl
@[simp] theorem writeSample_burstCount (v : Sample) (s : State) : (writeSample v s).burstCount = s.burstCount := rfl
@[simp] theorem writeSample_reqS1 (v : Sample) (s : State) : (writeSample v s).reqS1 = s.reqS1 := rfl
@[simp] theorem writeSample_reqS2 (v : Sample) (s : State) : (writeSample v s).reqS2 = s.reqS2 := rfl
@[simp] theorem writeSample_ackW (v : Sample) (s : State) : (writeSample v s).ackW = s.ackW := rfl
@[simp] theorem writeSample_Rw (v : Sample) (s : State) : (writeSample v s).Rw = s.Rw := rfl
@[simp] theorem writeSample_R (v : Sample) (s : State) : (writeSample v s).R = s.R := rfl
@[simp] theorem writeSample_ws1 (v : Sample) (s : State) : (writeSample v s).ws1 = s.ws1 := rfl
@[simp] theorem writeSample_ws2 (v : Sample) (s : State) : (writeSample v s).ws2 = s.ws2 := rfl
@[simp] theorem writeSample_reqR (v : Sample) (s : State) : (writeSample v s).reqR = s.reqR := rfl
@[simp] theorem writeSample_Rhold (v : Sample) (s : State) : (writeSample v s).Rhold = s.Rhold := rfl
@[simp] theorem writeSample_ackS1 (v : Sample) (s : State) : (writeSample v s).ackS1 = s.ackS1 := rfl
@[simp] theorem writeSample_ackS2 (v : Sample) (s : State) : (writeSample v s).ackS2 = s.ackS2 := rfl
@[simp] theorem writeSample_nReal (v : Sample) (s : State) : (writeSample v s).nReal = s.nReal := rfl
@[simp] theorem writeSample_nZero (v : Sample) (s : State) : (writeSample v s).nZero = s.nZero := rfl
@[simp] theorem writeSample_starved (v : Sample) (s : State) : (writeSample v s).starved = s.starved := rfl
@[simp] theorem writeSample_ovf (v : Sample) (s : State) : (writeSample v s).ovf = s.ovf := rfl
@[simp] theorem writeSample_underrunCount (v : Sample) (s : State) : (writeSample v s).underrunCount = s.underrunCount := rfl
@[simp] theorem writeSample_dropCount (v : Sample) (s : State) : (writeSample v s).dropCount = s.dropCount := rfl
@[simp] theorem writeSample_mem (v : Sample) (s : State) : (writeSample v s).mem = memWrite s.mem (slot s.cfg s.W) v := rfl
@[simp] theorem writeSample_oValid (v : Sample) (s : State) : (writeSample v s).oValid = s.oValid := rfl
@[simp] theorem writeSample_oData (v : Sample) (s : State) : (writeSample v s).oData = s.oData := rfl
@[simp] theorem writeSample_oSilence (v : Sample) (s : State) : (writeSample v s).oSilence = s.oSilence := rfl
@[simp] theorem writeSample_oLast (v : Sample) (s : State) : (writeSample v s).oLast = s.oLast := rfl
@[simp] theorem writeSample_trace (v : Sample) (s : State) : (writeSample v s).trace = s.trace := rfl
@[simp] theorem writeSample_edges (v : Sample) (s : State) : (writeSample v s).edges = s.edges := rfl

/-! ### endBurst -/

@[simp] theorem endBurst_cfg (s : State) : (endBurst s).cfg = s.cfg := rfl
@[simp] theorem endBurst_W (s : State) : (endBurst s).W = s.W := rfl
@[simp] theorem endBurst_Wg (s : State) : (endBurst s).Wg = s.Wg := rfl
@[simp] theorem endBurst_loPending (s : State) : (endBurst s).loPending = false := rfl
@[simp] theorem endBurst_loByte (s : State) : (endBurst s).loByte = s.loByte := rfl
@[simp] theorem endBurst_burstCount (s : State) : (endBurst s).burstCount = s.burstCount + 1 := rfl
@[simp] theorem endBurst_reqS1 (s : State) : (endBurst s).reqS1 = s.reqS1 := rfl
@[simp] theorem endBurst_reqS2 (s : State) : (endBurst s).reqS2 = s.reqS2 := rfl
@[simp] theorem endBurst_ackW (s : State) : (endBurst s).ackW = s.ackW := rfl
@[simp] theorem endBurst_Rw (s : State) : (endBurst s).Rw = s.Rw := rfl
@[simp] theorem endBurst_R (s : State) : (endBurst s).R = s.R := rfl
@[simp] theorem endBurst_ws1 (s : State) : (endBurst s).ws1 = s.ws1 := rfl
@[simp] theorem endBurst_ws2 (s : State) : (endBurst s).ws2 = s.ws2 := rfl
@[simp] theorem endBurst_reqR (s : State) : (endBurst s).reqR = s.reqR := rfl
@[simp] theorem endBurst_Rhold (s : State) : (endBurst s).Rhold = s.Rhold := rfl
@[simp] theorem endBurst_ackS1 (s : State) : (endBurst s).ackS1 = s.ackS1 := rfl
@[simp] theorem endBurst_ackS2 (s : State) : (endBurst s).ackS2 = s.ackS2 := rfl
@[simp] theorem endBurst_nReal (s : State) : (endBurst s).nReal = s.nReal := rfl
@[simp] theorem endBurst_nZero (s : State) : (endBurst s).nZero = s.nZero := rfl
@[simp] theorem endBurst_starved (s : State) : (endBurst s).starved = s.starved := rfl
@[simp] theorem endBurst_ovf (s : State) : (endBurst s).ovf = s.ovf := rfl
@[simp] theorem endBurst_underrunCount (s : State) : (endBurst s).underrunCount = s.underrunCount := rfl
@[simp] theorem endBurst_dropCount (s : State) : (endBurst s).dropCount = s.dropCount := rfl
@[simp] theorem endBurst_mem (s : State) : (endBurst s).mem = s.mem := rfl
@[simp] theorem endBurst_oValid (s : State) : (endBurst s).oValid = s.oValid := rfl
@[simp] theorem endBurst_oData (s : State) : (endBurst s).oData = s.oData := rfl
@[simp] theorem endBurst_oSilence (s : State) : (endBurst s).oSilence = s.oSilence := rfl
@[simp] theorem endBurst_oLast (s : State) : (endBurst s).oLast = s.oLast := rfl
@[simp] theorem endBurst_trace (s : State) : (endBurst s).trace = s.trace := rfl
@[simp] theorem endBurst_edges (s : State) : (endBurst s).edges = s.edges := rfl

/-! ### receiveHandshake -/

@[simp] theorem receiveHandshake_cfg (s : State) : (receiveHandshake s).cfg = s.cfg := rfl
@[simp] theorem receiveHandshake_W (s : State) : (receiveHandshake s).W = s.W := rfl
@[simp] theorem receiveHandshake_Wg (s : State) : (receiveHandshake s).Wg = s.Wg := rfl
@[simp] theorem receiveHandshake_loPending (s : State) : (receiveHandshake s).loPending = s.loPending := rfl
@[simp] theorem receiveHandshake_loByte (s : State) : (receiveHandshake s).loByte = s.loByte := rfl
@[simp] theorem receiveHandshake_burstCount (s : State) : (receiveHandshake s).burstCount = s.burstCount := rfl
@[simp] theorem receiveHandshake_reqS1 (s : State) : (receiveHandshake s).reqS1 = s.reqR := rfl
@[simp] theorem receiveHandshake_reqS2 (s : State) : (receiveHandshake s).reqS2 = s.reqS1 := rfl
@[simp] theorem receiveHandshake_ackW (s : State) : (receiveHandshake s).ackW = if s.reqS2 != s.ackW then s.reqS2 else s.ackW := rfl
@[simp] theorem receiveHandshake_Rw (s : State) : (receiveHandshake s).Rw = if s.reqS2 != s.ackW then s.Rhold else s.Rw := rfl
@[simp] theorem receiveHandshake_R (s : State) : (receiveHandshake s).R = s.R := rfl
@[simp] theorem receiveHandshake_ws1 (s : State) : (receiveHandshake s).ws1 = s.ws1 := rfl
@[simp] theorem receiveHandshake_ws2 (s : State) : (receiveHandshake s).ws2 = s.ws2 := rfl
@[simp] theorem receiveHandshake_reqR (s : State) : (receiveHandshake s).reqR = s.reqR := rfl
@[simp] theorem receiveHandshake_Rhold (s : State) : (receiveHandshake s).Rhold = s.Rhold := rfl
@[simp] theorem receiveHandshake_ackS1 (s : State) : (receiveHandshake s).ackS1 = s.ackS1 := rfl
@[simp] theorem receiveHandshake_ackS2 (s : State) : (receiveHandshake s).ackS2 = s.ackS2 := rfl
@[simp] theorem receiveHandshake_nReal (s : State) : (receiveHandshake s).nReal = s.nReal := rfl
@[simp] theorem receiveHandshake_nZero (s : State) : (receiveHandshake s).nZero = s.nZero := rfl
@[simp] theorem receiveHandshake_starved (s : State) : (receiveHandshake s).starved = s.starved := rfl
@[simp] theorem receiveHandshake_ovf (s : State) : (receiveHandshake s).ovf = s.ovf := rfl
@[simp] theorem receiveHandshake_underrunCount (s : State) : (receiveHandshake s).underrunCount = s.underrunCount := rfl
@[simp] theorem receiveHandshake_dropCount (s : State) : (receiveHandshake s).dropCount = s.dropCount := rfl
@[simp] theorem receiveHandshake_mem (s : State) : (receiveHandshake s).mem = s.mem := rfl
@[simp] theorem receiveHandshake_oValid (s : State) : (receiveHandshake s).oValid = s.oValid := rfl
@[simp] theorem receiveHandshake_oData (s : State) : (receiveHandshake s).oData = s.oData := rfl
@[simp] theorem receiveHandshake_oSilence (s : State) : (receiveHandshake s).oSilence = s.oSilence := rfl
@[simp] theorem receiveHandshake_oLast (s : State) : (receiveHandshake s).oLast = s.oLast := rfl
@[simp] theorem receiveHandshake_trace (s : State) : (receiveHandshake s).trace = s.trace := rfl
@[simp] theorem receiveHandshake_edges (s : State) : (receiveHandshake s).edges = s.edges := rfl

/-! ### applyCatchUp -/

@[simp] theorem applyCatchUp_cfg (u : CatchUp) (s : State) : (applyCatchUp u s).cfg = s.cfg := rfl
@[simp] theorem applyCatchUp_W (u : CatchUp) (s : State) : (applyCatchUp u s).W = s.W := rfl
@[simp] theorem applyCatchUp_Wg (u : CatchUp) (s : State) : (applyCatchUp u s).Wg = s.Wg := rfl
@[simp] theorem applyCatchUp_loPending (u : CatchUp) (s : State) : (applyCatchUp u s).loPending = s.loPending := rfl
@[simp] theorem applyCatchUp_loByte (u : CatchUp) (s : State) : (applyCatchUp u s).loByte = s.loByte := rfl
@[simp] theorem applyCatchUp_burstCount (u : CatchUp) (s : State) : (applyCatchUp u s).burstCount = s.burstCount := rfl
@[simp] theorem applyCatchUp_reqS1 (u : CatchUp) (s : State) : (applyCatchUp u s).reqS1 = s.reqS1 := rfl
@[simp] theorem applyCatchUp_reqS2 (u : CatchUp) (s : State) : (applyCatchUp u s).reqS2 = s.reqS2 := rfl
@[simp] theorem applyCatchUp_ackW (u : CatchUp) (s : State) : (applyCatchUp u s).ackW = s.ackW := rfl
@[simp] theorem applyCatchUp_Rw (u : CatchUp) (s : State) : (applyCatchUp u s).Rw = s.Rw := rfl
@[simp] theorem applyCatchUp_R (u : CatchUp) (s : State) : (applyCatchUp u s).R = u.r1 := rfl
@[simp] theorem applyCatchUp_ws1 (u : CatchUp) (s : State) : (applyCatchUp u s).ws1 = s.ws1 := rfl
@[simp] theorem applyCatchUp_ws2 (u : CatchUp) (s : State) : (applyCatchUp u s).ws2 = s.ws2 := rfl
@[simp] theorem applyCatchUp_reqR (u : CatchUp) (s : State) : (applyCatchUp u s).reqR = s.reqR := rfl
@[simp] theorem applyCatchUp_Rhold (u : CatchUp) (s : State) : (applyCatchUp u s).Rhold = s.Rhold := rfl
@[simp] theorem applyCatchUp_ackS1 (u : CatchUp) (s : State) : (applyCatchUp u s).ackS1 = s.ackS1 := rfl
@[simp] theorem applyCatchUp_ackS2 (u : CatchUp) (s : State) : (applyCatchUp u s).ackS2 = s.ackS2 := rfl
@[simp] theorem applyCatchUp_nReal (u : CatchUp) (s : State) : (applyCatchUp u s).nReal = s.nReal := rfl
@[simp] theorem applyCatchUp_nZero (u : CatchUp) (s : State) : (applyCatchUp u s).nZero = s.nZero := rfl
@[simp] theorem applyCatchUp_starved (u : CatchUp) (s : State) : (applyCatchUp u s).starved = s.starved := rfl
@[simp] theorem applyCatchUp_ovf (u : CatchUp) (s : State) : (applyCatchUp u s).ovf = (s.ovf || decide (0 < u.drop)) := rfl
@[simp] theorem applyCatchUp_underrunCount (u : CatchUp) (s : State) : (applyCatchUp u s).underrunCount = s.underrunCount := rfl
@[simp] theorem applyCatchUp_dropCount (u : CatchUp) (s : State) : (applyCatchUp u s).dropCount = s.dropCount + BitVec.ofNat 32 u.drop := rfl
@[simp] theorem applyCatchUp_mem (u : CatchUp) (s : State) : (applyCatchUp u s).mem = s.mem := rfl
@[simp] theorem applyCatchUp_oValid (u : CatchUp) (s : State) : (applyCatchUp u s).oValid = s.oValid := rfl
@[simp] theorem applyCatchUp_oData (u : CatchUp) (s : State) : (applyCatchUp u s).oData = s.oData := rfl
@[simp] theorem applyCatchUp_oSilence (u : CatchUp) (s : State) : (applyCatchUp u s).oSilence = s.oSilence := rfl
@[simp] theorem applyCatchUp_oLast (u : CatchUp) (s : State) : (applyCatchUp u s).oLast = s.oLast := rfl
@[simp] theorem applyCatchUp_trace (u : CatchUp) (s : State) : (applyCatchUp u s).trace = s.trace := rfl
@[simp] theorem applyCatchUp_edges (u : CatchUp) (s : State) : (applyCatchUp u s).edges = s.edges := rfl

/-! ### emit -/

@[simp] theorem emit_cfg (e : OutEvent) (s : State) : (emit e s).cfg = s.cfg := rfl
@[simp] theorem emit_W (e : OutEvent) (s : State) : (emit e s).W = s.W := rfl
@[simp] theorem emit_Wg (e : OutEvent) (s : State) : (emit e s).Wg = s.Wg := rfl
@[simp] theorem emit_loPending (e : OutEvent) (s : State) : (emit e s).loPending = s.loPending := rfl
@[simp] theorem emit_loByte (e : OutEvent) (s : State) : (emit e s).loByte = s.loByte := rfl
@[simp] theorem emit_burstCount (e : OutEvent) (s : State) : (emit e s).burstCount = s.burstCount := rfl
@[simp] theorem emit_reqS1 (e : OutEvent) (s : State) : (emit e s).reqS1 = s.reqS1 := rfl
@[simp] theorem emit_reqS2 (e : OutEvent) (s : State) : (emit e s).reqS2 = s.reqS2 := rfl
@[simp] theorem emit_ackW (e : OutEvent) (s : State) : (emit e s).ackW = s.ackW := rfl
@[simp] theorem emit_Rw (e : OutEvent) (s : State) : (emit e s).Rw = s.Rw := rfl
@[simp] theorem emit_R (e : OutEvent) (s : State) : (emit e s).R = s.R := rfl
@[simp] theorem emit_ws1 (e : OutEvent) (s : State) : (emit e s).ws1 = s.ws1 := rfl
@[simp] theorem emit_ws2 (e : OutEvent) (s : State) : (emit e s).ws2 = s.ws2 := rfl
@[simp] theorem emit_reqR (e : OutEvent) (s : State) : (emit e s).reqR = s.reqR := rfl
@[simp] theorem emit_Rhold (e : OutEvent) (s : State) : (emit e s).Rhold = s.Rhold := rfl
@[simp] theorem emit_ackS1 (e : OutEvent) (s : State) : (emit e s).ackS1 = s.ackS1 := rfl
@[simp] theorem emit_ackS2 (e : OutEvent) (s : State) : (emit e s).ackS2 = s.ackS2 := rfl
@[simp] theorem emit_nReal (e : OutEvent) (s : State) : (emit e s).nReal = s.nReal := rfl
@[simp] theorem emit_nZero (e : OutEvent) (s : State) : (emit e s).nZero = s.nZero := rfl
@[simp] theorem emit_starved (e : OutEvent) (s : State) : (emit e s).starved = s.starved := rfl
@[simp] theorem emit_ovf (e : OutEvent) (s : State) : (emit e s).ovf = s.ovf := rfl
@[simp] theorem emit_underrunCount (e : OutEvent) (s : State) : (emit e s).underrunCount = s.underrunCount := rfl
@[simp] theorem emit_dropCount (e : OutEvent) (s : State) : (emit e s).dropCount = s.dropCount := rfl
@[simp] theorem emit_mem (e : OutEvent) (s : State) : (emit e s).mem = s.mem := rfl
@[simp] theorem emit_oValid (e : OutEvent) (s : State) : (emit e s).oValid = true := rfl
@[simp] theorem emit_oData (e : OutEvent) (s : State) : (emit e s).oData = e.data := rfl
@[simp] theorem emit_oSilence (e : OutEvent) (s : State) : (emit e s).oSilence = e.silence := rfl
@[simp] theorem emit_oLast (e : OutEvent) (s : State) : (emit e s).oLast = e.last := rfl
@[simp] theorem emit_trace (e : OutEvent) (s : State) : (emit e s).trace = s.trace ++ [e] := rfl
@[simp] theorem emit_edges (e : OutEvent) (s : State) : (emit e s).edges = s.edges := rfl

/-! ### emitNothing -/

@[simp] theorem emitNothing_cfg (s : State) : (emitNothing s).cfg = s.cfg := rfl
@[simp] theorem emitNothing_W (s : State) : (emitNothing s).W = s.W := rfl
@[simp] theorem emitNothing_Wg (s : State) : (emitNothing s).Wg = s.Wg := rfl
@[simp] theorem emitNothing_loPending (s : State) : (emitNothing s).loPending = s.loPending := rfl
@[simp] theorem emitNothing_loByte (s : State) : (emitNothing s).loByte = s.loByte := rfl
@[simp] theorem emitNothing_burstCount (s : State) : (emitNothing s).burstCount = s.burstCount := rfl
@[simp] theorem emitNothing_reqS1 (s : State) : (emitNothing s).reqS1 = s.reqS1 := rfl
@[simp] theorem emitNothing_reqS2 (s : State) : (emitNothing s).reqS2 = s.reqS2 := rfl
@[simp] theorem emitNothing_ackW (s : State) : (emitNothing s).ackW = s.ackW := rfl
@[simp] theorem emitNothing_Rw (s : State) : (emitNothing s).Rw = s.Rw := rfl
@[simp] theorem emitNothing_R (s : State) : (emitNothing s).R = s.R := rfl
@[simp] theorem emitNothing_ws1 (s : State) : (emitNothing s).ws1 = s.ws1 := rfl
@[simp] theorem emitNothing_ws2 (s : State) : (emitNothing s).ws2 = s.ws2 := rfl
@[simp] theorem emitNothing_reqR (s : State) : (emitNothing s).reqR = s.reqR := rfl
@[simp] theorem emitNothing_Rhold (s : State) : (emitNothing s).Rhold = s.Rhold := rfl
@[simp] theorem emitNothing_ackS1 (s : State) : (emitNothing s).ackS1 = s.ackS1 := rfl
@[simp] theorem emitNothing_ackS2 (s : State) : (emitNothing s).ackS2 = s.ackS2 := rfl
@[simp] theorem emitNothing_nReal (s : State) : (emitNothing s).nReal = s.nReal := rfl
@[simp] theorem emitNothing_nZero (s : State) : (emitNothing s).nZero = s.nZero := rfl
@[simp] theorem emitNothing_starved (s : State) : (emitNothing s).starved = s.starved := rfl
@[simp] theorem emitNothing_ovf (s : State) : (emitNothing s).ovf = s.ovf := rfl
@[simp] theorem emitNothing_underrunCount (s : State) : (emitNothing s).underrunCount = s.underrunCount := rfl
@[simp] theorem emitNothing_dropCount (s : State) : (emitNothing s).dropCount = s.dropCount := rfl
@[simp] theorem emitNothing_mem (s : State) : (emitNothing s).mem = s.mem := rfl
@[simp] theorem emitNothing_oValid (s : State) : (emitNothing s).oValid = false := rfl
@[simp] theorem emitNothing_oData (s : State) : (emitNothing s).oData = 0 := rfl
@[simp] theorem emitNothing_oSilence (s : State) : (emitNothing s).oSilence = false := rfl
@[simp] theorem emitNothing_oLast (s : State) : (emitNothing s).oLast = false := rfl
@[simp] theorem emitNothing_trace (s : State) : (emitNothing s).trace = s.trace := rfl
@[simp] theorem emitNothing_edges (s : State) : (emitNothing s).edges = s.edges := rfl

/-! ### streamReal -/

@[simp] theorem streamReal_cfg (u : CatchUp) (s : State) : (streamReal u s).cfg = s.cfg := rfl
@[simp] theorem streamReal_W (u : CatchUp) (s : State) : (streamReal u s).W = s.W := rfl
@[simp] theorem streamReal_Wg (u : CatchUp) (s : State) : (streamReal u s).Wg = s.Wg := rfl
@[simp] theorem streamReal_loPending (u : CatchUp) (s : State) : (streamReal u s).loPending = s.loPending := rfl
@[simp] theorem streamReal_loByte (u : CatchUp) (s : State) : (streamReal u s).loByte = s.loByte := rfl
@[simp] theorem streamReal_burstCount (u : CatchUp) (s : State) : (streamReal u s).burstCount = s.burstCount := rfl
@[simp] theorem streamReal_reqS1 (u : CatchUp) (s : State) : (streamReal u s).reqS1 = s.reqS1 := rfl
@[simp] theorem streamReal_reqS2 (u : CatchUp) (s : State) : (streamReal u s).reqS2 = s.reqS2 := rfl
@[simp] theorem streamReal_ackW (u : CatchUp) (s : State) : (streamReal u s).ackW = s.ackW := rfl
@[simp] theorem streamReal_Rw (u : CatchUp) (s : State) : (streamReal u s).Rw = s.Rw := rfl
@[simp] theorem streamReal_R (u : CatchUp) (s : State) : (streamReal u s).R = addP s.cfg u.r1 1 := rfl
@[simp] theorem streamReal_ws1 (u : CatchUp) (s : State) : (streamReal u s).ws1 = s.ws1 := rfl
@[simp] theorem streamReal_ws2 (u : CatchUp) (s : State) : (streamReal u s).ws2 = s.ws2 := rfl
@[simp] theorem streamReal_reqR (u : CatchUp) (s : State) : (streamReal u s).reqR = s.reqR := rfl
@[simp] theorem streamReal_Rhold (u : CatchUp) (s : State) : (streamReal u s).Rhold = s.Rhold := rfl
@[simp] theorem streamReal_ackS1 (u : CatchUp) (s : State) : (streamReal u s).ackS1 = s.ackS1 := rfl
@[simp] theorem streamReal_ackS2 (u : CatchUp) (s : State) : (streamReal u s).ackS2 = s.ackS2 := rfl
@[simp] theorem streamReal_nReal (u : CatchUp) (s : State) : (streamReal u s).nReal = s.nReal - 1 := rfl
@[simp] theorem streamReal_nZero (u : CatchUp) (s : State) : (streamReal u s).nZero = s.nZero := rfl
@[simp] theorem streamReal_starved (u : CatchUp) (s : State) : (streamReal u s).starved = s.starved := rfl
@[simp] theorem streamReal_ovf (u : CatchUp) (s : State) : (streamReal u s).ovf = s.ovf := rfl
@[simp] theorem streamReal_underrunCount (u : CatchUp) (s : State) : (streamReal u s).underrunCount = s.underrunCount := rfl
@[simp] theorem streamReal_dropCount (u : CatchUp) (s : State) : (streamReal u s).dropCount = s.dropCount := rfl
@[simp] theorem streamReal_mem (u : CatchUp) (s : State) : (streamReal u s).mem = s.mem := rfl
@[simp] theorem streamReal_oValid (u : CatchUp) (s : State) : (streamReal u s).oValid = true := rfl
@[simp] theorem streamReal_oData (u : CatchUp) (s : State) : (streamReal u s).oData = memRead s.mem (slot s.cfg u.r1) := rfl
@[simp] theorem streamReal_oSilence (u : CatchUp) (s : State) : (streamReal u s).oSilence = false := rfl
@[simp] theorem streamReal_oLast (u : CatchUp) (s : State) : (streamReal u s).oLast = (s.nReal == 1 && s.nZero == 0) := rfl
@[simp] theorem streamReal_trace (u : CatchUp) (s : State) : (streamReal u s).trace = s.trace ++ [⟨memRead s.mem (slot s.cfg u.r1), false, s.nReal == 1 && s.nZero == 0⟩] := rfl
@[simp] theorem streamReal_edges (u : CatchUp) (s : State) : (streamReal u s).edges = s.edges := rfl

/-! ### streamSilence -/

@[simp] theorem streamSilence_cfg (s : State) : (streamSilence s).cfg = s.cfg := rfl
@[simp] theorem streamSilence_W (s : State) : (streamSilence s).W = s.W := rfl
@[simp] theorem streamSilence_Wg (s : State) : (streamSilence s).Wg = s.Wg := rfl
@[simp] theorem streamSilence_loPending (s : State) : (streamSilence s).loPending = s.loPending := rfl
@[simp] theorem streamSilence_loByte (s : State) : (streamSilence s).loByte = s.loByte := rfl
@[simp] theorem streamSilence_burstCount (s : State) : (streamSilence s).burstCount = s.burstCount := rfl
@[simp] theorem streamSilence_reqS1 (s : State) : (streamSilence s).reqS1 = s.reqS1 := rfl
@[simp] theorem streamSilence_reqS2 (s : State) : (streamSilence s).reqS2 = s.reqS2 := rfl
@[simp] theorem streamSilence_ackW (s : State) : (streamSilence s).ackW = s.ackW := rfl
@[simp] theorem streamSilence_Rw (s : State) : (streamSilence s).Rw = s.Rw := rfl
@[simp] theorem streamSilence_R (s : State) : (streamSilence s).R = s.R := rfl
@[simp] theorem streamSilence_ws1 (s : State) : (streamSilence s).ws1 = s.ws1 := rfl
@[simp] theorem streamSilence_ws2 (s : State) : (streamSilence s).ws2 = s.ws2 := rfl
@[simp] theorem streamSilence_reqR (s : State) : (streamSilence s).reqR = s.reqR := rfl
@[simp] theorem streamSilence_Rhold (s : State) : (streamSilence s).Rhold = s.Rhold := rfl
@[simp] theorem streamSilence_ackS1 (s : State) : (streamSilence s).ackS1 = s.ackS1 := rfl
@[simp] theorem streamSilence_ackS2 (s : State) : (streamSilence s).ackS2 = s.ackS2 := rfl
@[simp] theorem streamSilence_nReal (s : State) : (streamSilence s).nReal = s.nReal := rfl
@[simp] theorem streamSilence_nZero (s : State) : (streamSilence s).nZero = s.nZero - 1 := rfl
@[simp] theorem streamSilence_starved (s : State) : (streamSilence s).starved = s.starved := rfl
@[simp] theorem streamSilence_ovf (s : State) : (streamSilence s).ovf = s.ovf := rfl
@[simp] theorem streamSilence_underrunCount (s : State) : (streamSilence s).underrunCount = s.underrunCount := rfl
@[simp] theorem streamSilence_dropCount (s : State) : (streamSilence s).dropCount = s.dropCount := rfl
@[simp] theorem streamSilence_mem (s : State) : (streamSilence s).mem = s.mem := rfl
@[simp] theorem streamSilence_oValid (s : State) : (streamSilence s).oValid = true := rfl
@[simp] theorem streamSilence_oData (s : State) : (streamSilence s).oData = silenceSample := rfl
@[simp] theorem streamSilence_oSilence (s : State) : (streamSilence s).oSilence = true := rfl
@[simp] theorem streamSilence_oLast (s : State) : (streamSilence s).oLast = (s.nZero == 1) := rfl
@[simp] theorem streamSilence_trace (s : State) : (streamSilence s).trace = s.trace ++ [⟨silenceSample, true, s.nZero == 1⟩] := rfl
@[simp] theorem streamSilence_edges (s : State) : (streamSilence s).edges = s.edges := rfl

/-! ### synchronise -/

@[simp] theorem synchronise_cfg (s : State) : (synchronise s).cfg = s.cfg := rfl
@[simp] theorem synchronise_W (s : State) : (synchronise s).W = s.W := rfl
@[simp] theorem synchronise_Wg (s : State) : (synchronise s).Wg = s.Wg := rfl
@[simp] theorem synchronise_loPending (s : State) : (synchronise s).loPending = s.loPending := rfl
@[simp] theorem synchronise_loByte (s : State) : (synchronise s).loByte = s.loByte := rfl
@[simp] theorem synchronise_burstCount (s : State) : (synchronise s).burstCount = s.burstCount := rfl
@[simp] theorem synchronise_reqS1 (s : State) : (synchronise s).reqS1 = s.reqS1 := rfl
@[simp] theorem synchronise_reqS2 (s : State) : (synchronise s).reqS2 = s.reqS2 := rfl
@[simp] theorem synchronise_ackW (s : State) : (synchronise s).ackW = s.ackW := rfl
@[simp] theorem synchronise_Rw (s : State) : (synchronise s).Rw = s.Rw := rfl
@[simp] theorem synchronise_R (s : State) : (synchronise s).R = s.R := rfl
@[simp] theorem synchronise_ws1 (s : State) : (synchronise s).ws1 = s.Wg := rfl
@[simp] theorem synchronise_ws2 (s : State) : (synchronise s).ws2 = s.ws1 := rfl
@[simp] theorem synchronise_reqR (s : State) : (synchronise s).reqR = s.reqR := rfl
@[simp] theorem synchronise_Rhold (s : State) : (synchronise s).Rhold = s.Rhold := rfl
@[simp] theorem synchronise_ackS1 (s : State) : (synchronise s).ackS1 = s.ackS1 := rfl
@[simp] theorem synchronise_ackS2 (s : State) : (synchronise s).ackS2 = s.ackS2 := rfl
@[simp] theorem synchronise_nReal (s : State) : (synchronise s).nReal = s.nReal := rfl
@[simp] theorem synchronise_nZero (s : State) : (synchronise s).nZero = s.nZero := rfl
@[simp] theorem synchronise_starved (s : State) : (synchronise s).starved = s.starved := rfl
@[simp] theorem synchronise_ovf (s : State) : (synchronise s).ovf = s.ovf := rfl
@[simp] theorem synchronise_underrunCount (s : State) : (synchronise s).underrunCount = s.underrunCount := rfl
@[simp] theorem synchronise_dropCount (s : State) : (synchronise s).dropCount = s.dropCount := rfl
@[simp] theorem synchronise_mem (s : State) : (synchronise s).mem = s.mem := rfl
@[simp] theorem synchronise_oValid (s : State) : (synchronise s).oValid = s.oValid := rfl
@[simp] theorem synchronise_oData (s : State) : (synchronise s).oData = s.oData := rfl
@[simp] theorem synchronise_oSilence (s : State) : (synchronise s).oSilence = s.oSilence := rfl
@[simp] theorem synchronise_oLast (s : State) : (synchronise s).oLast = s.oLast := rfl
@[simp] theorem synchronise_trace (s : State) : (synchronise s).trace = s.trace := rfl
@[simp] theorem synchronise_edges (s : State) : (synchronise s).edges = s.edges := rfl

/-! ### sendHandshake -/

@[simp] theorem sendHandshake_cfg (r : Nat) (s : State) : (sendHandshake r s).cfg = s.cfg := rfl
@[simp] theorem sendHandshake_W (r : Nat) (s : State) : (sendHandshake r s).W = s.W := rfl
@[simp] theorem sendHandshake_Wg (r : Nat) (s : State) : (sendHandshake r s).Wg = s.Wg := rfl
@[simp] theorem sendHandshake_loPending (r : Nat) (s : State) : (sendHandshake r s).loPending = s.loPending := rfl
@[simp] theorem sendHandshake_loByte (r : Nat) (s : State) : (sendHandshake r s).loByte = s.loByte := rfl
@[simp] theorem sendHandshake_burstCount (r : Nat) (s : State) : (sendHandshake r s).burstCount = s.burstCount := rfl
@[simp] theorem sendHandshake_reqS1 (r : Nat) (s : State) : (sendHandshake r s).reqS1 = s.reqS1 := rfl
@[simp] theorem sendHandshake_reqS2 (r : Nat) (s : State) : (sendHandshake r s).reqS2 = s.reqS2 := rfl
@[simp] theorem sendHandshake_ackW (r : Nat) (s : State) : (sendHandshake r s).ackW = s.ackW := rfl
@[simp] theorem sendHandshake_Rw (r : Nat) (s : State) : (sendHandshake r s).Rw = s.Rw := rfl
@[simp] theorem sendHandshake_R (r : Nat) (s : State) : (sendHandshake r s).R = s.R := rfl
@[simp] theorem sendHandshake_ws1 (r : Nat) (s : State) : (sendHandshake r s).ws1 = s.ws1 := rfl
@[simp] theorem sendHandshake_ws2 (r : Nat) (s : State) : (sendHandshake r s).ws2 = s.ws2 := rfl
@[simp] theorem sendHandshake_reqR (r : Nat) (s : State) : (sendHandshake r s).reqR = if s.ackS2 == s.reqR then !s.reqR else s.reqR := rfl
@[simp] theorem sendHandshake_Rhold (r : Nat) (s : State) : (sendHandshake r s).Rhold = if s.ackS2 == s.reqR then r else s.Rhold := rfl
@[simp] theorem sendHandshake_ackS1 (r : Nat) (s : State) : (sendHandshake r s).ackS1 = s.ackW := rfl
@[simp] theorem sendHandshake_ackS2 (r : Nat) (s : State) : (sendHandshake r s).ackS2 = s.ackS1 := rfl
@[simp] theorem sendHandshake_nReal (r : Nat) (s : State) : (sendHandshake r s).nReal = s.nReal := rfl
@[simp] theorem sendHandshake_nZero (r : Nat) (s : State) : (sendHandshake r s).nZero = s.nZero := rfl
@[simp] theorem sendHandshake_starved (r : Nat) (s : State) : (sendHandshake r s).starved = s.starved := rfl
@[simp] theorem sendHandshake_ovf (r : Nat) (s : State) : (sendHandshake r s).ovf = s.ovf := rfl
@[simp] theorem sendHandshake_underrunCount (r : Nat) (s : State) : (sendHandshake r s).underrunCount = s.underrunCount := rfl
@[simp] theorem sendHandshake_dropCount (r : Nat) (s : State) : (sendHandshake r s).dropCount = s.dropCount := rfl
@[simp] theorem sendHandshake_mem (r : Nat) (s : State) : (sendHandshake r s).mem = s.mem := rfl
@[simp] theorem sendHandshake_oValid (r : Nat) (s : State) : (sendHandshake r s).oValid = s.oValid := rfl
@[simp] theorem sendHandshake_oData (r : Nat) (s : State) : (sendHandshake r s).oData = s.oData := rfl
@[simp] theorem sendHandshake_oSilence (r : Nat) (s : State) : (sendHandshake r s).oSilence = s.oSilence := rfl
@[simp] theorem sendHandshake_oLast (r : Nat) (s : State) : (sendHandshake r s).oLast = s.oLast := rfl
@[simp] theorem sendHandshake_trace (r : Nat) (s : State) : (sendHandshake r s).trace = s.trace := rfl
@[simp] theorem sendHandshake_edges (r : Nat) (s : State) : (sendHandshake r s).edges = s.edges := rfl

/-! ### withEdges -/

@[simp] theorem withEdges_cfg (es : List Edge) (s : State) : (withEdges es s).cfg = s.cfg := rfl
@[simp] theorem withEdges_W (es : List Edge) (s : State) : (withEdges es s).W = s.W := rfl
@[simp] theorem withEdges_Wg (es : List Edge) (s : State) : (withEdges es s).Wg = s.Wg := rfl
@[simp] theorem withEdges_loPending (es : List Edge) (s : State) : (withEdges es s).loPending = s.loPending := rfl
@[simp] theorem withEdges_loByte (es : List Edge) (s : State) : (withEdges es s).loByte = s.loByte := rfl
@[simp] theorem withEdges_burstCount (es : List Edge) (s : State) : (withEdges es s).burstCount = s.burstCount := rfl
@[simp] theorem withEdges_reqS1 (es : List Edge) (s : State) : (withEdges es s).reqS1 = s.reqS1 := rfl
@[simp] theorem withEdges_reqS2 (es : List Edge) (s : State) : (withEdges es s).reqS2 = s.reqS2 := rfl
@[simp] theorem withEdges_ackW (es : List Edge) (s : State) : (withEdges es s).ackW = s.ackW := rfl
@[simp] theorem withEdges_Rw (es : List Edge) (s : State) : (withEdges es s).Rw = s.Rw := rfl
@[simp] theorem withEdges_R (es : List Edge) (s : State) : (withEdges es s).R = s.R := rfl
@[simp] theorem withEdges_ws1 (es : List Edge) (s : State) : (withEdges es s).ws1 = s.ws1 := rfl
@[simp] theorem withEdges_ws2 (es : List Edge) (s : State) : (withEdges es s).ws2 = s.ws2 := rfl
@[simp] theorem withEdges_reqR (es : List Edge) (s : State) : (withEdges es s).reqR = s.reqR := rfl
@[simp] theorem withEdges_Rhold (es : List Edge) (s : State) : (withEdges es s).Rhold = s.Rhold := rfl
@[simp] theorem withEdges_ackS1 (es : List Edge) (s : State) : (withEdges es s).ackS1 = s.ackS1 := rfl
@[simp] theorem withEdges_ackS2 (es : List Edge) (s : State) : (withEdges es s).ackS2 = s.ackS2 := rfl
@[simp] theorem withEdges_nReal (es : List Edge) (s : State) : (withEdges es s).nReal = s.nReal := rfl
@[simp] theorem withEdges_nZero (es : List Edge) (s : State) : (withEdges es s).nZero = s.nZero := rfl
@[simp] theorem withEdges_starved (es : List Edge) (s : State) : (withEdges es s).starved = s.starved := rfl
@[simp] theorem withEdges_ovf (es : List Edge) (s : State) : (withEdges es s).ovf = s.ovf := rfl
@[simp] theorem withEdges_underrunCount (es : List Edge) (s : State) : (withEdges es s).underrunCount = s.underrunCount := rfl
@[simp] theorem withEdges_dropCount (es : List Edge) (s : State) : (withEdges es s).dropCount = s.dropCount := rfl
@[simp] theorem withEdges_mem (es : List Edge) (s : State) : (withEdges es s).mem = s.mem := rfl
@[simp] theorem withEdges_oValid (es : List Edge) (s : State) : (withEdges es s).oValid = s.oValid := rfl
@[simp] theorem withEdges_oData (es : List Edge) (s : State) : (withEdges es s).oData = s.oData := rfl
@[simp] theorem withEdges_oSilence (es : List Edge) (s : State) : (withEdges es s).oSilence = s.oSilence := rfl
@[simp] theorem withEdges_oLast (es : List Edge) (s : State) : (withEdges es s).oLast = s.oLast := rfl
@[simp] theorem withEdges_trace (es : List Edge) (s : State) : (withEdges es s).trace = s.trace := rfl
@[simp] theorem withEdges_edges (es : List Edge) (s : State) : (withEdges es s).edges = es := rfl

/-! ### presentWord -/

@[simp] theorem presentWord_cfg (w : PortWord) (s : State) : (presentWord w s).cfg = s.cfg := rfl
@[simp] theorem presentWord_W (w : PortWord) (s : State) : (presentWord w s).W = s.W := rfl
@[simp] theorem presentWord_Wg (w : PortWord) (s : State) : (presentWord w s).Wg = s.Wg := rfl
@[simp] theorem presentWord_loPending (w : PortWord) (s : State) : (presentWord w s).loPending = s.loPending := rfl
@[simp] theorem presentWord_loByte (w : PortWord) (s : State) : (presentWord w s).loByte = s.loByte := rfl
@[simp] theorem presentWord_burstCount (w : PortWord) (s : State) : (presentWord w s).burstCount = s.burstCount := rfl
@[simp] theorem presentWord_reqS1 (w : PortWord) (s : State) : (presentWord w s).reqS1 = s.reqS1 := rfl
@[simp] theorem presentWord_reqS2 (w : PortWord) (s : State) : (presentWord w s).reqS2 = s.reqS2 := rfl
@[simp] theorem presentWord_ackW (w : PortWord) (s : State) : (presentWord w s).ackW = s.ackW := rfl
@[simp] theorem presentWord_Rw (w : PortWord) (s : State) : (presentWord w s).Rw = s.Rw := rfl
@[simp] theorem presentWord_R (w : PortWord) (s : State) : (presentWord w s).R = s.R := rfl
@[simp] theorem presentWord_ws1 (w : PortWord) (s : State) : (presentWord w s).ws1 = s.ws1 := rfl
@[simp] theorem presentWord_ws2 (w : PortWord) (s : State) : (presentWord w s).ws2 = s.ws2 := rfl
@[simp] theorem presentWord_reqR (w : PortWord) (s : State) : (presentWord w s).reqR = s.reqR := rfl
@[simp] theorem presentWord_Rhold (w : PortWord) (s : State) : (presentWord w s).Rhold = s.Rhold := rfl
@[simp] theorem presentWord_ackS1 (w : PortWord) (s : State) : (presentWord w s).ackS1 = s.ackS1 := rfl
@[simp] theorem presentWord_ackS2 (w : PortWord) (s : State) : (presentWord w s).ackS2 = s.ackS2 := rfl
@[simp] theorem presentWord_nReal (w : PortWord) (s : State) : (presentWord w s).nReal = s.nReal := rfl
@[simp] theorem presentWord_nZero (w : PortWord) (s : State) : (presentWord w s).nZero = s.nZero := rfl
@[simp] theorem presentWord_starved (w : PortWord) (s : State) : (presentWord w s).starved = s.starved := rfl
@[simp] theorem presentWord_ovf (w : PortWord) (s : State) : (presentWord w s).ovf = s.ovf := rfl
@[simp] theorem presentWord_underrunCount (w : PortWord) (s : State) : (presentWord w s).underrunCount = s.underrunCount := rfl
@[simp] theorem presentWord_dropCount (w : PortWord) (s : State) : (presentWord w s).dropCount = s.dropCount := rfl
@[simp] theorem presentWord_mem (w : PortWord) (s : State) : (presentWord w s).mem = s.mem := rfl
@[simp] theorem presentWord_oValid (w : PortWord) (s : State) : (presentWord w s).oValid = s.oValid := rfl
@[simp] theorem presentWord_oData (w : PortWord) (s : State) : (presentWord w s).oData = s.oData := rfl
@[simp] theorem presentWord_oSilence (w : PortWord) (s : State) : (presentWord w s).oSilence = s.oSilence := rfl
@[simp] theorem presentWord_oLast (w : PortWord) (s : State) : (presentWord w s).oLast = s.oLast := rfl
@[simp] theorem presentWord_trace (w : PortWord) (s : State) : (presentWord w s).trace = s.trace := rfl
@[simp] theorem presentWord_edges (w : PortWord) (s : State) : (presentWord w s).edges = .port w :: s.edges := rfl

/-! ### takeByte: the fields it leaves -/

@[simp] theorem takeByte_cfg (d : Byte) (s : State) : (takeByte d s).cfg = s.cfg := by unfold takeByte; split <;> rfl
@[simp] theorem takeByte_burstCount (d : Byte) (s : State) : (takeByte d s).burstCount = s.burstCount := by unfold takeByte; split <;> rfl
@[simp] theorem takeByte_reqS1 (d : Byte) (s : State) : (takeByte d s).reqS1 = s.reqS1 := by unfold takeByte; split <;> rfl
@[simp] theorem takeByte_reqS2 (d : Byte) (s : State) : (takeByte d s).reqS2 = s.reqS2 := by unfold takeByte; split <;> rfl
@[simp] theorem takeByte_ackW (d : Byte) (s : State) : (takeByte d s).ackW = s.ackW := by unfold takeByte; split <;> rfl
@[simp] theorem takeByte_Rw (d : Byte) (s : State) : (takeByte d s).Rw = s.Rw := by unfold takeByte; split <;> rfl
@[simp] theorem takeByte_R (d : Byte) (s : State) : (takeByte d s).R = s.R := by unfold takeByte; split <;> rfl
@[simp] theorem takeByte_ws1 (d : Byte) (s : State) : (takeByte d s).ws1 = s.ws1 := by unfold takeByte; split <;> rfl
@[simp] theorem takeByte_ws2 (d : Byte) (s : State) : (takeByte d s).ws2 = s.ws2 := by unfold takeByte; split <;> rfl
@[simp] theorem takeByte_reqR (d : Byte) (s : State) : (takeByte d s).reqR = s.reqR := by unfold takeByte; split <;> rfl
@[simp] theorem takeByte_Rhold (d : Byte) (s : State) : (takeByte d s).Rhold = s.Rhold := by unfold takeByte; split <;> rfl
@[simp] theorem takeByte_ackS1 (d : Byte) (s : State) : (takeByte d s).ackS1 = s.ackS1 := by unfold takeByte; split <;> rfl
@[simp] theorem takeByte_ackS2 (d : Byte) (s : State) : (takeByte d s).ackS2 = s.ackS2 := by unfold takeByte; split <;> rfl
@[simp] theorem takeByte_nReal (d : Byte) (s : State) : (takeByte d s).nReal = s.nReal := by unfold takeByte; split <;> rfl
@[simp] theorem takeByte_nZero (d : Byte) (s : State) : (takeByte d s).nZero = s.nZero := by unfold takeByte; split <;> rfl
@[simp] theorem takeByte_starved (d : Byte) (s : State) : (takeByte d s).starved = s.starved := by unfold takeByte; split <;> rfl
@[simp] theorem takeByte_ovf (d : Byte) (s : State) : (takeByte d s).ovf = s.ovf := by unfold takeByte; split <;> rfl
@[simp] theorem takeByte_underrunCount (d : Byte) (s : State) : (takeByte d s).underrunCount = s.underrunCount := by unfold takeByte; split <;> rfl
@[simp] theorem takeByte_dropCount (d : Byte) (s : State) : (takeByte d s).dropCount = s.dropCount := by unfold takeByte; split <;> rfl
@[simp] theorem takeByte_oValid (d : Byte) (s : State) : (takeByte d s).oValid = s.oValid := by unfold takeByte; split <;> rfl
@[simp] theorem takeByte_oData (d : Byte) (s : State) : (takeByte d s).oData = s.oData := by unfold takeByte; split <;> rfl
@[simp] theorem takeByte_oSilence (d : Byte) (s : State) : (takeByte d s).oSilence = s.oSilence := by unfold takeByte; split <;> rfl
@[simp] theorem takeByte_oLast (d : Byte) (s : State) : (takeByte d s).oLast = s.oLast := by unfold takeByte; split <;> rfl
@[simp] theorem takeByte_trace (d : Byte) (s : State) : (takeByte d s).trace = s.trace := by unfold takeByte; split <;> rfl
@[simp] theorem takeByte_edges (d : Byte) (s : State) : (takeByte d s).edges = s.edges := by unfold takeByte; split <;> rfl

/-! ### acceptNothing: the fields it leaves -/

@[simp] theorem acceptNothing_cfg (u : CatchUp) (s : State) : (acceptNothing u s).cfg = s.cfg := rfl
@[simp] theorem acceptNothing_W (u : CatchUp) (s : State) : (acceptNothing u s).W = s.W := rfl
@[simp] theorem acceptNothing_Wg (u : CatchUp) (s : State) : (acceptNothing u s).Wg = s.Wg := rfl
@[simp] theorem acceptNothing_loPending (u : CatchUp) (s : State) : (acceptNothing u s).loPending = s.loPending := rfl
@[simp] theorem acceptNothing_loByte (u : CatchUp) (s : State) : (acceptNothing u s).loByte = s.loByte := rfl
@[simp] theorem acceptNothing_burstCount (u : CatchUp) (s : State) : (acceptNothing u s).burstCount = s.burstCount := rfl
@[simp] theorem acceptNothing_reqS1 (u : CatchUp) (s : State) : (acceptNothing u s).reqS1 = s.reqS1 := rfl
@[simp] theorem acceptNothing_reqS2 (u : CatchUp) (s : State) : (acceptNothing u s).reqS2 = s.reqS2 := rfl
@[simp] theorem acceptNothing_ackW (u : CatchUp) (s : State) : (acceptNothing u s).ackW = s.ackW := rfl
@[simp] theorem acceptNothing_Rw (u : CatchUp) (s : State) : (acceptNothing u s).Rw = s.Rw := rfl
@[simp] theorem acceptNothing_R (u : CatchUp) (s : State) : (acceptNothing u s).R = s.R := rfl
@[simp] theorem acceptNothing_ws1 (u : CatchUp) (s : State) : (acceptNothing u s).ws1 = s.ws1 := rfl
@[simp] theorem acceptNothing_ws2 (u : CatchUp) (s : State) : (acceptNothing u s).ws2 = s.ws2 := rfl
@[simp] theorem acceptNothing_reqR (u : CatchUp) (s : State) : (acceptNothing u s).reqR = s.reqR := rfl
@[simp] theorem acceptNothing_Rhold (u : CatchUp) (s : State) : (acceptNothing u s).Rhold = s.Rhold := rfl
@[simp] theorem acceptNothing_ackS1 (u : CatchUp) (s : State) : (acceptNothing u s).ackS1 = s.ackS1 := rfl
@[simp] theorem acceptNothing_ackS2 (u : CatchUp) (s : State) : (acceptNothing u s).ackS2 = s.ackS2 := rfl
@[simp] theorem acceptNothing_nReal (u : CatchUp) (s : State) : (acceptNothing u s).nReal = s.nReal := rfl
@[simp] theorem acceptNothing_nZero (u : CatchUp) (s : State) : (acceptNothing u s).nZero = s.nZero := rfl
@[simp] theorem acceptNothing_starved (u : CatchUp) (s : State) : (acceptNothing u s).starved = s.starved := rfl
@[simp] theorem acceptNothing_ovf (u : CatchUp) (s : State) : (acceptNothing u s).ovf = s.ovf := rfl
@[simp] theorem acceptNothing_underrunCount (u : CatchUp) (s : State) : (acceptNothing u s).underrunCount = s.underrunCount := rfl
@[simp] theorem acceptNothing_dropCount (u : CatchUp) (s : State) : (acceptNothing u s).dropCount = s.dropCount := rfl
@[simp] theorem acceptNothing_mem (u : CatchUp) (s : State) : (acceptNothing u s).mem = s.mem := rfl
@[simp] theorem acceptNothing_oValid (u : CatchUp) (s : State) : (acceptNothing u s).oValid = s.oValid := rfl
@[simp] theorem acceptNothing_oData (u : CatchUp) (s : State) : (acceptNothing u s).oData = s.oData := rfl
@[simp] theorem acceptNothing_oSilence (u : CatchUp) (s : State) : (acceptNothing u s).oSilence = s.oSilence := rfl
@[simp] theorem acceptNothing_oLast (u : CatchUp) (s : State) : (acceptNothing u s).oLast = s.oLast := rfl
@[simp] theorem acceptNothing_trace (u : CatchUp) (s : State) : (acceptNothing u s).trace = s.trace := rfl
@[simp] theorem acceptNothing_edges (u : CatchUp) (s : State) : (acceptNothing u s).edges = s.edges := rfl

/-! ### acceptPull: the fields it leaves -/

@[simp] theorem acceptPull_cfg (u : CatchUp) (s : State) : (acceptPull u s).cfg = s.cfg := by unfold acceptPull; split <;> rfl
@[simp] theorem acceptPull_W (u : CatchUp) (s : State) : (acceptPull u s).W = s.W := by unfold acceptPull; split <;> rfl
@[simp] theorem acceptPull_Wg (u : CatchUp) (s : State) : (acceptPull u s).Wg = s.Wg := by unfold acceptPull; split <;> rfl
@[simp] theorem acceptPull_loPending (u : CatchUp) (s : State) : (acceptPull u s).loPending = s.loPending := by unfold acceptPull; split <;> rfl
@[simp] theorem acceptPull_loByte (u : CatchUp) (s : State) : (acceptPull u s).loByte = s.loByte := by unfold acceptPull; split <;> rfl
@[simp] theorem acceptPull_burstCount (u : CatchUp) (s : State) : (acceptPull u s).burstCount = s.burstCount := by unfold acceptPull; split <;> rfl
@[simp] theorem acceptPull_reqS1 (u : CatchUp) (s : State) : (acceptPull u s).reqS1 = s.reqS1 := by unfold acceptPull; split <;> rfl
@[simp] theorem acceptPull_reqS2 (u : CatchUp) (s : State) : (acceptPull u s).reqS2 = s.reqS2 := by unfold acceptPull; split <;> rfl
@[simp] theorem acceptPull_ackW (u : CatchUp) (s : State) : (acceptPull u s).ackW = s.ackW := by unfold acceptPull; split <;> rfl
@[simp] theorem acceptPull_Rw (u : CatchUp) (s : State) : (acceptPull u s).Rw = s.Rw := by unfold acceptPull; split <;> rfl
@[simp] theorem acceptPull_R (u : CatchUp) (s : State) : (acceptPull u s).R = s.R := by unfold acceptPull; split <;> rfl
@[simp] theorem acceptPull_ws1 (u : CatchUp) (s : State) : (acceptPull u s).ws1 = s.ws1 := by unfold acceptPull; split <;> rfl
@[simp] theorem acceptPull_ws2 (u : CatchUp) (s : State) : (acceptPull u s).ws2 = s.ws2 := by unfold acceptPull; split <;> rfl
@[simp] theorem acceptPull_reqR (u : CatchUp) (s : State) : (acceptPull u s).reqR = s.reqR := by unfold acceptPull; split <;> rfl
@[simp] theorem acceptPull_Rhold (u : CatchUp) (s : State) : (acceptPull u s).Rhold = s.Rhold := by unfold acceptPull; split <;> rfl
@[simp] theorem acceptPull_ackS1 (u : CatchUp) (s : State) : (acceptPull u s).ackS1 = s.ackS1 := by unfold acceptPull; split <;> rfl
@[simp] theorem acceptPull_ackS2 (u : CatchUp) (s : State) : (acceptPull u s).ackS2 = s.ackS2 := by unfold acceptPull; split <;> rfl
@[simp] theorem acceptPull_ovf (u : CatchUp) (s : State) : (acceptPull u s).ovf = s.ovf := by unfold acceptPull; split <;> rfl
@[simp] theorem acceptPull_dropCount (u : CatchUp) (s : State) : (acceptPull u s).dropCount = s.dropCount := by unfold acceptPull; split <;> rfl
@[simp] theorem acceptPull_mem (u : CatchUp) (s : State) : (acceptPull u s).mem = s.mem := by unfold acceptPull; split <;> rfl
@[simp] theorem acceptPull_oValid (u : CatchUp) (s : State) : (acceptPull u s).oValid = s.oValid := by unfold acceptPull; split <;> rfl
@[simp] theorem acceptPull_oData (u : CatchUp) (s : State) : (acceptPull u s).oData = s.oData := by unfold acceptPull; split <;> rfl
@[simp] theorem acceptPull_oSilence (u : CatchUp) (s : State) : (acceptPull u s).oSilence = s.oSilence := by unfold acceptPull; split <;> rfl
@[simp] theorem acceptPull_oLast (u : CatchUp) (s : State) : (acceptPull u s).oLast = s.oLast := by unfold acceptPull; split <;> rfl
@[simp] theorem acceptPull_trace (u : CatchUp) (s : State) : (acceptPull u s).trace = s.trace := by unfold acceptPull; split <;> rfl
@[simp] theorem acceptPull_edges (u : CatchUp) (s : State) : (acceptPull u s).edges = s.edges := by unfold acceptPull; split <;> rfl

/-! ### acceptRead: the fields it leaves -/

@[simp] theorem acceptRead_cfg (n : Nat) (u : CatchUp) (s : State) : (acceptRead n u s).cfg = s.cfg := rfl
@[simp] theorem acceptRead_W (n : Nat) (u : CatchUp) (s : State) : (acceptRead n u s).W = s.W := rfl
@[simp] theorem acceptRead_Wg (n : Nat) (u : CatchUp) (s : State) : (acceptRead n u s).Wg = s.Wg := rfl
@[simp] theorem acceptRead_loPending (n : Nat) (u : CatchUp) (s : State) : (acceptRead n u s).loPending = s.loPending := rfl
@[simp] theorem acceptRead_loByte (n : Nat) (u : CatchUp) (s : State) : (acceptRead n u s).loByte = s.loByte := rfl
@[simp] theorem acceptRead_burstCount (n : Nat) (u : CatchUp) (s : State) : (acceptRead n u s).burstCount = s.burstCount := rfl
@[simp] theorem acceptRead_reqS1 (n : Nat) (u : CatchUp) (s : State) : (acceptRead n u s).reqS1 = s.reqS1 := rfl
@[simp] theorem acceptRead_reqS2 (n : Nat) (u : CatchUp) (s : State) : (acceptRead n u s).reqS2 = s.reqS2 := rfl
@[simp] theorem acceptRead_ackW (n : Nat) (u : CatchUp) (s : State) : (acceptRead n u s).ackW = s.ackW := rfl
@[simp] theorem acceptRead_Rw (n : Nat) (u : CatchUp) (s : State) : (acceptRead n u s).Rw = s.Rw := rfl
@[simp] theorem acceptRead_R (n : Nat) (u : CatchUp) (s : State) : (acceptRead n u s).R = s.R := rfl
@[simp] theorem acceptRead_ws1 (n : Nat) (u : CatchUp) (s : State) : (acceptRead n u s).ws1 = s.ws1 := rfl
@[simp] theorem acceptRead_ws2 (n : Nat) (u : CatchUp) (s : State) : (acceptRead n u s).ws2 = s.ws2 := rfl
@[simp] theorem acceptRead_reqR (n : Nat) (u : CatchUp) (s : State) : (acceptRead n u s).reqR = s.reqR := rfl
@[simp] theorem acceptRead_Rhold (n : Nat) (u : CatchUp) (s : State) : (acceptRead n u s).Rhold = s.Rhold := rfl
@[simp] theorem acceptRead_ackS1 (n : Nat) (u : CatchUp) (s : State) : (acceptRead n u s).ackS1 = s.ackS1 := rfl
@[simp] theorem acceptRead_ackS2 (n : Nat) (u : CatchUp) (s : State) : (acceptRead n u s).ackS2 = s.ackS2 := rfl
@[simp] theorem acceptRead_starved (n : Nat) (u : CatchUp) (s : State) : (acceptRead n u s).starved = s.starved := rfl
@[simp] theorem acceptRead_ovf (n : Nat) (u : CatchUp) (s : State) : (acceptRead n u s).ovf = s.ovf := rfl
@[simp] theorem acceptRead_underrunCount (n : Nat) (u : CatchUp) (s : State) : (acceptRead n u s).underrunCount = s.underrunCount := rfl
@[simp] theorem acceptRead_dropCount (n : Nat) (u : CatchUp) (s : State) : (acceptRead n u s).dropCount = s.dropCount := rfl
@[simp] theorem acceptRead_mem (n : Nat) (u : CatchUp) (s : State) : (acceptRead n u s).mem = s.mem := rfl
@[simp] theorem acceptRead_oValid (n : Nat) (u : CatchUp) (s : State) : (acceptRead n u s).oValid = s.oValid := rfl
@[simp] theorem acceptRead_oData (n : Nat) (u : CatchUp) (s : State) : (acceptRead n u s).oData = s.oData := rfl
@[simp] theorem acceptRead_oSilence (n : Nat) (u : CatchUp) (s : State) : (acceptRead n u s).oSilence = s.oSilence := rfl
@[simp] theorem acceptRead_oLast (n : Nat) (u : CatchUp) (s : State) : (acceptRead n u s).oLast = s.oLast := rfl
@[simp] theorem acceptRead_trace (n : Nat) (u : CatchUp) (s : State) : (acceptRead n u s).trace = s.trace := rfl
@[simp] theorem acceptRead_edges (n : Nat) (u : CatchUp) (s : State) : (acceptRead n u s).edges = s.edges := rfl

/-! ### acceptClrs: the fields it leaves -/

@[simp] theorem acceptClrs_cfg (u : CatchUp) (s : State) : (acceptClrs u s).cfg = s.cfg := by unfold acceptClrs; split <;> rfl
@[simp] theorem acceptClrs_W (u : CatchUp) (s : State) : (acceptClrs u s).W = s.W := by unfold acceptClrs; split <;> rfl
@[simp] theorem acceptClrs_Wg (u : CatchUp) (s : State) : (acceptClrs u s).Wg = s.Wg := by unfold acceptClrs; split <;> rfl
@[simp] theorem acceptClrs_loPending (u : CatchUp) (s : State) : (acceptClrs u s).loPending = s.loPending := by unfold acceptClrs; split <;> rfl
@[simp] theorem acceptClrs_loByte (u : CatchUp) (s : State) : (acceptClrs u s).loByte = s.loByte := by unfold acceptClrs; split <;> rfl
@[simp] theorem acceptClrs_burstCount (u : CatchUp) (s : State) : (acceptClrs u s).burstCount = s.burstCount := by unfold acceptClrs; split <;> rfl
@[simp] theorem acceptClrs_reqS1 (u : CatchUp) (s : State) : (acceptClrs u s).reqS1 = s.reqS1 := by unfold acceptClrs; split <;> rfl
@[simp] theorem acceptClrs_reqS2 (u : CatchUp) (s : State) : (acceptClrs u s).reqS2 = s.reqS2 := by unfold acceptClrs; split <;> rfl
@[simp] theorem acceptClrs_ackW (u : CatchUp) (s : State) : (acceptClrs u s).ackW = s.ackW := by unfold acceptClrs; split <;> rfl
@[simp] theorem acceptClrs_Rw (u : CatchUp) (s : State) : (acceptClrs u s).Rw = s.Rw := by unfold acceptClrs; split <;> rfl
@[simp] theorem acceptClrs_R (u : CatchUp) (s : State) : (acceptClrs u s).R = s.R := by unfold acceptClrs; split <;> rfl
@[simp] theorem acceptClrs_ws1 (u : CatchUp) (s : State) : (acceptClrs u s).ws1 = s.ws1 := by unfold acceptClrs; split <;> rfl
@[simp] theorem acceptClrs_ws2 (u : CatchUp) (s : State) : (acceptClrs u s).ws2 = s.ws2 := by unfold acceptClrs; split <;> rfl
@[simp] theorem acceptClrs_reqR (u : CatchUp) (s : State) : (acceptClrs u s).reqR = s.reqR := by unfold acceptClrs; split <;> rfl
@[simp] theorem acceptClrs_Rhold (u : CatchUp) (s : State) : (acceptClrs u s).Rhold = s.Rhold := by unfold acceptClrs; split <;> rfl
@[simp] theorem acceptClrs_ackS1 (u : CatchUp) (s : State) : (acceptClrs u s).ackS1 = s.ackS1 := by unfold acceptClrs; split <;> rfl
@[simp] theorem acceptClrs_ackS2 (u : CatchUp) (s : State) : (acceptClrs u s).ackS2 = s.ackS2 := by unfold acceptClrs; split <;> rfl
@[simp] theorem acceptClrs_nReal (u : CatchUp) (s : State) : (acceptClrs u s).nReal = s.nReal := by unfold acceptClrs; split <;> rfl
@[simp] theorem acceptClrs_nZero (u : CatchUp) (s : State) : (acceptClrs u s).nZero = s.nZero := by unfold acceptClrs; split <;> rfl
@[simp] theorem acceptClrs_starved (u : CatchUp) (s : State) : (acceptClrs u s).starved = s.starved := by unfold acceptClrs; split <;> rfl
@[simp] theorem acceptClrs_underrunCount (u : CatchUp) (s : State) : (acceptClrs u s).underrunCount = s.underrunCount := by unfold acceptClrs; split <;> rfl
@[simp] theorem acceptClrs_dropCount (u : CatchUp) (s : State) : (acceptClrs u s).dropCount = s.dropCount := by unfold acceptClrs; split <;> rfl
@[simp] theorem acceptClrs_mem (u : CatchUp) (s : State) : (acceptClrs u s).mem = s.mem := by unfold acceptClrs; split <;> rfl
@[simp] theorem acceptClrs_oValid (u : CatchUp) (s : State) : (acceptClrs u s).oValid = s.oValid := by unfold acceptClrs; split <;> rfl
@[simp] theorem acceptClrs_oData (u : CatchUp) (s : State) : (acceptClrs u s).oData = s.oData := by unfold acceptClrs; split <;> rfl
@[simp] theorem acceptClrs_oSilence (u : CatchUp) (s : State) : (acceptClrs u s).oSilence = s.oSilence := by unfold acceptClrs; split <;> rfl
@[simp] theorem acceptClrs_oLast (u : CatchUp) (s : State) : (acceptClrs u s).oLast = s.oLast := by unfold acceptClrs; split <;> rfl
@[simp] theorem acceptClrs_trace (u : CatchUp) (s : State) : (acceptClrs u s).trace = s.trace := by unfold acceptClrs; split <;> rfl
@[simp] theorem acceptClrs_edges (u : CatchUp) (s : State) : (acceptClrs u s).edges = s.edges := by unfold acceptClrs; split <;> rfl

/-! ### acceptRsvd: the fields it leaves -/

@[simp] theorem acceptRsvd_cfg (u : CatchUp) (s : State) : (acceptRsvd u s).cfg = s.cfg := rfl
@[simp] theorem acceptRsvd_W (u : CatchUp) (s : State) : (acceptRsvd u s).W = s.W := rfl
@[simp] theorem acceptRsvd_Wg (u : CatchUp) (s : State) : (acceptRsvd u s).Wg = s.Wg := rfl
@[simp] theorem acceptRsvd_loPending (u : CatchUp) (s : State) : (acceptRsvd u s).loPending = s.loPending := rfl
@[simp] theorem acceptRsvd_loByte (u : CatchUp) (s : State) : (acceptRsvd u s).loByte = s.loByte := rfl
@[simp] theorem acceptRsvd_burstCount (u : CatchUp) (s : State) : (acceptRsvd u s).burstCount = s.burstCount := rfl
@[simp] theorem acceptRsvd_reqS1 (u : CatchUp) (s : State) : (acceptRsvd u s).reqS1 = s.reqS1 := rfl
@[simp] theorem acceptRsvd_reqS2 (u : CatchUp) (s : State) : (acceptRsvd u s).reqS2 = s.reqS2 := rfl
@[simp] theorem acceptRsvd_ackW (u : CatchUp) (s : State) : (acceptRsvd u s).ackW = s.ackW := rfl
@[simp] theorem acceptRsvd_Rw (u : CatchUp) (s : State) : (acceptRsvd u s).Rw = s.Rw := rfl
@[simp] theorem acceptRsvd_R (u : CatchUp) (s : State) : (acceptRsvd u s).R = s.R := rfl
@[simp] theorem acceptRsvd_ws1 (u : CatchUp) (s : State) : (acceptRsvd u s).ws1 = s.ws1 := rfl
@[simp] theorem acceptRsvd_ws2 (u : CatchUp) (s : State) : (acceptRsvd u s).ws2 = s.ws2 := rfl
@[simp] theorem acceptRsvd_reqR (u : CatchUp) (s : State) : (acceptRsvd u s).reqR = s.reqR := rfl
@[simp] theorem acceptRsvd_Rhold (u : CatchUp) (s : State) : (acceptRsvd u s).Rhold = s.Rhold := rfl
@[simp] theorem acceptRsvd_ackS1 (u : CatchUp) (s : State) : (acceptRsvd u s).ackS1 = s.ackS1 := rfl
@[simp] theorem acceptRsvd_ackS2 (u : CatchUp) (s : State) : (acceptRsvd u s).ackS2 = s.ackS2 := rfl
@[simp] theorem acceptRsvd_nReal (u : CatchUp) (s : State) : (acceptRsvd u s).nReal = s.nReal := rfl
@[simp] theorem acceptRsvd_nZero (u : CatchUp) (s : State) : (acceptRsvd u s).nZero = s.nZero := rfl
@[simp] theorem acceptRsvd_starved (u : CatchUp) (s : State) : (acceptRsvd u s).starved = s.starved := rfl
@[simp] theorem acceptRsvd_ovf (u : CatchUp) (s : State) : (acceptRsvd u s).ovf = s.ovf := rfl
@[simp] theorem acceptRsvd_underrunCount (u : CatchUp) (s : State) : (acceptRsvd u s).underrunCount = s.underrunCount := rfl
@[simp] theorem acceptRsvd_dropCount (u : CatchUp) (s : State) : (acceptRsvd u s).dropCount = s.dropCount := rfl
@[simp] theorem acceptRsvd_mem (u : CatchUp) (s : State) : (acceptRsvd u s).mem = s.mem := rfl
@[simp] theorem acceptRsvd_oValid (u : CatchUp) (s : State) : (acceptRsvd u s).oValid = s.oValid := rfl
@[simp] theorem acceptRsvd_oData (u : CatchUp) (s : State) : (acceptRsvd u s).oData = s.oData := rfl
@[simp] theorem acceptRsvd_oSilence (u : CatchUp) (s : State) : (acceptRsvd u s).oSilence = s.oSilence := rfl
@[simp] theorem acceptRsvd_oLast (u : CatchUp) (s : State) : (acceptRsvd u s).oLast = s.oLast := rfl
@[simp] theorem acceptRsvd_trace (u : CatchUp) (s : State) : (acceptRsvd u s).trace = s.trace := rfl
@[simp] theorem acceptRsvd_edges (u : CatchUp) (s : State) : (acceptRsvd u s).edges = s.edges := rfl

/-! ### The fields an assembler or a command writes -/

theorem takeByte_low (d : Byte) (s : State) (h : s.loPending = false) :
    takeByte d s = { s with loByte := d, loPending := true } := by simp [takeByte, h]

theorem takeByte_high (d : Byte) (s : State) (h : s.loPending = true) :
    takeByte d s = { writeSample (sampleOf d s.loByte) s with loPending := false } := by simp [takeByte, h]

theorem acceptPull_feeding (u : CatchUp) (s : State) (h : s.cfg.f ≤ u.d1) :
    acceptPull u s = { s with nReal := s.cfg.f, nZero := 0, starved := false } := by simp [acceptPull, h]

theorem acceptPull_starved (u : CatchUp) (s : State) (h : u.d1 < s.cfg.f) :
    acceptPull u s = { s with nReal := 0, nZero := s.cfg.f, starved := true, underrunCount := s.underrunCount + 1 } := by
  simp [acceptPull, Nat.not_le.mpr h]

@[simp] theorem acceptRead_nReal (n : Nat) (u : CatchUp) (s : State) : (acceptRead n u s).nReal = min n u.d1 := rfl
@[simp] theorem acceptRead_nZero (n : Nat) (u : CatchUp) (s : State) : (acceptRead n u s).nZero = n - min n u.d1 := rfl

theorem acceptClrs_ovf (u : CatchUp) (s : State) :
    (acceptClrs u s).ovf = if u.drop = 0 then false else s.ovf := by unfold acceptClrs; split <;> rfl

/-! ### The state right after reset -/

@[simp] theorem resetOf_cfg (k : Config) : (State.resetOf k).cfg = k := rfl
@[simp] theorem resetOf_W (k : Config) : (State.resetOf k).W = 0 := rfl
@[simp] theorem resetOf_Wg (k : Config) : (State.resetOf k).Wg = 0 := rfl
@[simp] theorem resetOf_loPending (k : Config) : (State.resetOf k).loPending = false := rfl
@[simp] theorem resetOf_loByte (k : Config) : (State.resetOf k).loByte = 0 := rfl
@[simp] theorem resetOf_burstCount (k : Config) : (State.resetOf k).burstCount = 0 := rfl
@[simp] theorem resetOf_reqS1 (k : Config) : (State.resetOf k).reqS1 = false := rfl
@[simp] theorem resetOf_reqS2 (k : Config) : (State.resetOf k).reqS2 = false := rfl
@[simp] theorem resetOf_ackW (k : Config) : (State.resetOf k).ackW = false := rfl
@[simp] theorem resetOf_Rw (k : Config) : (State.resetOf k).Rw = 0 := rfl
@[simp] theorem resetOf_R (k : Config) : (State.resetOf k).R = 0 := rfl
@[simp] theorem resetOf_ws1 (k : Config) : (State.resetOf k).ws1 = 0 := rfl
@[simp] theorem resetOf_ws2 (k : Config) : (State.resetOf k).ws2 = 0 := rfl
@[simp] theorem resetOf_reqR (k : Config) : (State.resetOf k).reqR = false := rfl
@[simp] theorem resetOf_Rhold (k : Config) : (State.resetOf k).Rhold = 0 := rfl
@[simp] theorem resetOf_ackS1 (k : Config) : (State.resetOf k).ackS1 = false := rfl
@[simp] theorem resetOf_ackS2 (k : Config) : (State.resetOf k).ackS2 = false := rfl
@[simp] theorem resetOf_nReal (k : Config) : (State.resetOf k).nReal = 0 := rfl
@[simp] theorem resetOf_nZero (k : Config) : (State.resetOf k).nZero = 0 := rfl
@[simp] theorem resetOf_starved (k : Config) : (State.resetOf k).starved = true := rfl
@[simp] theorem resetOf_ovf (k : Config) : (State.resetOf k).ovf = false := rfl
@[simp] theorem resetOf_underrunCount (k : Config) : (State.resetOf k).underrunCount = 0 := rfl
@[simp] theorem resetOf_dropCount (k : Config) : (State.resetOf k).dropCount = 0 := rfl
@[simp] theorem resetOf_mem (k : Config) : (State.resetOf k).mem = [] := rfl
@[simp] theorem resetOf_oValid (k : Config) : (State.resetOf k).oValid = false := rfl
@[simp] theorem resetOf_oData (k : Config) : (State.resetOf k).oData = 0 := rfl
@[simp] theorem resetOf_oSilence (k : Config) : (State.resetOf k).oSilence = false := rfl
@[simp] theorem resetOf_oLast (k : Config) : (State.resetOf k).oLast = false := rfl
@[simp] theorem resetOf_trace (k : Config) : (State.resetOf k).trace = [] := rfl
@[simp] theorem resetOf_edges (k : Config) : (State.resetOf k).edges = [] := rfl

end Sys2Proof.Machine
end

