-- ==== Sys2Proof/Laws/Ops.lean ====
section
/-! SUPPORT. What each shared operation can do, said once: the outcome of a meaning, the two steps in their cases, and the
one-line form of every arm of `exec`. -/

namespace Sys2Proof.Machine

/-- A meaning answers a next state exactly in a QSF, and it is the one its step computes. -/
theorem onQsf_next (s t u : State) : onQsf s t = .next u ↔ s.cfg.isQsf = true ∧ t = u := by
  unfold onQsf
  split <;> simp_all

theorem onQsf_of_qsf (s t : State) (h : s.cfg.isQsf = true) : onQsf s t = .next t := by simp [onQsf, h]

theorem onQsf_refuses (s t : State) (h : s.cfg.isQsf = false) : onQsf s t = .refused .notAQsf := by simp [onQsf, h]

/-! ### The write-domain step -/

/-- The byte action of a `wstep`. -/
def payloadAction (payload : Option Byte) (s : State) : State :=
  match payload with
  | some d => takeByte d s
  | none => s

/-- `wstep` as its three parts. -/
theorem wstep_eq (payload : Option Byte) (eob : Bool) (s : State) :
    wstep payload eob s =
      receiveHandshake (if eob then endBurst (payloadAction payload s) else payloadAction payload s) := rfl

theorem wstep_none (eob : Bool) (s : State) :
    wstep none eob s = receiveHandshake (if eob then endBurst s else s) := rfl

theorem wstep_low (d : Byte) (eob : Bool) (s : State) (h : s.loPending = false) :
    wstep (some d) eob s =
      receiveHandshake (if eob then endBurst { s with loByte := d, loPending := true }
        else { s with loByte := d, loPending := true }) := by
  simp only [wstep, takeByte_low d s h]

theorem wstep_high (d : Byte) (eob : Bool) (s : State) (h : s.loPending = true) :
    wstep (some d) eob s =
      receiveHandshake (if eob then endBurst { writeSample (sampleOf d s.loByte) s with loPending := false }
        else { writeSample (sampleOf d s.loByte) s with loPending := false }) := by
  simp only [wstep, takeByte_high d s h]

/-- Every `wstep` is the handshake receiver after a state that differs only in the byte assembler, the write cursor, the
storage and the burst counter. -/
theorem wstep_cases (payload : Option Byte) (eob : Bool) (s : State) :
    (∃ lo lb bc, wstep payload eob s =
      receiveHandshake { s with loPending := lo, loByte := lb, burstCount := bc }) ∨
    (∃ d bc, payload = some d ∧ s.loPending = true ∧ wstep payload eob s =
      receiveHandshake { writeSample (sampleOf d s.loByte) s with loPending := false, burstCount := bc }) := by
  cases payload with
  | none =>
    cases eob
    · exact .inl ⟨s.loPending, s.loByte, s.burstCount, rfl⟩
    · exact .inl ⟨false, s.loByte, s.burstCount + 1, rfl⟩
  | some d =>
    cases hl : s.loPending
    · rw [wstep_low d eob s hl]
      cases eob
      · exact .inl ⟨true, d, s.burstCount, rfl⟩
      · exact .inl ⟨false, d, s.burstCount + 1, rfl⟩
    · rw [wstep_high d eob s hl]
      cases eob
      · exact .inr ⟨d, s.burstCount, rfl, rfl, rfl⟩
      · exact .inr ⟨d, s.burstCount + 1, rfl, rfl, rfl⟩

/-! ### The read-domain step -/

theorem cReady_iff (s : State) : s.cReady = true ↔ s.nReal = 0 ∧ s.nZero = 0 := by simp [State.cReady]

/-- `c_ready` does not see catch-up. -/
@[simp] theorem cReady_applyCatchUp (u : CatchUp) (s : State) : (applyCatchUp u s).cReady = s.cReady := rfl

/-- A `rstep` at `c_ready = 1`: the command acts at once and nothing is emitted. -/
theorem rstep_idle (cmd : Command) (s : State) (h : s.cReady = true) :
    rstep cmd s =
      sendHandshake s.R (synchronise (emitNothing (cmd (catchUp s) (applyCatchUp (catchUp s) s)))) := by
  simp [rstep, acceptOrStream, h]

/-- A `rstep` with real samples left: one is emitted, whatever word is presented. -/
theorem rstep_real (cmd : Command) (s : State) (h : 0 < s.nReal) :
    rstep cmd s = sendHandshake s.R (synchronise (streamReal (catchUp s) (applyCatchUp (catchUp s) s))) := by
  have hc : s.cReady = false := by simp [State.cReady]; omega
  simp [rstep, acceptOrStream, hc, h]

/-- A `rstep` with only silence samples left: one is emitted, whatever word is presented. -/
theorem rstep_silence (cmd : Command) (s : State) (h0 : s.nReal = 0) (h : 0 < s.nZero) :
    rstep cmd s = sendHandshake s.R (synchronise (streamSilence (applyCatchUp (catchUp s) s))) := by
  have hc : s.cReady = false := by simp [State.cReady]; omega
  simp [rstep, acceptOrStream, hc, h0]

/-- The three cases of a `rstep`. -/
theorem rstep_cases (cmd : Command) (s : State) :
    (s.cReady = true ∧ rstep cmd s =
      sendHandshake s.R (synchronise (emitNothing (cmd (catchUp s) (applyCatchUp (catchUp s) s))))) ∨
    (0 < s.nReal ∧ rstep cmd s =
      sendHandshake s.R (synchronise (streamReal (catchUp s) (applyCatchUp (catchUp s) s)))) ∨
    (s.nReal = 0 ∧ 0 < s.nZero ∧ rstep cmd s =
      sendHandshake s.R (synchronise (streamSilence (applyCatchUp (catchUp s) s)))) := by
  by_cases hr : 0 < s.nReal
  · exact .inr (.inl ⟨hr, rstep_real cmd s hr⟩)
  · have h0 : s.nReal = 0 := by omega
    by_cases hz : 0 < s.nZero
    · exact .inr (.inr ⟨h0, hz, rstep_silence cmd s h0 hz⟩)
    · have hc : s.cReady = true := (cReady_iff s).mpr ⟨h0, by omega⟩
      exact .inl ⟨hc, rstep_idle cmd s hc⟩

/-! ### The arms -/

/-- The producer step of a transaction: its payload and its end of burst (30_encoding R145). -/
def producerParts : Instr → Option (Option Byte × Bool)
  | .pnop => some (none, false)
  | .byte d => some (some d, false)
  | .bytel d => some (some d, true)
  | .eob => some (none, true)
  | .cnop => none
  | .pull => none
  | .read _ => none
  | .clrs => none
  | .rsvd => none

/-- The command of a consumer transaction (30_encoding R146). -/
def commandOf : Instr → Option Command
  | .pnop => none
  | .byte _ => none
  | .bytel _ => none
  | .eob => none
  | .cnop => some acceptNothing
  | .pull => some acceptPull
  | .read n => some (acceptRead n)
  | .clrs => some acceptClrs
  | .rsvd => some acceptRsvd

/-- Every producer transaction is one `wstep`. -/
theorem exec_producer (i : Instr) (h : i.port = .producer) (s : State) :
    ∃ payload eob, producerParts i = some (payload, eob) ∧ exec i s = onQsf s (wstep payload eob s) := by
  cases i <;> first | exact ⟨_, _, rfl, rfl⟩ | exact absurd h (by decide) | (simp [Instr.port] at h)

/-- Every consumer transaction is one `rstep`. -/
theorem exec_consumer (i : Instr) (h : i.port = .consumer) (s : State) :
    ∃ cmd, commandOf i = some cmd ∧ exec i s = onQsf s (rstep cmd s) := by
  cases i <;> first | exact ⟨_, rfl, rfl⟩ | exact absurd h (by decide) | (simp [Instr.port] at h)

/-- What `exec` can answer: a next state only in a QSF, and then by a `wstep` or a `rstep`. -/
theorem exec_cases (i : Instr) (s t : State) (h : exec i s = .next t) :
    s.cfg.isQsf = true ∧
      ((i.port = .producer ∧ ∃ payload eob, producerParts i = some (payload, eob) ∧ t = wstep payload eob s) ∨
        (i.port = .consumer ∧ ∃ cmd, commandOf i = some cmd ∧ t = rstep cmd s)) := by
  cases hp : i.port with
  | producer =>
    obtain ⟨payload, eob, hpe, he⟩ := exec_producer i hp s
    obtain ⟨hq, ht⟩ := (onQsf_next s _ t).mp (he ▸ h)
    exact ⟨hq, .inl ⟨rfl, payload, eob, hpe, ht.symm⟩⟩
  | consumer =>
    obtain ⟨cmd, hc, he⟩ := exec_consumer i hp s
    obtain ⟨hq, ht⟩ := (onQsf_next s _ t).mp (he ▸ h)
    exact ⟨hq, .inr ⟨rfl, cmd, hc, ht.symm⟩⟩

/-- No accepted command writes the configuration, the coming edges or a register of the write domain. -/
theorem command_frame (i : Instr) (cmd : Command) (h : commandOf i = some cmd) (u : CatchUp) (s : State) :
    (cmd u s).cfg = s.cfg ∧ (cmd u s).edges = s.edges ∧ (cmd u s).mem = s.mem ∧ (cmd u s).W = s.W ∧ (cmd u s).Wg = s.Wg ∧
      (cmd u s).loPending = s.loPending ∧ (cmd u s).loByte = s.loByte ∧ (cmd u s).burstCount = s.burstCount ∧
      (cmd u s).reqS1 = s.reqS1 ∧ (cmd u s).reqS2 = s.reqS2 ∧ (cmd u s).ackW = s.ackW ∧ (cmd u s).Rw = s.Rw := by
  cases i <;> simp only [commandOf, Option.some.injEq, reduceCtorEq] at h <;> subst h <;> simp

end Sys2Proof.Machine
end

