-- ==== Sys2Proof/Laws/PerInstr.lean ====
section
/-! SUPPORT. One family over all transactions: the word the encoder writes for a well-formed transaction is a word of the
transaction's own port (30_encoding R140, R141, R142). -/

namespace Sys2Proof.Laws

/-- The port a word is presented on. -/
def wordPort : PortWord → Port
  | .producer _ => .producer
  | .consumer _ => .consumer

/-- A command word fits `3 + PW` bits when its code has two bits and its count has `PW`. -/
theorem commandWord_lt (pw cmd count : Nat) (hc : cmd < 4) (hn : count < 2 ^ pw) :
    commandWord pw cmd count < 2 ^ (pw + 3) := by
  have h1 : 2 ^ (pw + 2) = 4 * 2 ^ pw := by rw [Nat.pow_add]; omega
  have h2 : 2 ^ (pw + 3) = 8 * 2 ^ pw := by rw [Nat.pow_add]; omega
  have h3 : cmd * 2 ^ pw ≤ 3 * 2 ^ pw := Nat.mul_le_mul_right _ (by omega)
  unfold commandWord
  omega

end Sys2Proof.Laws

namespace Sys2Proof.Laws.EncodingFits

/-- The encoded word stands on the transaction's port and fits its width. -/
def Statement (i : Instr) : Prop :=
  ∀ k : Config, i.wf k = true → wordPort (encode k i) = i.port ∧ (encode k i).wf k = true

theorem pnop : Statement .pnop := fun _ _ => ⟨rfl, rfl⟩

theorem byte (d : Byte) : Statement (.byte d) := fun _ _ => ⟨rfl, rfl⟩

theorem bytel (d : Byte) : Statement (.bytel d) := fun _ _ => ⟨rfl, rfl⟩

theorem eob : Statement .eob := fun _ _ => ⟨rfl, rfl⟩

theorem cnop : Statement .cnop := fun k _ => ⟨rfl, decide_eq_true (Nat.two_pow_pos (k.pw + 3))⟩

theorem pull : Statement .pull := fun k _ =>
  ⟨rfl, decide_eq_true (commandWord_lt k.pw 0 0 (by decide) (Nat.two_pow_pos k.pw))⟩

theorem read (n : Nat) : Statement (.read n) := fun k h =>
  ⟨rfl, decide_eq_true (commandWord_lt k.pw 1 n (by decide) (of_decide_eq_true h))⟩

theorem clrs : Statement .clrs := fun k _ =>
  ⟨rfl, decide_eq_true (commandWord_lt k.pw 2 0 (by decide) (Nat.two_pow_pos k.pw))⟩

theorem rsvd : Statement .rsvd := fun k _ =>
  ⟨rfl, decide_eq_true (commandWord_lt k.pw 3 0 (by decide) (Nat.two_pow_pos k.pw))⟩

end Sys2Proof.Laws.EncodingFits
end

