-- ==== Sys2Proof/Laws/Step.lean ====
section
/-! SUPPORT. The step by the kind of the next edge, and a run as its first step and the rest. -/

namespace Sys2Proof.Machine

@[simp] theorem withEdges_withEdges (es es' : List Edge) (s : State) : withEdges es (withEdges es' s) = withEdges es s := rfl

@[simp] theorem withEdges_self (s : State) : withEdges s.edges s = s := rfl

theorem step_of_no_edge (s : State) (h : s.edges = []) : step s = idleStep s := by simp [step, nextEdge, h]

theorem step_of_reset (s : State) (es : List Edge) (h : s.edges = .reset :: es) :
    step s = resetStep (withEdges es s) := by simp [step, nextEdge, h]

theorem step_of_word (s : State) (w : PortWord) (es : List Edge) (h : s.edges = .port w :: es) :
    step s = stepWord w (withEdges es s) := by simp [step, nextEdge, h]

theorem stepWord_ok (w : PortWord) (i : Instr) (s : State) (h : decode s.cfg w = .ok i) : stepWord w s = exec i s := by
  simp [stepWord, h]

theorem stepWord_error (w : PortWord) (e : DecodeError) (s : State) (h : decode s.cfg w = .error e) :
    stepWord w s = .refused .notAPortWord := by simp [stepWord, h]

/-- What a step that answers a next state did: nothing, a reset, or the transaction of the presented word. -/
theorem step_cases (s t : State) (h : step s = .next t) :
    s.cfg.isQsf = true ∧
      ((s.edges = [] ∧ t = s) ∨
        (∃ es, s.edges = .reset :: es ∧ t = withEdges es (State.resetOf s.cfg)) ∨
        (∃ w es i, s.edges = .port w :: es ∧ decode s.cfg w = .ok i ∧ exec i (withEdges es s) = .next t)) := by
  cases he : s.edges with
  | nil =>
    rw [step_of_no_edge s he, idleStep, onQsf_next] at h
    exact ⟨h.1, .inl ⟨rfl, h.2.symm⟩⟩
  | cons e es =>
    cases e with
    | reset =>
      rw [step_of_reset s es he, resetStep, onQsf_next] at h
      exact ⟨h.1, .inr (.inl ⟨es, rfl, h.2.symm⟩)⟩
    | port w =>
      rw [step_of_word s w es he] at h
      cases hd : decode s.cfg w with
      | error err =>
        rw [stepWord_error w err (withEdges es s) hd] at h
        cases h
      | ok i =>
        rw [stepWord_ok w i (withEdges es s) hd] at h
        exact ⟨(exec_cases i _ t h).1, .inr (.inr ⟨w, es, i, rfl, hd, h⟩)⟩

/-! ### The waiting edges are no input of a meaning -/

/-- A `wstep` passes the waiting edges through. -/
theorem wstep_withEdges (payload : Option Byte) (eob : Bool) (s : State) (es : List Edge) :
    wstep payload eob (withEdges es s) = withEdges es (wstep payload eob s) := by
  cases payload with
  | none => cases eob <;> rfl
  | some d =>
    cases hl : s.loPending
    · rw [wstep_low d eob s hl, wstep_low d eob (withEdges es s) hl]
      cases eob <;> rfl
    · rw [wstep_high d eob s hl, wstep_high d eob (withEdges es s) hl]
      cases eob <;> rfl

/-- A command passes the waiting edges through. -/
theorem command_withEdges (i : Instr) (cmd : Command) (h : commandOf i = some cmd) (u : CatchUp) (s : State)
    (es : List Edge) : cmd u (withEdges es s) = withEdges es (cmd u s) := by
  cases i <;> simp only [commandOf, Option.some.injEq, reduceCtorEq] at h <;> subst h
  · rfl
  · rcases Nat.lt_or_ge u.d1 s.cfg.f with hf | hf
    · rw [acceptPull_starved u s hf, acceptPull_starved u (withEdges es s) hf]
      rfl
    · rw [acceptPull_feeding u s hf, acceptPull_feeding u (withEdges es s) hf]
      rfl
  · rfl
  · unfold acceptClrs
    split <;> rfl
  · rfl

/-- A `rstep` passes the waiting edges through. -/
theorem rstep_withEdges (i : Instr) (cmd : Command) (h : commandOf i = some cmd) (s : State) (es : List Edge) :
    rstep cmd (withEdges es s) = withEdges es (rstep cmd s) := by
  rcases rstep_cases cmd s with ⟨hc, e⟩ | ⟨hr, e⟩ | ⟨h0, hz, e⟩
  · rw [e, rstep_idle cmd (withEdges es s) hc]
    exact congrArg (fun t => sendHandshake s.R (synchronise (emitNothing t)))
      (command_withEdges i cmd h (catchUp s) (applyCatchUp (catchUp s) s) es)
  · rw [e, rstep_real cmd (withEdges es s) hr]
    rfl
  · rw [e, rstep_silence cmd (withEdges es s) h0 hz]
    rfl

/-- A meaning passes the waiting edges through. -/
theorem exec_withEdges (i : Instr) (s t : State) (es : List Edge) (h : exec i s = .next t) :
    exec i (withEdges es s) = .next (withEdges es t) := by
  obtain ⟨hq, ⟨hp, payload, eob, hpe, rfl⟩ | ⟨hp, cmd, hc, rfl⟩⟩ := exec_cases i s t h
  · obtain ⟨p', e', hpe', he⟩ := exec_producer i hp (withEdges es s)
    obtain ⟨rfl, rfl⟩ : p' = payload ∧ e' = eob := by simpa [hpe, eq_comm] using hpe'
    rw [he, onQsf_of_qsf (withEdges es s) _ hq, wstep_withEdges]
  · obtain ⟨c', hc', he⟩ := exec_consumer i hp (withEdges es s)
    obtain rfl : cmd = c' := by simpa [hc] using hc'
    rw [he, onQsf_of_qsf (withEdges es s) _ hq, rstep_withEdges i cmd hc]

/-- A meaning leaves the edges that wait. -/
theorem exec_edges (i : Instr) (s t : State) (h : exec i s = .next t) : t.edges = s.edges := by
  have h' := exec_withEdges i s t s.edges h
  rw [withEdges_self, h] at h'
  injection h' with h'
  rw [h', withEdges_edges]

/-! ### Runs -/

theorem play_nil (s : State) : play [] s = .next (withEdges [] s) := rfl

/-- A run does not see the edges that wait at its start. -/
@[simp] theorem play_withEdges (es es' : List Edge) (s : State) : play es (withEdges es' s) = play es s := rfl

/-- A run of a nonempty list whose first step answers is that step and the run of the rest. -/
theorem play_next (e : Edge) (es : List Edge) (s t : State) (h : step (withEdges (e :: es) s) = .next t)
    (ht : t.edges = es) : play (e :: es) s = play es t := by
  have hs : Sys2Proof.core.step (withEdges (e :: es) s) = .next t := h
  have hw : withEdges es t = t := by rw [← ht, withEdges_self]
  simp only [play, List.length_cons, Host.Core.run, hs, hw]
  rfl

/-- A run whose first edge presents a word of its port is that word's transaction and the run of the rest. -/
theorem play_word (w : PortWord) (i : Instr) (es : List Edge) (s t : State) (hd : decode s.cfg w = .ok i)
    (h : exec i s = .next t) : play (.port w :: es) s = play es t := by
  have h' := exec_withEdges i s t es h
  have hs : step (withEdges (.port w :: es) s) = .next (withEdges es t) := by
    rw [step_of_word _ w es rfl, withEdges_withEdges]
    exact (stepWord_ok w i (withEdges es s) hd).trans h'
  exact (play_next _ es s _ hs rfl).trans (play_withEdges es es t)

/-- A run whose first edge is a reset starts anew from the reset state. -/
theorem play_reset (es : List Edge) (s : State) (h : s.cfg.isQsf = true) :
    play (.reset :: es) s = play es (State.resetOf s.cfg) := by
  have hs : step (withEdges (.reset :: es) s) = .next (withEdges es (State.resetOf s.cfg)) := by
    rw [step_of_reset _ es rfl]
    exact onQsf_of_qsf _ _ h
  exact (play_next _ es s _ hs rfl).trans (play_withEdges es es _)

end Sys2Proof.Machine
end

