-- ==== Sys2Proof/Laws/Runs.lean ====
section
/-! SUPPORT. Runs in pieces: playing, following, watching and calling a list one element or one half at a time, and the runs of
00_scope R9 by their first words. -/

namespace Sys2Proof.Machine

/-- A step on the first of some edges is the same with other edges behind it. -/
theorem step_withEdges (e : Edge) (es fs : List Edge) (s t : State) (h : step (withEdges (e :: es) s) = .next t) :
    step (withEdges (e :: fs) s) = .next (withEdges fs t) := by
  obtain ⟨hq, ⟨he, _⟩ | ⟨es', he, rfl⟩ | ⟨w, es', i, he, hd, hx⟩⟩ := step_cases _ t h
  · cases he
  · cases he
    rw [step_of_reset _ fs rfl]
    exact onQsf_of_qsf _ _ hq
  · cases he
    have hx' := exec_withEdges i _ t fs hx
    rw [withEdges_withEdges, withEdges_withEdges] at hx'
    rw [step_of_word _ w fs rfl, withEdges_withEdges, stepWord_ok w i (withEdges fs s) hd]
    exact hx'

/-- A step leaves the edges behind the one it takes. -/
theorem step_edges (e : Edge) (es : List Edge) (s t : State) (h : step (withEdges (e :: es) s) = .next t) : t.edges = es := by
  have h' := step_withEdges e es es s t h
  rw [h] at h'
  injection h' with h'
  rw [h', withEdges_edges]

/-- Playing one list after another is playing both. -/
theorem play_append (es fs : List Edge) (s t : State) (h : play es s = .next t) : play (es ++ fs) s = play fs t := by
  induction es generalizing s with
  | nil =>
    rw [play_nil] at h
    injection h with h
    rw [← h, List.nil_append, play_withEdges]
  | cons e es ih =>
    cases hs : step (withEdges (e :: es) s) with
    | next u =>
      have hu := step_edges e es s u hs
      rw [play_next e es s u hs hu] at h
      rw [List.cons_append, play_next e (es ++ fs) s _ (step_withEdges e es (es ++ fs) s u hs) rfl, play_withEdges]
      exact ih u h
    | fault r =>
      have hs' : Sys2Proof.core.step (withEdges (e :: es) s) = .fault r := hs
      simp [play, Host.Core.run, hs'] at h
    | refused r =>
      have hs' : Sys2Proof.core.step (withEdges (e :: es) s) = .refused r := hs
      simp [play, Host.Core.run, hs'] at h

/-- A step on a word of its port. -/
theorem step_word (w : PortWord) (i : Instr) (s t : State) (hd : decode s.cfg w = .ok i) (h : exec i s = .next t) :
    step (withEdges [.port w] s) = .next (withEdges [] t) := by
  rw [step_of_word _ w [] rfl, withEdges_withEdges]
  exact (stepWord_ok w i (withEdges [] s) hd).trans (exec_withEdges i s t [] h)

/-! ### Counts along a run -/

@[simp] theorem follow_nil (s : State) (g : Counts) : follow [] s g = (s, g) := rfl

theorem follow_next (e : Edge) (es : List Edge) (s t : State) (g : Counts) (h : step (withEdges [e] s) = .next t) :
    follow (e :: es) s g = follow es t (g.after s e) := by simp [follow, h]

theorem follow_word (w : PortWord) (i : Instr) (es : List Edge) (s t : State) (g : Counts) (hd : decode s.cfg w = .ok i)
    (h : exec i s = .next t) : follow (.port w :: es) s g = follow es (withEdges [] t) (g.after s (.port w)) :=
  follow_next _ es s _ g (step_word w i s t hd h)

/-! ### What is watched along a schedule -/

@[simp] theorem watch_nil (s : State) (v : Watch) : watch [] s v = (s, v) := rfl

theorem watch_next (i : Instr) (is : List Instr) (s t : State) (v : Watch) (h : exec i s = .next t) :
    watch (i :: is) s v = watch is t (v.after s i) := by simp [watch, h]

theorem settledFrom_next (i : Instr) (is : List Instr) (s t : State) (v : Watch) (h : exec i s = .next t) :
    settledFrom (i :: is) s v =
      (meetsS1 s v i && meetsS2 s i && meetsS3 s v i && meetsS4 s v i && settledFrom is t (v.after s i)) := by
  simp [settledFrom, h]

/-! ### Reference calls -/

/-- Writing one list after another is writing both. -/
theorem RefState.write_append (vs us : List Sample) (r : RefState) : r.write (vs ++ us) = (r.write vs).write us := by
  induction vs generalizing r with
  | nil => rfl
  | cons v vs ih => exact ih (r.write1 v)

/-- Making one list of calls after another is making both. -/
theorem RefState.calls_append (cs ds : List RefCall) (r : RefState) :
    r.calls (cs ++ ds) = ((r.calls cs).1 ++ ((r.calls cs).2.calls ds).1, ((r.calls cs).2.calls ds).2) := by
  induction cs generalizing r with
  | nil => rfl
  | cons c cs ih => simp [RefState.calls, ih, List.append_assoc]

/-- The samples of a list of calls, one half at a time. -/
theorem samplesWritten_append (cs ds : List RefCall) :
    samplesWritten (cs ++ ds) = samplesWritten cs ++ samplesWritten ds := List.flatMap_append

/-- Whole samples before a further list of bytes stay the samples they are. -/
theorem samplesOf_append (bs ds : List Byte) (h : bs.length % 2 = 0) : samplesOf (bs ++ ds) = samplesOf bs ++ samplesOf ds := by
  match bs, h with
  | [], _ => rfl
  | [_], h => simp at h
  | low :: high :: rest, h =>
    simp only [List.cons_append, samplesOf]
    rw [samplesOf_append rest ds (by simp at h; omega)]

/-! ### Runs by their first words -/

theorem Run.first_succ (ρ : Run) (n : Nat) : ρ.first (n + 1) = ρ.first n ++ (ρ.word n).toList := by
  simp only [Run.first, List.range_succ, List.filterMap_append, List.append_cancel_left_eq, List.filterMap_cons,
    List.filterMap_nil]
  cases ρ.word n <;> rfl

theorem Run.after_word (k : Config) (ρ : Run) (n : Nat) (s : State) (w : PortWord) (h : ρ.after k n = .next s)
    (hw : ρ.word n = some w) : ρ.after k (n + 1) = step (withEdges [.port w] s) := by simp [Run.after, h, hw]

theorem Run.after_end (k : Config) (ρ : Run) (n : Nat) (s : State) (h : ρ.after k n = .next s) (hw : ρ.word n = none) :
    ρ.after k (n + 1) = .next s := by simp [Run.after, h, hw]

end Sys2Proof.Machine
end

