-- ==== Sys2Proof/Tests/Slice0.lean ====
section
/-! SUPPORT. The model's own tests: the checks of WellFormed refuse ill-formed terms, every transaction's word decodes, single
steps against the vectors of spec/95_test_vectors.md, and one named state or input that meets the hypotheses of each statement
of Certificates/Slice0/Obligations.lean. -/

namespace Sys2Proof.Tests

open Sys2Proof.Machine

/-- A small configuration: `AW = 2`, `C = 4`, `F = 2`, `PW = 3`. -/
def small : Config := Config.qsf 2 2

/-- The smallest configuration: `AW = 1`, `C = 2`, `F = 2`, `PW = 2`. -/
def tiny : Config := Config.qsf 1 2

/-- Whether an outcome is a next state that meets a check. -/
def isNext (o : Host.Outcome State Fault Refusal) (check : State → Bool) : Bool :=
  match o with
  | .next t => check t
  | .fault _ => false
  | .refused _ => false

/-- Whether an outcome is a refusal. -/
def isRefused (o : Host.Outcome State Fault Refusal) : Bool :=
  match o with
  | .next _ => false
  | .fault _ => false
  | .refused _ => true

/-! ### WellFormed and the refused configurations -/

theorem test_wf_refuses_a_wide_count : (Instr.read 8192).wf Config.reference = false := by decide
theorem test_wf_takes_the_widest_count : (Instr.read 8191).wf Config.reference = true := by decide
theorem test_wf_refuses_a_wide_consumer_word : (PortWord.consumer 0x10000).wf Config.reference = false := by decide
theorem test_wf_takes_the_widest_consumer_word : (PortWord.consumer 0xFFFF).wf Config.reference = true := by decide
theorem test_wf_refuses_an_edge_of_a_wide_word : (Edge.port (.consumer 64)).wf small = false := by decide
theorem test_reference_is_a_qsf : Config.reference.isQsf = true ∧ Config.reference = Config.qsf 12 512 := by decide
theorem test_reference_name : Config.reference.name = "QSF-AW12-F512" := by decide
theorem test_refuses_aw_zero : (Config.qsf 0 1).isQsf = false := by decide
theorem test_refuses_a_capacity_that_is_no_power : ({ small with c := 3 } : Config).isQsf = false := by decide
theorem test_refuses_a_frame_of_zero : ({ small with f := 0 } : Config).isQsf = false := by decide
theorem test_refuses_a_frame_above_capacity : ({ small with f := 5 } : Config).isQsf = false := by decide
theorem test_refuses_another_cursor_width : ({ small with pw := 4 } : Config).isQsf = false := by decide

/-! ### Decode: words written out from the spec's encodings (30_encoding R152; 95_test_vectors EV1 to EV8) -/

theorem test_decode_pnop : decode Config.reference (.producer 0b0_0_00000000) = .ok .pnop := by decide
theorem test_decode_pnop_dont_care : decode Config.reference (.producer 0b0_0_11111111) = .ok .pnop := by decide
theorem test_decode_byte : decode Config.reference (.producer 0b1_0_01100100) = .ok (.byte 0x64) := by decide
theorem test_decode_bytel : decode Config.reference (.producer 0b1_1_10101011) = .ok (.bytel 0xAB) := by decide
theorem test_decode_eob : decode Config.reference (.producer 0b0_1_00000000) = .ok .eob := by decide
theorem test_decode_eob_dont_care : decode Config.reference (.producer 0b0_1_10101010) = .ok .eob := by decide
theorem test_decode_cnop : decode Config.reference (.consumer 0b0_00_0000000000000) = .ok .cnop := by decide
theorem test_decode_cnop_dont_care : decode Config.reference (.consumer 0b0_11_1111111111111) = .ok .cnop := by decide
theorem test_decode_pull : decode Config.reference (.consumer 0b1_00_0000000000000) = .ok .pull := by decide
theorem test_decode_pull_dont_care : decode Config.reference (.consumer 0b1_00_1111111111111) = .ok .pull := by decide
theorem test_decode_read : decode Config.reference (.consumer 0b1_01_0000000000101) = .ok (.read 5) := by decide
theorem test_decode_clrs : decode Config.reference (.consumer 0b1_10_0000000000000) = .ok .clrs := by decide
theorem test_decode_rsvd : decode Config.reference (.consumer 0b1_11_0000000000000) = .ok .rsvd := by decide
theorem test_decode_read_of_six_bits : decode small (.consumer 0x2E) = .ok (.read 6) := by decide
theorem test_decode_commands_of_six_bits : decode small (.consumer 0x20) = .ok .pull ∧
    decode small (.consumer 0x30) = .ok .clrs ∧ decode small (.consumer 0x38) = .ok .rsvd := by decide
theorem test_decode_refuses_a_wide_word : decode small (.consumer 0x40) = .error .consumerWordTooWide := by decide
theorem test_encode_worked : encode Config.reference (.byte 0x64) = .producer 0x264 ∧
    encode Config.reference (.bytel 0xAB) = .producer 0x3AB ∧ encode Config.reference (.read 8191) = .consumer 0xBFFF ∧
    encode Config.reference .rsvd = .consumer 0xE000 := by decide
theorem test_table_words : decodeTableWord 16 0x200 = some (.byte 0) ∧ decodeTableWord 16 0x100 = some .eob ∧
    decodeTableWord 16 0xA000 = some (.read 0) ∧ decodeTableWord 16 0 = some .cnop ∧ decodeTableWord 8 0 = some .pnop := by
  decide

/-- The word stored by `withFetchWord` is the one the next step runs. -/
theorem test_fetch_word : isNext (step (State.reset.withFetchWord 16 0x264))
    (fun t => t.loPending && t.loByte == 0x64 && t.edges == []) = true := by decide

/-! ### Single steps (95_test_vectors L2; the vector's name is in the theorem's) -/

/-- The reset state of the reference configuration with a pending low byte and the write cursor at `w`. -/
def pending (low : Byte) (w : Nat) : State := { State.reset with loPending := true, loByte := low, W := w }

/-- The reset state of the reference configuration with the read domain's view of the write cursor at `ws`. -/
def seen (ws : Nat) : State := { State.reset with ws2 := bin2gray ws }

theorem test_pv11_pnop_captures :
    isNext (exec .pnop { State.reset with reqS2 := true, reqS1 := true, reqR := true, Rhold := 37 })
      (fun t => t.Rw == 37 && t.ackW && t.reqS2 && t.reqS1) = true := by decide
theorem test_pv3_byte_writes : isNext (exec (.byte 0x12) (pending 0x34 7))
    (fun t => memRead t.mem 7 == 0x1234 && t.W == 8 && t.Wg == 0x00C && !t.loPending && t.burstCount == 0) = true := by decide
theorem test_pv8_byte_wraps : isNext (exec (.byte 0x80) { pending 0x00 8191 with Wg := 0x1000 })
    (fun t => memRead t.mem 4095 == 0x8000 && t.W == 0 && t.Wg == 0) = true := by decide
theorem test_pv4_bytel_writes : isNext (exec (.bytel 0xAB) (pending 0xCD 7))
    (fun t => memRead t.mem 7 == 0xABCD && t.W == 8 && !t.loPending && t.burstCount == 1) = true := by decide
theorem test_pv5_bytel_discards : isNext (exec (.bytel 0xAB) State.reset)
    (fun t => t.W == 0 && !t.loPending && t.loByte == 0xAB && t.burstCount == 1 && t.mem == []) = true := by decide
theorem test_pv6_eob_discards : isNext (exec .eob (pending 0x55 7))
    (fun t => !t.loPending && t.W == 7 && t.burstCount == 1) = true := by decide
theorem test_pv10_eob_wraps : isNext (exec .eob { State.reset with burstCount := 0xFFFFFFFF })
    (fun t => t.burstCount == 0) = true := by decide
theorem test_pv9_full_is_overwritten :
    isNext (exec (.byte 0x02) { pending 0x01 4096 with mem := [(0, 0x77), (1, 0x77)] })
      (fun t => memRead t.mem 0 == 0x0201 && t.W == 4097 && t.wFill == 4096 && t.wFull) = true := by decide
theorem test_pv13_fill_wraps : ({ State.reset with W := 4000, Rw := 8000 } : State).wFill = 4096 ∧
    ({ State.reset with W := 4000, Rw := 8000 } : State).wFull = true := by decide
theorem test_cv25_avail_wraps : ({ seen 3 with R := 8190 } : State).rAvail = 5 := by decide

theorem test_cv1_cnop : isNext (exec .cnop State.reset)
    (fun t => t == { State.reset with reqR := true }) = true := by decide
theorem test_cv16_cnop_catches_up : isNext (exec .cnop (seen 5000))
    (fun t => t.R == 904 && t.dropCount == 904 && t.ovf && !t.oValid) = true := by decide
theorem test_cv17_no_drop_at_capacity : isNext (exec .cnop (seen 4096))
    (fun t => t.R == 0 && t.dropCount == 0 && !t.ovf) = true := by decide
theorem test_cv2_pull_feeds : isNext (exec .pull (seen 512))
    (fun t => t.nReal == 512 && t.nZero == 0 && !t.starved && !t.cReady && !t.oValid) = true := by decide
theorem test_cv3_pull_starves : isNext (exec .pull (seen 511))
    (fun t => t.nReal == 0 && t.nZero == 512 && t.starved && t.underrunCount == 1 && t.R == 0) = true := by decide
theorem test_cv5_read_splits : isNext (exec (.read 5) (seen 3)) (fun t => t.nReal == 3 && t.nZero == 2) = true := by decide
theorem test_cv6_read_of_none : isNext (exec (.read 0) (seen 3)) (fun t => t.cReady && !t.oValid) = true := by decide
theorem test_cv8_clrs_clears : isNext (exec .clrs { seen 10 with ovf := true }) (fun t => !t.ovf) = true := by decide
theorem test_cv9_clrs_loses_to_a_drop : isNext (exec .clrs { seen 4097 with ovf := true })
    (fun t => t.R == 1 && t.dropCount == 1 && t.ovf) = true := by decide
theorem test_cv11_rsvd : isNext (exec .rsvd (seen 5)) (fun t => t.cReady && t.R == 0 && !t.ovf) = true := by decide
theorem test_cv4_busy_emits : isNext (exec .pull { seen 600 with R := 10, nReal := 3, mem := [(20, 0xEF), (21, 0xBE)] })
    (fun t => t.oValid && t.oData == 0xBEEF && !t.oSilence && !t.oLast && t.R == 11 && t.nReal == 2) = true := by decide
theorem test_cv20_catch_up_in_a_frame : isNext (exec .cnop { seen 4100 with nReal := 2, mem := [(8, 0x44)] })
    (fun t => t.oData == 0x0044 && !t.oLast && t.R == 5 && t.dropCount == 4) = true := by decide
theorem test_cv14_last_silence : isNext (exec .cnop { State.reset with nZero := 1 })
    (fun t => t.oValid && t.oData == 0 && t.oSilence && t.oLast && t.cReady) = true := by decide
theorem test_sv3_gray : bin2gray 2 = 3 ∧ bin2gray 3 = 2 ∧ bin2gray 4095 = 0x0800 ∧ bin2gray 4096 = 0x1800 ∧
    bin2gray 8191 = 0x1000 ∧ gray2bin 13 0x1000 = 8191 := by decide

/-- RV1: a reset edge at a state with every kind of register written. -/
theorem test_rv1_reset :
    isNext (step { pending 0x12 9 with nReal := 3, ovf := true, starved := false, mem := [(0, 1)], edges := [.reset] })
      (fun t => t == State.reset) = true := by decide
theorem test_step_refuses_a_wide_word : isRefused (step { State.resetOf small with edges := [.port (.consumer 64)] }) = true := by
  decide
theorem test_step_refuses_no_qsf : isRefused (step (State.resetOf { small with f := 0 })) = true := by decide

/-! ### The reference model (95_test_vectors MV1 to MV6) -/

/-- A reference state of `C = 4`, `F = 2`. -/
def refFull : RefState := { RefState.create 4 2 with storage := [5, 6, 7, 8], available := 4, writeCursor := 1, readCursor := 1 }

theorem test_mv1_write_drops : (refFull.write1 0x99) =
    { refFull with storage := [5, 0x99, 7, 8], writeCursor := 2, readCursor := 2, overflowCount := 1 } := by decide
theorem test_mv2_read_pads : (({ refFull with available := 1, writeCursor := 2 } : RefState).read 3).1 =
    [⟨6, false⟩, ⟨0, true⟩, ⟨0, true⟩] := by decide
theorem test_mv3_pull_starves : (({ refFull with available := 1, writeCursor := 2 } : RefState).pull).1 =
    [⟨0, true⟩, ⟨0, true⟩] := by decide
theorem test_mv4_pull_feeds : (({ refFull with available := 2, writeCursor := 3 } : RefState).pull).1 =
    [⟨6, false⟩, ⟨7, false⟩] := by decide
theorem test_mv5_burst : (RefState.create 4 2).onBurst [0x01, 0x00, 0x02, 0x00, 0x03] =
    { RefState.create 4 2 with storage := [1, 2, 0, 0], writeCursor := 2, available := 2, burstCounter := 1 } := by decide
theorem test_settle_is_ten_pairs : settleLines.length = 20 ∧ doLines small .pull = [.tx .pull, .tx .cnop, .tx .cnop] ∧
    burstLines [0x1234] = [.tx (.byte 0x34), .tx (.bytel 0x12)] ∧ burstLines [] = [.tx .eob] := by decide

/-! ### Witnesses: concrete inputs that meet the hypotheses of the statements -/

theorem test_witness_DecodeGivesBackEncode : (Instr.read 0).wf small = true ∧ (Instr.read 7).wf small = true ∧
    (Instr.byte 0xFF).wf small = true := by decide
theorem test_witness_EveryWordDecodesByItsFields : (0 < 4 ∧ 0 < 2 ^ small.pw) ∧ (3 < 4 ∧ 7 < 2 ^ small.pw) ∧
    0 < 2 ^ (small.pw + 3) ∧ 63 < 2 ^ (small.pw + 3) ∧ 63 = 1 * 2 ^ (small.pw + 2) + 3 * 2 ^ small.pw + 7 := by decide

/-- A state of the small configuration at which a `PULL` is presented and a reset waits behind it. -/
def presented : State := { State.resetOf small with edges := [.port (.consumer 0x20), .reset] }

theorem test_witness_StepRunsThePresentedTransaction :
    presented.edges = .port (.consumer 0x20) :: [.reset] ∧ decode presented.cfg (.consumer 0x20) = .ok .pull := by decide
theorem test_witness_StepWithoutAPortWord :
    ((State.resetOf small).cfg.isQsf = true ∧ (State.resetOf small).edges = []) ∧
    (({ State.resetOf small with edges := [.port (.consumer 64)] } : State).edges = .port (.consumer 64) :: [] ∧
      2 ^ (small.pw + 3) ≤ 64) ∧
    (({ State.resetOf small with edges := [.reset] } : State).edges = .reset :: []) := by decide

theorem three_is_no_power (n : Nat) : 3 ≠ 2 ^ n := by
  rcases n with _ | _ | n
  · decide
  · decide
  · rw [Nat.pow_succ, Nat.pow_succ]
    have := Nat.two_pow_pos n
    omega

theorem test_witness_RefusedConfigurationsHaveNoMeaning :
    (∀ n, ({ small with c := 3 } : Config).c ≠ 2 ^ n) ∧ ({ small with f := 5 } : Config).c < ({ small with f := 5 } : Config).f ∧
    ({ small with f := 0 } : Config).f = 0 ∧ ({ small with pw := 4 } : Config).pw ≠ ({ small with pw := 4 } : Config).aw + 1 :=
  ⟨three_is_no_power, by decide, by decide, by decide⟩
theorem test_witness_EveryStepIsTotal : (presented.cfg.isQsf = true ∧ ∀ e ∈ presented.edges, e.wf presented.cfg = true) ∧
    (Edge.port (.consumer 63)).wf small = true ∧ (Edge.port (.producer 1023)).wf small = true := by decide
theorem test_witness_ResetSetsEveryRegister : ({ pending 0x12 9 with edges := [.reset, .port (.consumer 0)] } : State).cfg.isQsf =
    true ∧ ({ pending 0x12 9 with edges := [.reset, .port (.consumer 0)] } : State).edges =
      .reset :: [.port (.consumer 0)] := by decide
/-- For every statement whose only hypothesis is that the configuration is a QSF (`StatusAfterReset`,
`ResetMeetsTheInvariants`, `PnopOnlyReceivesTheHandshake`, `EobEndsTheBurst`, `IndicationsGateNothing`): the smallest frame, a
frame as large as the capacity, and the reference. -/
theorem test_witness_of_a_qsf : (Config.qsf 1 1).isQsf = true ∧ tiny.isQsf = true ∧ small.isQsf = true ∧
    Config.reference.isQsf = true := by decide
/-- For `ByteStartsOrCompletesASample` and `BytelEndsTheBurst`, both clauses. -/
theorem test_witness_of_a_byte : (State.reset.cfg.isQsf = true ∧ State.reset.loPending = false) ∧
    ((pending 0x34 8191).cfg.isQsf = true ∧ (pending 0x34 8191).loPending = true ∧
      Memory.wf (pending 0x34 8191).mem = true) := by decide

/-- A burst of five bytes with a `PNOP` and a consumer word inside it. -/
def oddBurst : List Instr := [.byte 1, .pnop, .byte 2, .pull, .byte 3, .byte 4, .bytel 5]

theorem test_witness_BurstWritesItsSamplesInOrder : (State.resetOf small).cfg.isQsf = true ∧
    (State.resetOf small).loPending = false ∧ (State.resetOf small).W < 2 ^ (State.resetOf small).cfg.pw ∧
    (∀ i ∈ oddBurst, i.wf small = true) ∧ oneBurst oddBurst = true ∧ oneBurst [.eob] = true ∧
    samplesOf (bytesOf oddBurst) = [0x0201, 0x0403] := by decide
/-- Six producer words that each carry a byte, with a consumer word between. -/
def sixBytes : List PortWord := List.replicate 3 (.producer 0x264) ++ [.consumer 0x20] ++ List.replicate 3 (.producer 0x264)

theorem test_witness_AtMostOneSamplePerTwoWsteps : (State.resetOf small).cfg.isQsf = true ∧
    (State.resetOf small).W < 2 ^ (State.resetOf small).cfg.pw ∧ (∀ w ∈ sixBytes, w.wf small = true) ∧
    (producerWords sixBytes).length = 2 * small.c - 2 ∧ samplesIn false (producerWords sixBytes) = small.c - 1 ∧
    samplesIn true (List.replicate 5 0x264) = 3 := by decide
theorem test_witness_rateClockCondition : rateClockCondition small 6 := by
  unfold rateClockCondition
  decide

/-- A state of the small configuration with `Ws = ws`, `R = r` and the given counts left. -/
def reading (ws r nReal nZero : Nat) : State :=
  { State.resetOf small with ws2 := bin2gray ws, R := r, nReal := nReal, nZero := nZero }

/-- For `CatchUpDropsTheOldest`: one more than `C` unread samples, and exactly `C`. -/
theorem test_witness_CatchUpDropsTheOldest : (reading 5 0 0 0).cfg.isQsf = true ∧ Instr.cnop.port = .consumer ∧
    (reading 5 0 0 0).cfg.c < subP (reading 5 0 0 0).cfg (reading 5 0 0 0).Ws (reading 5 0 0 0).R ∧
    subP (reading 4 0 0 0).cfg (reading 4 0 0 0).Ws (reading 4 0 0 0).R = (reading 4 0 0 0).cfg.c ∧
    Instr.clrs.port = .consumer ∧ (reading 4 0 0 0).cReady = true := by decide
/-- For `CnopPresentsNoCommand` (both clauses), `PullDecidesAllOrNothing`, `ReadSplitsItsCount`, `ClrsClearsUnlessDropping` and `RsvdHasNoEffect`:
`c_ready = 1` with exactly a frame available, with one sample less, and with samples to drop; the counts 0 and `2^PW - 1`. -/
theorem test_witness_of_a_command :
    ((reading 2 0 0 0).cfg.isQsf = true ∧ (reading 2 0 0 0).cReady = true ∧ (reading 2 0 0 0).cfg.f = (reading 2 0 0 0).rAvail) ∧
    ((reading 1 0 0 0).cReady = true ∧ (reading 1 0 0 0).rAvail < (reading 1 0 0 0).cfg.f) ∧
    ((reading 5 0 0 0).cReady = true ∧ 0 < (reading 5 0 0 0).toDrop) ∧ 0 < 2 ^ small.pw ∧ 7 < 2 ^ small.pw ∧
    (reading 2 0 1 0).cReady = false ∧ (reading 2 0 0 1).cReady = false ∧ 31 < 2 ^ (small.pw + 2) := by decide
/-- For `RealStepEmitsTheSampleAtTheCursor`: the last sample of a command, one before silence, and one that drops. -/
theorem test_witness_RealStepEmitsTheSampleAtTheCursor : (reading 1 0 1 0).cfg.isQsf = true ∧ Instr.pull.port = .consumer ∧
    0 < (reading 1 0 1 0).nReal ∧ 0 < (reading 1 0 1 1).nReal ∧ 0 < (reading 5 0 2 0).nReal := by decide
theorem test_witness_SilenceStepEmitsZero : (reading 0 0 0 1).cfg.isQsf = true ∧ Instr.clrs.port = .consumer ∧
    (reading 0 0 0 1).nReal = 0 ∧ 0 < (reading 0 0 0 1).nZero := by decide
/-- For `PullEmitsOneWholeFrame` (both decisions) and `ReadEmitsExactlyItsCount` (`READ 2` and `READ 0`). -/
theorem test_witness_of_a_stream : (reading 2 0 0 0).cfg.isQsf = true ∧ (reading 2 0 0 0).cReady = true ∧
    (∀ i ∈ [Instr.pnop, .cnop, .byte 1, .read 7], i.wf small = true) ∧
    [Instr.pnop, .cnop, .byte 1, .read 7].countP onConsumer = small.f ∧ [Instr.pnop].countP onConsumer = 0 ∧
    2 < 2 ^ small.pw ∧ (reading 1 0 0 0).cReady = true := by decide
theorem test_witness_BusyStepIgnoresTheWord : (reading 2 0 1 0).cReady = false ∧ Instr.pull.port = .consumer ∧
    Instr.rsvd.port = .consumer := by decide
/-- For `CommandsOccupyTheirDuration`: in the middle of a `PULL`, at the end of a `READ 5`, and a command of no sample. -/
theorem test_witness_CommandsOccupyTheirDuration : (reading 2 0 0 0).cReady = true ∧ Instr.pull.wf small = true ∧
    [Instr.pnop, .cnop].countP onConsumer ≤ commandLength small .pull ∧
    (List.replicate 5 Instr.cnop).countP onConsumer = commandLength small (.read 5) ∧
    [Instr.pnop].countP onConsumer ≤ commandLength small .clrs := by decide
theorem test_witness_DomainsWriteOnlyTheirOwn : isNext (exec .pull (reading 2 0 0 0)) (fun _ => true) = true ∧
    isNext (exec .eob (reading 2 0 0 0)) (fun _ => true) = true := by decide

/-- The state `reading 2 0 1 0` with another write domain behind the same `Wg` and `ack_w`. -/
def otherWriter : State := { reading 2 0 1 0 with W := 3, loPending := true, burstCount := 9 }

/-- The state `reading 2 0 1 0` with another read domain behind the same `req_r` and `R_hold`. -/
def otherReader : State := { reading 2 0 1 0 with R := 3, ws1 := 1, nReal := 0, ovf := true }

theorem test_witness_DomainsSeeOnlyTheCrossings_rstep : (reading 2 0 1 0).cfg.isQsf = true ∧ Instr.cnop.port = .consumer ∧
    otherWriter.cfg = (reading 2 0 1 0).cfg ∧ SameReadDomain (reading 2 0 1 0) otherWriter ∧
    otherWriter.Wg = (reading 2 0 1 0).Wg ∧ otherWriter.ackW = (reading 2 0 1 0).ackW := by decide
theorem test_witness_same_storage : SameStorage (reading 2 0 1 0) otherWriter := fun _ => rfl
theorem test_witness_DomainsSeeOnlyTheCrossings_wstep : Instr.eob.port = .producer ∧ otherReader.cfg = (reading 2 0 1 0).cfg ∧
    SameWriteDomain (reading 2 0 1 0) otherReader ∧ otherReader.reqR = (reading 2 0 1 0).reqR ∧
    otherReader.Rhold = (reading 2 0 1 0).Rhold ∧ otherReader.mem = (reading 2 0 1 0).mem := by decide
theorem test_witness_GrayCodeInvertsAndStepsOneBit : 1 ≤ small.pw ∧ 7 < 2 ^ small.pw ∧ 0 < 2 ^ small.pw := by decide
/-- A request under way: sent, and not yet seen by the write domain. -/
def requested : State := { State.resetOf small with reqR := true }

/-- A request about to be captured. -/
def arrived : State := { State.resetOf small with reqR := true, reqS1 := true, reqS2 := true, Rhold := 3, R := 5 }

theorem test_witness_HandshakeStaysInOrder : requested.HandshakeInOrder ∧ arrived.HandshakeInOrder ∧
    isNext (step requested) (fun _ => true) = true := by decide
/-- Both clauses: a `rstep` that sends, and a `wstep` that captures. -/
theorem test_witness_HeldBundleIsStable : (State.resetOf small).cfg.isQsf = true ∧ (State.resetOf small).HandshakeInOrder ∧
    isNext (exec .cnop (State.resetOf small)) (fun t => t.reqR != (State.resetOf small).reqR) = true ∧
    arrived.HandshakeInOrder ∧ arrived.reqS2 ≠ arrived.ackW ∧ isNext (exec .pnop arrived) (fun t => t.Rw == 3) = true := by
  decide
theorem test_witness_RequestIsCapturedAtTheThirdWstep : (State.resetOf small).HandshakeInOrder ∧
    (State.resetOf small).ackS2 = (State.resetOf small).reqR ∧ Instr.cnop.wf small = true ∧
    [Instr.pnop, .cnop, .pnop].countP onProducer = 2 ∧ [Instr.pnop, .cnop, .pnop, .eob].countP onProducer = 3 ∧
    (∀ j ∈ [Instr.pnop, .cnop, .pnop, .eob], j.wf small = true) := by decide

/-- A settled state with three samples unread and the handshake idle, and the reference state it maps to. -/
def settled : State :=
  { State.resetOf small with
    W := 4, Wg := 6, ws1 := 6, ws2 := 6, R := 1, mem := [(0, 1), (2, 2), (4, 3), (6, 4)], burstCount := 1, starved := false }

/-- The reference state of `settled`. -/
def settledRef : RefState :=
  { RefState.create 4 2 with
    storage := [1, 2, 3, 4], writeCursor := 0, readCursor := 1, available := 3, burstCounter := 1, mode := .feeding }

theorem test_witness_settled : settled.Wf ∧ settled.HandshakeInOrder ∧ settled.Settled := by decide
theorem test_witness_EightLockPairsSettle : settled.Wf ∧ settled.HandshakeInOrder ∧ settled.Settled ∧ 8 ≤ 8 := by decide
/-- For the invariants' steps: `settled` steps with no edge, and so keeps its form. -/
theorem test_witness_StepKeepsTheForm : settled.Wf ∧ isNext (step settled) (fun _ => true) = true := by decide
theorem test_witness_WriteCursorArrivesTwoRstepsLater : settled.Wf ∧ Instr.cnop.port = .consumer ∧
    Instr.cnop.wf settled.cfg = true ∧ [Instr.pnop, .byte 1].all onProducer = true := by decide

/-- Streaming at the edge of ENV-RATE and ENV-NOLAP: `R = 2`, `Ws = 3`, three samples written since the last `rstep`, the read
cursor exactly `C` behind the write cursor, with the counts that go with it. -/
def streaming : State :=
  { State.resetOf small with
    W := 6, Wg := 5, ws1 := 2, ws2 := 2, R := 2, nReal := 1
    mem := [(0, 5), (2, 6), (4, 3), (6, 4)], oValid := true, oData := 2, trace := [⟨1, false, false⟩, ⟨2, false, false⟩]
    edges := [.port (.consumer 0)] }

/-- The counts of `streaming`. -/
def streamingCounts : Counts :=
  { Counts.zero with w := 6, r := 2, ws1 := 3, ws2 := 3, sinceR := 3, written := [1, 2, 3, 4, 5, 6], emitted := [0, 1] }

theorem test_witness_Tracks : Tracks streaming streamingCounts := by decide
theorem test_witness_EnvRateKeepsTheCountsExact : streaming.edges = .port (.consumer 0) :: [] ∧
    EnvRate streaming streamingCounts (.port (.consumer 0)) ∧ isNext (step streaming) (fun t => t.oData == 3) = true := by
  decide
theorem test_witness_NoLapKeepsWriteOrder : EmittedInOrder streaming streamingCounts ∧
    EnvNoLap streaming streamingCounts (.port (.consumer 0)) ∧ realStep streaming = true ∧
    streamingCounts.w - streamingCounts.r1 small = small.c := by decide
/-- The lapped clause: one more sample visible and written, so that slot 2 holds the sample numbered 6. -/
def lapped : State :=
  { streaming with W := 7, Wg := 4, ws1 := 6, ws2 := 6, mem := [(0, 5), (2, 6), (4, 7), (6, 4)] }

/-- The counts of `lapped`. -/
def lappedCounts : Counts := { streamingCounts with w := 7, ws1 := 4, ws2 := 4, written := [1, 2, 3, 4, 5, 6, 7] }

theorem test_witness_RealStepEmitsTheNumberedSample : Tracks lapped lappedCounts ∧ Instr.cnop.port = .consumer ∧
    0 < lapped.nReal ∧ small.c < lappedCounts.w - lappedCounts.r1 small ∧
    isNext (exec .cnop lapped) (fun t => t.oData == 7) = true := by decide
/-- The status clause at the edge of ENV-WSTAT: `W - R_w = 2C - 1`. -/
theorem test_witness_StatusOutputsAreConservative : EnvWstat lapped lappedCounts ∧
    lappedCounts.w - lappedCounts.rW = 2 * small.c - 1 ∧ small.c ≤ lappedCounts.w - lappedCounts.r := by decide
theorem test_witness_ResetStorageIsNeverObserved : small.isQsf = true ∧ Memory.wf [(0, 7), (5, 9)] = true ∧
    (∀ i ∈ oddBurst, i.wf small = true) := by decide

theorem test_witness_ReferenceCallsKeepTheCounts : refFull.Sound ∧ settledRef.Sound ∧ (RefState.create 4 2).Sound := by decide
theorem test_witness_ReferenceReadsTheLastWritten : 1 ≤ 4 ∧
    (((RefState.create 4 2).write [1, 2, 3, 4, 5]).read 4).1 = [⟨2, false⟩, ⟨3, false⟩, ⟨4, false⟩, ⟨5, false⟩] := by decide
theorem test_witness_Abstracts : Abstracts settled settledRef := by
  refine ⟨by decide, by decide, by decide, by decide, by decide, by decide, by decide, by decide, by decide, by decide,
    by decide⟩
theorem test_witness_PullAgreesWithTheReference : (∀ i ∈ [Instr.pnop, .cnop, .clrs], i.wf settled.cfg = true) ∧
    quiet [.pnop, .cnop, .clrs] = true ∧ [Instr.pnop, .cnop, .clrs].countP onConsumer = settled.cfg.f := by decide
theorem test_witness_ReadAgreesWithTheReference : 5 < 2 ^ settled.cfg.pw ∧
    quiet (List.replicate 5 .cnop) = true ∧ (List.replicate 5 Instr.cnop).countP onConsumer = 5 := by decide

/-- A burst of two samples into `settled`, which overflows it by one, and a `CNOP` inside it. -/
def evenBurst : List Instr := [.byte 9, .cnop, .byte 0, .byte 8, .bytel 0]

theorem test_witness_BurstAgreesWithTheReference : oneBurst evenBurst = true ∧
    (∀ i ∈ evenBurst, i.port = .consumer → i = .cnop) ∧ rateOver settled.cfg.c false 0 evenBurst = true ∧
    (settledRef.onBurst (bytesOf evenBurst)).overflowCount = 1 := by decide

/-! ### Runs, clocks and the environment conditions -/

/-- R5, R411: the reference service interval is 512 / 16000 s = 32 ms, and `f_rclk >= 16.03 kHz` (16031.25 Hz) paces the host. -/
theorem test_reference_service_interval : Config.reference.tSvc = ⟨512, 16000⟩ ∧ 512 * 1000 = 32 * 16000 := by decide
theorem test_host_pacing : pacesHost Config.reference 16032 ∧ ¬ pacesHost Config.reference 16031 := by
  unfold pacesHost
  decide
/-- R5: the open parameters are arguments of the configuration; one that is not fixed bounds nothing. -/
theorem test_open_parameters : Config.reference.takesBurst (List.replicate 9 0) ∧
    ¬ ({ Config.reference with maxBurstBytes := some 8 } : Config).takesBurst (List.replicate 9 0) := by
  constructor
  · intro n hn
    cases hn
  · intro h
    exact absurd (h 8 rfl) (by decide)

/-- A run that ends after three words, and one that presents a byte and a `PULL` in turn for ever. -/
def threeWords : Run := .finite [.producer 0x264, .consumer 0x20, .producer 0x300]

/-- The words of the run for ever. -/
def inTurn (n : Nat) : PortWord := if n % 2 = 0 then .producer 0x264 else .consumer 0x20

theorem inTurn_wf (n : Nat) : (inTurn n).wf small = true := by
  unfold inTurn
  split <;> decide
theorem test_witness_RunsPlayTheirWords : small.isQsf = true ∧ (State.resetOf small).cfg = small ∧
    (∀ w ∈ threeWords.first 5, w.wf small = true) ∧ (threeWords.first 5).length = 3 ∧
    (Run.infinite inTurn).first 3 = [.producer 0x264, .consumer 0x20, .producer 0x264] := by decide
theorem test_witness_CommandsFinishUnderFairness : small.isQsf = true ∧ (∀ i, (inTurn i).wf small = true) ∧
    ∀ i, ∃ j, i ≤ j ∧ (inTurn j).isConsumer = true :=
  ⟨by decide, inTurn_wf, fun i => ⟨2 * i + 1, by omega, by
    unfold inTurn
    rw [if_neg (by omega)]
    rfl⟩⟩
/-- A stopped `rclk` with exactly `C` samples arriving, and a stopped `wclk`. -/
theorem test_witness_StoppedClockKeepsItsDomain : (State.resetOf tiny).cfg.isQsf = true ∧
    (∀ w ∈ List.replicate 4 (PortWord.producer 0x264), w.wf tiny = true) ∧
    (List.replicate 4 (PortWord.producer 0x264)).all (fun w => !w.isConsumer) = true ∧
    tiny.c = Counts.zero.sinceR + samplesIn false (producerWords (List.replicate 4 (PortWord.producer 0x264))) ∧
    (∀ w ∈ List.replicate 4 (PortWord.consumer 0x1F), w.wf tiny = true) ∧
    (List.replicate 4 (PortWord.consumer 0x1F)).all PortWord.isConsumer = true := by decide
/-- Six `wclk` edges from one `rclk` edge to the next, both coinciding, at five times its frequency: the bound is met. -/
theorem test_witness_ClockConditionsGiveEnvRate_edges : (Clock.mk 100 100).edgesAt 1000 [0, 10] ∧
    (Clock.mk 500 500).edgesAt 1000 [0, 2, 4, 6, 8, 10] ∧ edgeRatioBound ⟨500, 500⟩ ⟨100, 100⟩ = 6 ∧
    ∀ t ∈ [0, 2, 4, 6, 8, 10], 0 ≤ t ∧ t ≤ 10 := by
  unfold Clock.edgesAt
  decide
/-- `m = 2C - 2` `wstep`s between `rstep`s, and as many bytes with `PNOP`s between them. -/
theorem test_witness_ClockConditionsGiveEnvRate_runs : small.isQsf = true ∧ (∀ w ∈ sixBytes ++ sixBytes, w.wf small = true) ∧
    wstepsBetween 6 0 (List.replicate 6 (.producer 0x264) ++ .consumer 0 :: sixBytes) = true ∧
    bytesBetween 6 0 (.producer 0 :: List.replicate 6 (.producer 0x264) ++ .producer 0 :: .consumer 0 :: sixBytes) = true ∧
    wstepsBetween 6 0 (.producer 0 :: List.replicate 6 (.producer 0x264)) = false ∧ 2 * small.c - 2 = 6 := by decide
/-- `6k + 4 = C` with `k = 2` writes, and with `k = ceil(m / 2)` for `m = 3`, in `C = 16`. -/
theorem test_witness_WriteBoundGivesEnvWstat : (Config.qsf 4 1).isQsf = true ∧
    writesBetween 2 false 0 (List.replicate 4 (.producer 0x264) ++ .consumer 0 :: List.replicate 4 (.producer 0x264)) = true ∧
    6 * 2 + 4 = (Config.qsf 4 1).c ∧ wstepsBetween 3 0 sixBytes = true ∧ (3 + 1) / 2 = 2 ∧
    (∀ w ∈ sixBytes, w.wf (Config.qsf 4 1) = true) := by decide
theorem test_witness_statusClockCondition : statusClockCondition (Config.qsf 4 1) 3 := by
  unfold statusClockCondition
  decide

/-! ### Settled schedules -/

/-- A settled schedule of `C = F = 2`: a burst of three samples, one to each `rstep`; a `PULL` exactly two `rstep`s after the last
sample write, which overflowed; an `EOB` and a lone byte while it streams; and the end of that burst. -/
def settledPull : List Instr :=
  [.byte 1, .byte 0, .cnop, .byte 2, .byte 0, .cnop, .byte 3, .bytel 0, .cnop, .cnop, .pull, .eob, .cnop, .byte 9, .cnop, .eob]

theorem test_witness_SettledRunsAgreeWithTheReference : SettledSchedule tiny settledPull := by
  unfold SettledSchedule
  decide
theorem test_settled_calls : (watch settledPull (State.resetOf tiny) Watch.start).2.calls =
    [.burst [1, 0, 2, 0, 3, 0], .pull, .burst [], .burst [9]] := by decide
theorem test_settled_point : SettledPoint (watch settledPull (State.resetOf tiny) Watch.start).1
    (watch settledPull (State.resetOf tiny) Watch.start).2 := by decide

/-- A settled point inside a burst, exactly three `rstep`s after its sample write. -/
def settledInBurst : List Instr := [.byte 1, .byte 0, .cnop, .cnop, .cnop]

theorem test_witness_settled_point_in_a_burst : SettledSchedule tiny settledInBurst ∧
    (watch settledInBurst (State.resetOf tiny) Watch.start).2.burst = [1, 0] ∧
    SettledPoint (watch settledInBurst (State.resetOf tiny) Watch.start).1
      (watch settledInBurst (State.resetOf tiny) Watch.start).2 := by
  unfold SettledSchedule
  decide
/-- S3 bars a `PULL` one `rstep` after a sample write, S2 a sample write while it streams, S4 a command inside a burst, S1 a
second sample write between two `rstep`s where `C = 2`. -/
theorem test_unsettled : settledFrom [.byte 1, .bytel 0, .cnop, .pull] (State.resetOf tiny) Watch.start = false ∧
    settledFrom [.pull, .byte 1, .byte 0] (State.resetOf tiny) Watch.start = false ∧
    settledFrom [.byte 1, .clrs] (State.resetOf tiny) Watch.start = false ∧
    settledFrom [.byte 1, .byte 0, .byte 2, .byte 0] (State.resetOf tiny) Watch.start = false := by decide

/-- Two samples of two bursts, then a `READ 2`; `PULL` in its place reads the same, as `F = 2`. -/
def writeThen (cmd : Instr) : List Instr :=
  [.byte 1, .bytel 0, .cnop, .byte 2, .bytel 0, .cnop, .cnop, cmd, .cnop, .cnop]

theorem test_witness_SettledRunsReadInOrder_read : SettledSchedule tiny (writeThen (.read 2)) ∧
    (watch (writeThen (.read 2)) (State.resetOf tiny) Watch.start).2.calls = [] ++ [[1, 0], [2, 0]].map .burst ++ [.read 2] ∧
    ((RefState.create 2 2).calls []).2.available = 0 ∧ ((RefState.create 2 2).calls [.burst [1, 0], .read 1]).2.available = 0 ∧
    (watch (writeThen (.read 2)) (State.resetOf tiny) Watch.start).2.burst = [] ∧
    (watch (writeThen (.read 2)) (State.resetOf tiny) Watch.start).1.cReady = true ∧
    2 = min (samplesWritten ([[1, 0], [2, 0]].map .burst)).length tiny.c := by
  unfold SettledSchedule
  decide
theorem test_witness_SettledRunsReadInOrder_pull : SettledSchedule tiny (writeThen .pull) ∧
    (watch (writeThen .pull) (State.resetOf tiny) Watch.start).2.calls =
      [] ++ [[1, 0], [2, 0]].map .burst ++ List.replicate 1 .pull ∧
    (watch (writeThen .pull) (State.resetOf tiny) Watch.start).1.cReady = true ∧ 1 * tiny.f = 2 := by
  unfold SettledSchedule
  decide
/-- Scenario C with exactly `C` samples, and with one lost, in one pull and in four. -/
theorem test_witness_ScenariosGiveTheirFrames : small.isQsf = true ∧ small.c ≤ (valueRange 0 4).length ∧
    small.c ≤ (valueRange 0 5).length ∧ 2 * small.f = small.c ∧ 1 * tiny.f = tiny.c := by decide
/-- The step counts `(w, r)` of programs P3 and P4 (95_test_vectors L3), as the lines of each port. -/
theorem test_program_lengths : programP3.length = 1 + 26 + 40 ∧ programP4.length = 1 + 27 + 26 := by decide

theorem test_witness_ReferenceCallsKeepTheInvariants : 1 ≤ 1 ∧
    (((RefState.create 2 2).calls [.burst [1, 0, 2, 0, 3, 0, 4], .pull, .read 1]).1 = [⟨2, false⟩, ⟨3, false⟩, ⟨0, true⟩]) := by
  decide

end Sys2Proof.Tests
end

