-- ==== Sys2Proof/Proofs/GrayCode.lean ====
section
/-! PROOF. The Gray code of a cursor (00_scope R16): it is linear over XOR, `gray2bin` undoes it by telescoping, and a step of
the cursor changes one bit of it. -/

namespace Sys2Proof.Machine

/-! ### The Gray code is linear -/

theorem bin2gray_xor (x y : Nat) : bin2gray (x ^^^ y) = bin2gray x ^^^ bin2gray y := by
  simp only [bin2gray, Nat.shiftRight_xor_distrib]
  ac_rfl

theorem bin2gray_shiftRight (x n : Nat) : bin2gray (x >>> n) = x >>> n ^^^ x >>> (n + 1) := by
  rw [bin2gray, Nat.shiftRight_add]

/-! ### The inverse -/

/-- The XOR of the first `n` shifts of a Gray code telescopes. -/
theorem xorShifts_bin2gray (x n : Nat) : xorShifts (bin2gray x) n = x ^^^ x >>> n := by
  induction n with
  | zero => simp [xorShifts]
  | succ n ih =>
    have hs : bin2gray x >>> n = x >>> n ^^^ x >>> (n + 1) := by
      rw [bin2gray, Nat.shiftRight_xor_distrib, ← Nat.shiftRight_add, Nat.add_comm 1 n]
    rw [xorShifts, ih, hs, Nat.xor_assoc, Nat.xor_xor_cancel_left]

/-- The Gray code of the XOR of the first `n` shifts telescopes. -/
theorem bin2gray_xorShifts (x n : Nat) : bin2gray (xorShifts x n) = x ^^^ x >>> n := by
  induction n with
  | zero => simp [xorShifts, bin2gray]
  | succ n ih => rw [xorShifts, bin2gray_xor, ih, bin2gray_shiftRight, Nat.xor_assoc, Nat.xor_xor_cancel_left]

theorem gray2bin_bin2gray (pw x : Nat) (h : x < 2 ^ pw) : gray2bin pw (bin2gray x) = x := by
  rw [gray2bin, Nat.mod_eq_of_lt (bin2gray_lt pw x h), xorShifts_bin2gray, Nat.shiftRight_eq_zero x pw h, Nat.xor_zero]

theorem bin2gray_gray2bin (pw x : Nat) (h : x < 2 ^ pw) : bin2gray (gray2bin pw x) = x := by
  rw [gray2bin, Nat.mod_eq_of_lt h, bin2gray_xorShifts, Nat.shiftRight_eq_zero x pw h, Nat.xor_zero]

/-! ### One step of the cursor -/

/-- A number and its successor differ in a block of low bits: the trailing ones and the zero above them. -/
theorem succ_xor_self (x : Nat) : ∃ n, (x + 1) ^^^ x = 2 ^ (n + 1) - 1 := by
  induction x using Nat.evenOddRec with
  | h0 => exact ⟨0, rfl⟩
  | h_even y _ =>
    refine ⟨0, ?_⟩
    simpa [Nat.bit] using Nat.xor_bit true y false y
  | h_odd y ih =>
    obtain ⟨n, ih⟩ := ih
    refine ⟨n + 1, ?_⟩
    have hp := Nat.two_pow_pos (n + 1)
    calc (2 * y + 1 + 1) ^^^ (2 * y + 1) = 2 * (y + 1) ^^^ (2 * y + 1) := rfl
      _ = 2 * ((y + 1) ^^^ y) + 1 := by simpa [Nat.bit] using Nat.xor_bit false (y + 1) true y
      _ = 2 ^ (n + 1 + 1) - 1 := by rw [ih, Nat.pow_succ 2 (n + 1)]; omega

/-- The Gray code of a block of low ones is its top bit. -/
theorem bin2gray_ones (n : Nat) : bin2gray (2 ^ (n + 1) - 1) = 2 ^ n := by
  refine Nat.eq_of_testBit_eq fun i => ?_
  simp only [bin2gray, Nat.testBit_xor, Nat.testBit_shiftRight, Nat.testBit_two_pow_sub_one, Nat.testBit_two_pow]
  by_cases h : n = i
  · simp [h]
  · rcases Nat.lt_or_ge i n with hi | hi
    · simp [h, show i < n + 1 by omega, show 1 + i < n + 1 by omega]
    · simp [h, show ¬ i < n + 1 by omega, show ¬ 1 + i < n + 1 by omega]

/-- Within the width, the codes of `x` and `x + 1` differ in one bit. -/
theorem bin2gray_succ (pw x : Nat) (h : x + 1 < 2 ^ pw) : ∃ n < pw, bin2gray (x + 1) = bin2gray x ^^^ 2 ^ n := by
  obtain ⟨n, hn⟩ := succ_xor_self x
  have hd : bin2gray (x + 1) ^^^ bin2gray x = 2 ^ n := by rw [← bin2gray_xor, hn, bin2gray_ones]
  have hlt : 2 ^ n < 2 ^ pw := hd ▸ Nat.xor_lt_two_pow (bin2gray_lt pw _ h) (bin2gray_lt pw _ (by omega))
  refine ⟨n, (Nat.pow_lt_pow_iff_right (by decide)).mp hlt, ?_⟩
  rw [← hd, Nat.xor_comm (bin2gray (x + 1)), Nat.xor_xor_cancel_left]

/-- At the wrap the codes of the largest cursor and of 0 differ in the top bit. -/
theorem bin2gray_wrap (pw : Nat) (h : 1 ≤ pw) : bin2gray 0 = bin2gray (2 ^ pw - 1) ^^^ 2 ^ (pw - 1) := by
  obtain ⟨n, rfl⟩ := Nat.exists_eq_add_of_le' h
  rw [bin2gray_ones, Nat.add_sub_cancel, Nat.xor_self]
  rfl

theorem bin2gray_addP_one (k : Config) (x : Nat) (hp : 1 ≤ k.pw) (h : x < 2 ^ k.pw) :
    ∃ n < k.pw, bin2gray (addP k x 1) = bin2gray x ^^^ 2 ^ n := by
  by_cases hx : x + 1 < 2 ^ k.pw
  · rw [addP, Nat.mod_eq_of_lt hx]
    exact bin2gray_succ k.pw x hx
  · obtain rfl : x = 2 ^ k.pw - 1 := by omega
    rw [addP, Nat.sub_add_cancel (by omega), Nat.mod_self]
    exact ⟨k.pw - 1, by omega, bin2gray_wrap k.pw hp⟩

/-- Settles O33: both inverses telescope, and a cursor step flips one bit whether it carries or wraps. -/
theorem grayCodeInvertsAndStepsOneBit : Obligations.GrayCodeInvertsAndStepsOneBit := by
  intro k x hp hx
  exact ⟨gray2bin_bin2gray k.pw x hx, bin2gray_gray2bin k.pw x hx, bin2gray_addP_one k x hp hx⟩

end Sys2Proof.Machine
end

