-- ==== Sys2Proof/Proofs/Totality.lean ====
section
/-! PROOF. When a transaction and a step answer (00_scope R6, R8, R13): always in a QSF, never in a refused configuration. -/

namespace Sys2Proof.Machine

/-! ### What the decoder answers -/

/-- The decoder answers a transaction of the word's own port. -/
theorem decode_port (k : Config) (w : PortWord) (i : Instr) (h : decode k w = .ok i) :
    i.port = if w.isConsumer then .consumer else .producer := by
  cases w with
  | producer w =>
    obtain rfl : decodeProducer w = i := Except.ok.inj h
    unfold decodeProducer
    split <;> rfl
  | consumer w =>
    obtain rfl : decodeConsumer k.pw w = i := by
      simp only [decode] at h
      split at h
      · exact Except.ok.inj h
      · cases h
    unfold decodeConsumer
    split
    · split <;> rfl
    · rfl

/-- Every word of its port decodes (30_encoding R148). -/
theorem decode_of_wf (k : Config) (w : PortWord) (h : w.wf k = true) : ∃ i, decode k w = .ok i := by
  cases w with
  | producer w => exact ⟨_, rfl⟩
  | consumer w => exact ⟨_, if_pos (of_decide_eq_true h)⟩

/-! ### Transactions -/

/-- Every transaction is some step of its domain, taken in a QSF only. -/
theorem exec_eq_onQsf (i : Instr) (s : State) : ∃ t, exec i s = onQsf s t := by
  cases hp : i.port with
  | producer =>
    obtain ⟨payload, eob, _, he⟩ := exec_producer i hp s
    exact ⟨_, he⟩
  | consumer =>
    obtain ⟨cmd, _, he⟩ := exec_consumer i hp s
    exact ⟨_, he⟩

theorem exec_total (i : Instr) (s : State) (h : s.cfg.isQsf = true) : ∃ t, exec i s = .next t := by
  obtain ⟨t, he⟩ := exec_eq_onQsf i s
  exact ⟨t, he.trans (onQsf_of_qsf s t h)⟩

theorem exec_refuses (i : Instr) (s : State) (h : s.cfg.isQsf = false) : exec i s = .refused .notAQsf := by
  obtain ⟨t, he⟩ := exec_eq_onQsf i s
  exact he.trans (onQsf_refuses s t h)

/-! ### Steps -/

theorem step_total (s : State) (h : s.cfg.isQsf = true) (hw : ∀ e ∈ s.edges, e.wf s.cfg = true) :
    ∃ t, step s = .next t := by
  cases he : s.edges with
  | nil => exact ⟨s, (step_of_no_edge s he).trans (onQsf_of_qsf s s h)⟩
  | cons e es =>
    cases e with
    | reset => exact ⟨_, (step_of_reset s es he).trans (onQsf_of_qsf (withEdges es s) _ h)⟩
    | port w =>
      obtain ⟨i, hd⟩ := decode_of_wf s.cfg w (hw (.port w) (by simp [he]))
      rw [step_of_word s w es he, stepWord_ok w i (withEdges es s) hd]
      exact exec_total i (withEdges es s) h

/-- Without a QSF a step refuses whatever edge comes; a word that is none of its port is refused for that reason. -/
theorem step_refuses (s : State) (h : s.cfg.isQsf = false) : ∃ r, step s = .refused r := by
  cases he : s.edges with
  | nil => exact ⟨_, (step_of_no_edge s he).trans (onQsf_refuses s s h)⟩
  | cons e es =>
    cases e with
    | reset => exact ⟨_, (step_of_reset s es he).trans (onQsf_refuses (withEdges es s) _ h)⟩
    | port w =>
      rw [step_of_word s w es he]
      cases hd : decode s.cfg w with
      | error err => exact ⟨_, stepWord_error w err (withEdges es s) hd⟩
      | ok i => exact ⟨_, (stepWord_ok w i (withEdges es s) hd).trans (exec_refuses i (withEdges es s) h)⟩

/-- Each of the four conditions of 00_scope R6 breaks a constraint of R5. -/
theorem isQsf_false_of_refused (k : Config)
    (h : (∀ n, k.c ≠ 2 ^ n) ∨ k.c < k.f ∨ k.f = 0 ∨ k.pw ≠ k.aw + 1) : k.isQsf = false := by
  rw [Bool.eq_false_iff, ne_eq, isQsf_iff]
  rintro ⟨_, hc, hf, hfc, hpw⟩
  rcases h with hn | hn | hn | hn
  · exact hn k.aw hc
  · omega
  · omega
  · exact hn hpw

/-- Settles O4: the step hands the presented word to the decoder. -/
theorem stepRunsThePresentedTransaction : Obligations.StepRunsThePresentedTransaction := by
  intro s w es i he hd
  exact (step_of_word s w es he).trans (stepWord_ok w i (withEdges es s) hd)

/-- Settles O6: none of the four configurations is a QSF, and every path of a transaction or step asks for one. -/
theorem refusedConfigurationsHaveNoMeaning : Obligations.RefusedConfigurationsHaveNoMeaning := by
  intro s h
  have hq := isQsf_false_of_refused s.cfg h
  exact ⟨fun i => exec_refuses i s hq, step_refuses s hq⟩

/-- Settles O7: every arm answers in a QSF, and every word of a port decodes to an arm. -/
theorem everyStepIsTotal : Obligations.EveryStepIsTotal := by
  intro s h
  exact ⟨fun i => exec_total i s h, step_total s h⟩

end Sys2Proof.Machine
end

