-- ==== Sys2Proof/Proofs/Runs.lean ====
section
/-! PROOF. Runs of any length (00_scope R9, R12): a run is what playing its first words reaches, and under fairness every
command in flight drains. -/

namespace Sys2Proof.Machine

/-! ### What a transaction does to the configuration and to the command in flight -/

theorem wstep_cfg (payload : Option Byte) (eob : Bool) (s : State) : (wstep payload eob s).cfg = s.cfg := by
  rcases wstep_cases payload eob s with ⟨lo, lb, bc, he⟩ | ⟨d, bc, _, _, he⟩ <;> simp [he]

theorem rstep_cfg (i : Instr) (cmd : Command) (h : commandOf i = some cmd) (s : State) : (rstep cmd s).cfg = s.cfg := by
  rcases rstep_cases cmd s with ⟨_, he⟩ | ⟨_, he⟩ | ⟨_, _, he⟩
  · simp [he, (command_frame i cmd h _ _).1]
  · simp [he]
  · simp [he]

/-- No transaction changes the configuration. -/
theorem exec_cfg (i : Instr) (s t : State) (h : exec i s = .next t) : t.cfg = s.cfg := by
  obtain ⟨_, ⟨_, payload, eob, _, rfl⟩ | ⟨_, cmd, hc, rfl⟩⟩ := exec_cases i s t h
  · exact wstep_cfg payload eob s
  · exact rstep_cfg i cmd hc s

/-- The number of samples the command in flight still has to emit (41_consumer R241). -/
def State.remaining (s : State) : Nat := s.nReal + s.nZero

theorem cReady_iff_remaining (s : State) : s.cReady = true ↔ s.remaining = 0 := by
  rw [cReady_iff, State.remaining, Nat.add_eq_zero_iff]

/-- A `wstep` leaves the command in flight and the trace. -/
theorem wstep_keeps_stream (payload : Option Byte) (eob : Bool) (s : State) :
    (wstep payload eob s).remaining = s.remaining ∧ (wstep payload eob s).trace = s.trace := by
  rcases wstep_cases payload eob s with ⟨lo, lb, bc, he⟩ | ⟨d, bc, _, _, he⟩ <;> simp [he, State.remaining]

/-- A `rstep` at `c_ready = 0` emits one sample of the command in flight (41_consumer R232, R233). -/
theorem rstep_busy_emits_one (cmd : Command) (s : State) (h : 0 < s.remaining) :
    (rstep cmd s).remaining + 1 = s.remaining ∧ ∃ e, (rstep cmd s).trace = s.trace ++ [e] := by
  rcases rstep_cases cmd s with ⟨hc, _⟩ | ⟨hr, he⟩ | ⟨h0, hz, he⟩
  · exact absurd ((cReady_iff_remaining s).mp hc) h.ne'
  · have hrem : s.nReal - 1 + s.nZero + 1 = s.nReal + s.nZero := by omega
    exact ⟨by simpa [he, State.remaining] using hrem, _, by rw [he]; rfl⟩
  · have hrem : s.nReal + (s.nZero - 1) + 1 = s.nReal + s.nZero := by omega
    exact ⟨by simpa [he, State.remaining] using hrem, _, by rw [he]; rfl⟩

/-! ### A run by its words -/

/-- A word of its port has a step that keeps the configuration, and playing the word is that step. -/
theorem step_port_word (w : PortWord) (s : State) (hq : s.cfg.isQsf = true) (hw : w.wf s.cfg = true) :
    ∃ i t, decode s.cfg w = .ok i ∧ exec i s = .next t ∧ t.cfg = s.cfg ∧
      step (withEdges [.port w] s) = .next (withEdges [] t) ∧ play [.port w] s = .next (withEdges [] t) := by
  obtain ⟨i, hd⟩ := decode_of_wf s.cfg w hw
  obtain ⟨t, hx⟩ := exec_total i s hq
  exact ⟨i, t, hd, hx, exec_cfg i s t hx, step_word w i s t hd hx, (play_word w i [] s t hd hx).trans (play_nil t)⟩

/-- A run of words of their ports goes on for ever, keeps its configuration, and agrees with `play`. -/
theorem Run.after_eq_play (k : Config) (ρ : Run) (n : Nat) (s : State) (hq : k.isQsf = true) (hs : s.cfg = k)
    (hw : ∀ w ∈ ρ.first n, w.wf k = true) :
    ∃ t, ρ.after k n = .next t ∧ t.cfg = k ∧ play (.reset :: (ρ.first n).map .port) s = .next t := by
  induction n with
  | zero =>
    subst hs
    exact ⟨State.resetOf s.cfg, rfl, rfl, play_reset [] s hq⟩
  | succ n ih =>
    rw [Run.first_succ] at hw
    obtain ⟨t, ht, hk, hp⟩ := ih fun w hm => hw w (List.mem_append_left _ hm)
    cases hn : ρ.word n with
    | none => exact ⟨t, Run.after_end k ρ n t ht hn, hk, by simpa [Run.first_succ, hn] using hp⟩
    | some w =>
      obtain ⟨i, u, _, _, hu, hstep, hplay⟩ :=
        step_port_word w t (hk ▸ hq) (hk ▸ hw w (by simp [hn]))
      refine ⟨withEdges [] u, (Run.after_word k ρ n t w ht hn).trans hstep, hu.trans hk, ?_⟩
      rw [Run.first_succ, hn, Option.toList_some, List.map_append, ← List.cons_append]
      exact (play_append _ _ s t hp).trans hplay

/-- Settles O51, by induction on the number of steps: each word extends the played list by its own step. -/
theorem runsPlayTheirWords : Obligations.RunsPlayTheirWords := by
  intro k ρ n s hq hs hw
  obtain ⟨t, ht, _, hp⟩ := Run.after_eq_play k ρ n s hq hs hw
  exact ⟨t, ht, hp⟩

/-! ### Commands drain under fairness -/

section Fairness
variable {k : Config} {ws : Nat → PortWord}

theorem Run.infinite_after (hq : k.isQsf = true) (hw : ∀ i, (ws i).wf k = true) (n : Nat) :
    ∃ s, (Run.infinite ws).after k n = .next s ∧ s.cfg = k := by
  have hf : ∀ w ∈ (Run.infinite ws).first n, w.wf k = true := by
    intro w hm
    obtain ⟨i, _, rfl⟩ : ∃ i < n, ws i = w := by simpa [Run.first, Run.word] using hm
    exact hw i
  obtain ⟨s, hs, hk, _⟩ := Run.after_eq_play k _ n (State.resetOf k) hq rfl hf
  exact ⟨s, hs, hk⟩

/-- While a command is in flight, one step of an infinite run either leaves the stream, at a `wstep`, or emits one sample of it,
at an `rstep`. -/
theorem Run.infinite_after_succ (hq : k.isQsf = true) (hw : ∀ i, (ws i).wf k = true) (n : Nat) (s : State)
    (hs : (Run.infinite ws).after k n = .next s) (hr : 0 < s.remaining) :
    ∃ t, (Run.infinite ws).after k (n + 1) = .next t ∧
      ((ws n).isConsumer = false → t.remaining = s.remaining ∧ t.trace = s.trace) ∧
      ((ws n).isConsumer = true → t.remaining + 1 = s.remaining ∧ ∃ e, t.trace = s.trace ++ [e]) := by
  obtain ⟨s', hs', hk⟩ := Run.infinite_after hq hw n
  obtain rfl : s' = s := by
    rw [hs'] at hs
    injection hs
  obtain ⟨i, t, hd, hx, _, hstep, _⟩ := step_port_word (ws n) s' (hk ▸ hq) (hk ▸ hw n)
  refine ⟨withEdges [] t, (Run.after_word k _ n s' (ws n) hs' rfl).trans hstep, ?_⟩
  have hport := decode_port s'.cfg (ws n) i hd
  obtain ⟨_, ⟨hp, payload, eob, _, rfl⟩ | ⟨hp, cmd, _, rfl⟩⟩ := exec_cases i s' t hx
  · refine ⟨fun _ => wstep_keeps_stream payload eob s', fun hc => ?_⟩
    simp [hc, hp] at hport
  · refine ⟨fun hc => ?_, fun _ => rstep_busy_emits_one cmd s' hr⟩
    simp [hc, hp] at hport

/-- With an `rstep` at most `d` steps away, the command in flight emits its next sample. -/
theorem Run.emits_next (hq : k.isQsf = true) (hw : ∀ i, (ws i).wf k = true) (d n : Nat) (s : State)
    (hs : (Run.infinite ws).after k n = .next s) (hr : 0 < s.remaining) (hc : (ws (n + d)).isConsumer = true) :
    ∃ m t e, n ≤ m ∧ (Run.infinite ws).after k m = .next t ∧ t.remaining + 1 = s.remaining ∧ t.trace = s.trace ++ [e] := by
  induction d generalizing n s with
  | zero =>
    obtain ⟨t, ht, _, hemit⟩ := Run.infinite_after_succ hq hw n s hs hr
    obtain ⟨hrem, e, htr⟩ := hemit hc
    exact ⟨n + 1, t, e, n.le_succ, ht, hrem, htr⟩
  | succ d ih =>
    obtain ⟨t, ht, hkeep, hemit⟩ := Run.infinite_after_succ hq hw n s hs hr
    cases hn : (ws n).isConsumer with
    | true =>
      obtain ⟨hrem, e, htr⟩ := hemit hn
      exact ⟨n + 1, t, e, n.le_succ, ht, hrem, htr⟩
    | false =>
      obtain ⟨hrem, htr⟩ := hkeep hn
      obtain ⟨m, u, e, hm, hu, hurem, hutr⟩ := ih (n + 1) t ht (hrem ▸ hr) (by rwa [Nat.add_right_comm, Nat.add_assoc])
      exact ⟨m, u, e, (n.le_succ).trans hm, hu, hurem.trans hrem, htr ▸ hutr⟩

/-- With `rstep`s infinitely often, a command with `r` samples left emits exactly those and is then done. -/
theorem Run.drains (hq : k.isQsf = true) (hw : ∀ i, (ws i).wf k = true)
    (hfair : ∀ i, ∃ j, i ≤ j ∧ (ws j).isConsumer = true) (r n : Nat) (s : State)
    (hs : (Run.infinite ws).after k n = .next s) (hr : s.remaining = r) :
    ∃ m t evs, n ≤ m ∧ (Run.infinite ws).after k m = .next t ∧ t.cReady = true ∧ t.trace = s.trace ++ evs ∧
      evs.length = r := by
  induction r generalizing n s with
  | zero => exact ⟨n, s, [], le_rfl, hs, (cReady_iff_remaining s).mpr hr, by simp, rfl⟩
  | succ r ih =>
    obtain ⟨j, hj, hc⟩ := hfair n
    obtain ⟨m, t, e, hm, ht, hrem, htr⟩ :=
      Run.emits_next hq hw (j - n) n s hs (by omega) (by rwa [Nat.add_sub_cancel' hj])
    obtain ⟨m', u, evs, hm', hu, hready, hutr, hlen⟩ := ih m t ht (by omega)
    exact ⟨m', u, e :: evs, hm.trans hm', hu, hready, by simp [hutr, htr], by simp [hlen]⟩

end Fairness

/-- Settles O52, by induction on the samples left and, between two of them, on the distance to the next `rstep`. -/
theorem commandsFinishUnderFairness : Obligations.CommandsFinishUnderFairness := by
  intro k ws n hq hw hfair
  obtain ⟨s, hs, _⟩ := Run.infinite_after hq hw n
  obtain ⟨m, t, evs, hm, ht, hready, htr, hlen⟩ := Run.drains hq hw hfair s.remaining n s hs rfl
  exact ⟨s, m, t, evs, hs, hm, ht, hready, htr, hlen⟩

end Sys2Proof.Machine
end

