-- ==== Sys2Proof/Proofs/Form.lean ====
section
/-! PROOF. Every step keeps the form of a state (`State.Wf`): each part of a `wstep` or a `rstep` keeps it, so their compositions
do, and the reset state has it. -/

namespace Sys2Proof.Machine

/-! ### The parts of a `wstep` -/

/-- A sample write keeps the form: the slot written is one of the storage's, and the new cursor is published as its Gray code. -/
theorem writeSample_wf (v : Sample) (s : State) (h : s.Wf) : (writeSample v s).Wf := by
  obtain ⟨hq, _, _, hRw, hR, hws1, hws2, hhold, hreal, hzero, hmem, hin, hport, hev, hsil⟩ := h
  exact ⟨hq, addP_lt _ _ _, rfl, hRw, hR, hws1, hws2, hhold, hreal, hzero, memWrite_wf _ _ _ hmem,
    memWrite_within _ _ _ _ (slot_lt_c _ _ hq) hin, hport, hev, hsil⟩

theorem receiveHandshake_wf (s : State) (h : s.Wf) : (receiveHandshake s).Wf := by
  obtain ⟨hq, hW, hWg, hRw, hR, hws1, hws2, hhold, hrest⟩ := h
  refine ⟨hq, hW, hWg, ?_, hR, hws1, hws2, hhold, hrest⟩
  rw [receiveHandshake_Rw]
  split
  · exact hhold
  · exact hRw

/-- The byte assembler and the burst counter are free of the form, so only the sample write and the receiver matter. -/
theorem wstep_wf (payload : Option Byte) (eob : Bool) (s : State) (h : s.Wf) : (wstep payload eob s).Wf := by
  rcases wstep_cases payload eob s with ⟨lo, lb, bc, he⟩ | ⟨d, bc, _, _, he⟩
  · rw [he]
    exact receiveHandshake_wf _ h
  · rw [he]
    exact receiveHandshake_wf _ (writeSample_wf (sampleOf d s.loByte) s h)

/-! ### The parts of a `rstep` -/

/-- After catch-up at most `C` samples are available (41_consumer R223). -/
theorem catchUp_d1_le (s : State) : (catchUp s).d1 ≤ s.cfg.c := by
  rcases Nat.lt_or_ge s.cfg.c (unread s) with h | h
  · rw [catchUp_drops s h]
  · rw [catchUp_keeps s h]
    exact h

theorem applyCatchUp_wf (s : State) (h : s.Wf) : (applyCatchUp (catchUp s) s).Wf := by
  obtain ⟨hq, hW, hWg, hRw, hR, hrest⟩ := h
  exact ⟨hq, hW, hWg, hRw, catchUp_r1_lt s hR, hrest⟩

/-- A new split of the coming samples keeps the form when both parts are within their bounds. -/
theorem newSplit_wf (s : State) (real silent : Nat) (h : s.Wf) (hreal : real ≤ s.cfg.c) (hzero : silent < 2 ^ s.cfg.pw) :
    State.Wf { s with nReal := real, nZero := silent } := by
  obtain ⟨hq, hW, hWg, hRw, hR, hws1, hws2, hhold, _, _, hrest⟩ := h
  exact ⟨hq, hW, hWg, hRw, hR, hws1, hws2, hhold, hreal, hzero, hrest⟩

/-- An accepted command keeps the form: a frame fits the storage, and a count its `PW` bits. -/
theorem command_wf (i : Instr) (cmd : Command) (hc : commandOf i = some cmd) (u : CatchUp) (s : State) (h : s.Wf)
    (hi : i.wf s.cfg = true) (hu : u.d1 ≤ s.cfg.c) : (cmd u s).Wf := by
  have hpw := two_pow_pw s.cfg h.1
  obtain ⟨_, _, hf1, hfc, _⟩ := (isQsf_iff s.cfg).mp h.1
  cases i <;> simp only [commandOf, Option.some.injEq, reduceCtorEq] at hc <;> subst hc
  case cnop | rsvd => exact h
  case clrs =>
    unfold acceptClrs
    split <;> exact h
  case read n =>
    have hn : n < 2 ^ s.cfg.pw := of_decide_eq_true hi
    exact newSplit_wf s _ _ h ((Nat.min_le_right _ _).trans hu) ((Nat.sub_le _ _).trans_lt hn)
  case pull =>
    rcases Nat.lt_or_ge u.d1 s.cfg.f with hf | hf
    · rw [acceptPull_starved u s hf]
      exact newSplit_wf s 0 s.cfg.f h (Nat.zero_le _) (by omega)
    · rw [acceptPull_feeding u s hf]
      exact newSplit_wf s s.cfg.f 0 h hfc (by omega)

theorem emitNothing_wf (s : State) (h : s.Wf) : (emitNothing s).Wf := by
  obtain ⟨hq, hW, hWg, hRw, hR, hws1, hws2, hhold, hreal, hzero, hmem, hin, _, _, hsil⟩ := h
  exact ⟨hq, hW, hWg, hRw, hR, hws1, hws2, hhold, hreal, hzero, hmem, hin, fun _ => ⟨rfl, rfl, rfl⟩, nofun, hsil⟩

/-- An event keeps the form when it is 0 where it is silence (41_consumer R234). -/
theorem emit_wf (e : OutEvent) (s : State) (h : s.Wf) (he : (!e.silence || e.data == 0) = true) : (emit e s).Wf := by
  obtain ⟨hq, hW, hWg, hRw, hR, hws1, hws2, hhold, hreal, hzero, hmem, hin, _, _, hsil⟩ := h
  refine ⟨hq, hW, hWg, hRw, hR, hws1, hws2, hhold, hreal, hzero, hmem, hin, nofun, fun _ => ?_, ?_⟩
  · exact List.getLast?_concat
  · rw [emit_trace, List.all_append, hsil]
    simpa using he

theorem streamReal_wf (u : CatchUp) (s : State) (h : s.Wf) : (streamReal u s).Wf := by
  refine emit_wf _ _ ?_ rfl
  obtain ⟨hq, hW, hWg, hRw, _, hws1, hws2, hhold, hreal, hrest⟩ := h
  exact ⟨hq, hW, hWg, hRw, addP_lt _ _ _, hws1, hws2, hhold, (Nat.sub_le _ _).trans hreal, hrest⟩

theorem streamSilence_wf (s : State) (h : s.Wf) : (streamSilence s).Wf := by
  refine emit_wf _ _ ?_ rfl
  obtain ⟨_, _, _, _, _, _, _, _, hreal, hzero, _⟩ := id h
  exact newSplit_wf s s.nReal (s.nZero - 1) h hreal ((Nat.sub_le _ _).trans_lt hzero)

/-- The Gray code that crosses is no wider than the write cursor (42_cdc R281). -/
theorem synchronise_wf (s : State) (h : s.Wf) : (synchronise s).Wf := by
  obtain ⟨hq, hW, hWg, hRw, hR, hws1, hws2, hrest⟩ := h
  have hgray : s.Wg < 2 ^ s.cfg.pw := hWg ▸ bin2gray_lt _ _ hW
  exact ⟨hq, hW, hWg, hRw, hR, hgray, hws1, hrest⟩

theorem sendHandshake_wf (r : Nat) (s : State) (h : s.Wf) (hr : r < 2 ^ s.cfg.pw) : (sendHandshake r s).Wf := by
  obtain ⟨hq, hW, hWg, hRw, hR, hws1, hws2, hhold, hrest⟩ := h
  refine ⟨hq, hW, hWg, hRw, hR, hws1, hws2, ?_, hrest⟩
  rw [sendHandshake_Rhold]
  split
  · exact hr
  · exact hhold

theorem rstep_wf (i : Instr) (cmd : Command) (hc : commandOf i = some cmd) (s : State) (h : s.Wf)
    (hi : i.wf s.cfg = true) : (rstep cmd s).Wf := by
  have hR : s.R < 2 ^ s.cfg.pw := by
    obtain ⟨_, _, _, _, hR, _⟩ := h
    exact hR
  have hu := applyCatchUp_wf s h
  rcases rstep_cases cmd s with ⟨_, he⟩ | ⟨_, he⟩ | ⟨_, _, he⟩
  · obtain ⟨hk, _⟩ := command_frame i cmd hc (catchUp s) (applyCatchUp (catchUp s) s)
    have hcmd := command_wf i cmd hc (catchUp s) _ hu hi (catchUp_d1_le s)
    rw [he]
    exact sendHandshake_wf s.R _ (synchronise_wf _ (emitNothing_wf _ hcmd)) (by simpa [hk] using hR)
  · rw [he]
    exact sendHandshake_wf s.R _ (synchronise_wf _ (streamReal_wf _ _ hu)) hR
  · rw [he]
    exact sendHandshake_wf s.R _ (synchronise_wf _ (streamSilence_wf _ hu)) hR

/-! ### Every step -/

/-- A decoded transaction is well formed: a count is read from `PW` bits (30_encoding R144). -/
theorem decode_wf (k : Config) (w : PortWord) (i : Instr) (h : decode k w = .ok i) : i.wf k = true := by
  cases w with
  | producer w =>
    obtain rfl : decodeProducer w = i := Except.ok.inj h
    unfold decodeProducer
    split <;> rfl
  | consumer w =>
    obtain rfl : decodeConsumer k.pw w = i := by
      simp only [decode] at h
      split at h
      · exact Except.ok.inj h
      · cases h
    unfold decodeConsumer
    split
    · split
      · rfl
      · exact decide_eq_true (Nat.mod_lt _ (Nat.two_pow_pos k.pw))
      · rfl
      · rfl
    · rfl

/-- Every well-formed transaction keeps the form. -/
theorem exec_wf (i : Instr) (s t : State) (hi : i.wf s.cfg = true) (h : s.Wf) (hx : exec i s = .next t) : t.Wf := by
  obtain ⟨_, ⟨_, payload, eob, _, rfl⟩ | ⟨_, cmd, hc, rfl⟩⟩ := exec_cases i s t hx
  · exact wstep_wf payload eob s h
  · exact rstep_wf i cmd hc s h hi

theorem resetOf_wf (k : Config) (hq : k.isQsf = true) : (State.resetOf k).Wf := by
  have hpw : 0 < 2 ^ k.pw := Nat.two_pow_pos _
  have hgray : 0 = bin2gray 0 := by decide
  exact ⟨hq, hpw, hgray, hpw, hpw, hpw, hpw, hpw, Nat.zero_le _, hpw, rfl, rfl, fun _ => ⟨rfl, rfl, rfl⟩, nofun, rfl⟩

/-- The waiting edges are no part of the form. -/
theorem withEdges_wf (es : List Edge) (s : State) (h : s.Wf) : (withEdges es s).Wf := h

/-- Settles O39, by the kind of the next edge. -/
theorem stepKeepsTheForm : Obligations.StepKeepsTheForm := by
  intro s t h hstep
  obtain ⟨hq, ⟨_, rfl⟩ | ⟨es, _, rfl⟩ | ⟨w, es, i, _, hd, hx⟩⟩ := step_cases s t hstep
  · exact h
  · exact withEdges_wf es _ (resetOf_wf s.cfg hq)
  · exact exec_wf i (withEdges es s) t (decode_wf s.cfg w i hd) (withEdges_wf es s h) hx

end Sys2Proof.Machine
end

