-- ==== Sys2Proof/Proofs/Domains.lean ====
section
/-! PROOF. The two clock domains (10_state R46, R47): what each step leaves of the other domain, what it sees of it, and that the
indications gate nothing (R48, R49). Each part of a step has one lemma per claim; a step composes its parts. -/

namespace Sys2Proof.Machine

/-! ### A transaction by its parts -/

/-- A producer transaction in a QSF is the `wstep` of its parts. -/
theorem exec_of_producerParts (i : Instr) (payload : Option Byte) (eob : Bool) (h : producerParts i = some (payload, eob))
    (s : State) (hq : s.cfg.isQsf = true) : exec i s = .next (wstep payload eob s) := by
  cases i <;> simp only [producerParts, Option.some.injEq, Prod.mk.injEq, reduceCtorEq] at h <;>
    obtain ⟨rfl, rfl⟩ := h <;> exact onQsf_of_qsf s _ hq

/-- A consumer transaction in a QSF is the `rstep` of its command. -/
theorem exec_of_commandOf (i : Instr) (cmd : Command) (h : commandOf i = some cmd) (s : State) (hq : s.cfg.isQsf = true) :
    exec i s = .next (rstep cmd s) := by
  cases i <;> simp only [commandOf, Option.some.injEq, reduceCtorEq] at h <;> subst h <;> exact onQsf_of_qsf s _ hq

/-! ### What a step leaves of the other domain -/

theorem wstep_keeps_readDomain (payload : Option Byte) (eob : Bool) (s : State) :
    SameReadDomain s (wstep payload eob s) := by
  rcases wstep_cases payload eob s with ⟨lo, lb, bc, he⟩ | ⟨d, bc, _, _, he⟩ <;>
    simp [he, SameReadDomain]

theorem rstep_keeps_writeDomain (i : Instr) (cmd : Command) (h : commandOf i = some cmd) (s : State) :
    SameWriteDomain s (rstep cmd s) ∧ (rstep cmd s).mem = s.mem := by
  rcases rstep_cases cmd s with ⟨_, he⟩ | ⟨_, he⟩ | ⟨_, _, he⟩
  · simp [he, SameWriteDomain, command_frame i cmd h]
  · simp [he, SameWriteDomain]
  · simp [he, SameWriteDomain]

/-- Settles O30, by the kind of the step. -/
theorem domainsWriteOnlyTheirOwn : Obligations.DomainsWriteOnlyTheirOwn := by
  intro s t i h
  refine ⟨⟨exec_cfg i s t h, exec_edges i s t h⟩, fun hport => ?_, fun hport => ?_⟩
  all_goals obtain ⟨_, ⟨hp, payload, eob, _, rfl⟩ | ⟨hp, cmd, hc, rfl⟩⟩ := exec_cases i s t h
  · exact wstep_keeps_readDomain payload eob s
  · simp [hp] at hport
  · simp [hp] at hport
  · exact rstep_keeps_writeDomain i cmd hc s

/-! ### What a `rstep` sees of the write domain -/

section ReadSide
variable {s u : State}

/-- Catch-up reads the read domain only (41_consumer R220). -/
theorem catchUp_congr (hk : u.cfg = s.cfg) (h : SameReadDomain s u) : catchUp u = catchUp s := by
  obtain ⟨hR, _, hws2, _⟩ := h
  have hun : unread u = unread s := by simp [unread, State.Ws, hk, hR, hws2]
  have hWs : u.Ws = s.Ws := by simp [State.Ws, hk, hws2]
  rcases Nat.lt_or_ge s.cfg.c (unread s) with hd | hd
  · rw [catchUp_drops s hd, catchUp_drops u (by rwa [hk, hun]), hk, hWs, hun]
  · rw [catchUp_keeps s hd, catchUp_keeps u (by rwa [hk, hun]), hR, hun]

theorem applyCatchUp_sameReadDomain (c : CatchUp) (h : SameReadDomain s u) :
    SameReadDomain (applyCatchUp c s) (applyCatchUp c u) := by simp [SameReadDomain, h]

/-- A command reads the configuration, what catch-up found and the read domain. -/
theorem command_sameReadDomain (i : Instr) (cmd : Command) (hc : commandOf i = some cmd) (c : CatchUp)
    (hk : u.cfg = s.cfg) (h : SameReadDomain s u) : SameReadDomain (cmd c s) (cmd c u) := by
  cases i <;> simp only [commandOf, Option.some.injEq, reduceCtorEq] at hc <;> subst hc
  case cnop | rsvd => exact h
  case read => simp [SameReadDomain, h]
  case clrs => simp [SameReadDomain, h, acceptClrs_ovf]
  case pull =>
    rcases Nat.lt_or_ge c.d1 s.cfg.f with hf | hf
    · simp [SameReadDomain, acceptPull_starved c s hf, acceptPull_starved c u (hk ▸ hf), h, hk]
    · simp [SameReadDomain, acceptPull_feeding c s hf, acceptPull_feeding c u (hk ▸ hf), h, hk]

theorem emitNothing_sameReadDomain (h : SameReadDomain s u) : SameReadDomain (emitNothing s) (emitNothing u) := by
  simp [SameReadDomain, h]

/-- Streaming a real sample reads the storage, but only for its bytes. -/
theorem streamReal_sameReadDomain (c : CatchUp) (hk : u.cfg = s.cfg) (h : SameReadDomain s u) (hm : SameStorage s u) :
    SameReadDomain (streamReal c s) (streamReal c u) := by
  simp [SameReadDomain, h, hk, memRead, hm _]

theorem streamSilence_sameReadDomain (h : SameReadDomain s u) : SameReadDomain (streamSilence s) (streamSilence u) := by
  simp [SameReadDomain, h]

/-- The crossings of a `rstep` read `Wg` and `ack_w` of the write domain (42_cdc R281, R284). -/
theorem crossings_sameReadDomain (r : Nat) (h : SameReadDomain s u) (hg : u.Wg = s.Wg) (ha : u.ackW = s.ackW) :
    SameReadDomain (sendHandshake r (synchronise s)) (sendHandshake r (synchronise u)) := by
  simp [SameReadDomain, h, hg, ha]

theorem rstep_sameReadDomain (i : Instr) (cmd : Command) (hc : commandOf i = some cmd) (hk : u.cfg = s.cfg)
    (h : SameReadDomain s u) (hg : u.Wg = s.Wg) (ha : u.ackW = s.ackW) (hm : SameStorage s u) :
    SameReadDomain (rstep cmd s) (rstep cmd u) := by
  have hcu := catchUp_congr hk h
  have happ := applyCatchUp_sameReadDomain (catchUp s) h
  obtain ⟨hR, _, _, _, _, _, _, hr, hz, _⟩ := id h
  rcases rstep_cases cmd s with ⟨hready, he⟩ | ⟨hreal, he⟩ | ⟨h0, hzero, he⟩
  · rw [he, rstep_idle cmd u (by simpa [State.cReady, hr, hz] using hready), hcu, hR]
    obtain ⟨_, _, _, _, hgs, _, _, _, _, _, has, _⟩ := command_frame i cmd hc (catchUp s) (applyCatchUp (catchUp s) s)
    obtain ⟨_, _, _, _, hgu, _, _, _, _, _, hau, _⟩ := command_frame i cmd hc (catchUp s) (applyCatchUp (catchUp s) u)
    exact crossings_sameReadDomain s.R (emitNothing_sameReadDomain (command_sameReadDomain i cmd hc _ hk happ))
      (hgu.trans (hg.trans hgs.symm)) (hau.trans (ha.trans has.symm))
  · rw [he, rstep_real cmd u (hr ▸ hreal), hcu, hR]
    exact crossings_sameReadDomain s.R (streamReal_sameReadDomain _ hk happ hm) hg ha
  · rw [he, rstep_silence cmd u (hr.trans h0) (hz ▸ hzero), hcu, hR]
    exact crossings_sameReadDomain s.R (streamSilence_sameReadDomain happ) hg ha

end ReadSide

/-! ### What a `wstep` sees of the read domain -/

/-- Two states agree on what a `wstep` writes and on the configuration. -/
def SameWriteSide (s u : State) : Prop := u.cfg = s.cfg ∧ SameWriteDomain s u ∧ u.mem = s.mem

section WriteSide
variable {s u : State}

/-- The byte assembler reads the write domain only. -/
theorem takeByte_sameWriteSide (d : Byte) (h : SameWriteSide s u) : SameWriteSide (takeByte d s) (takeByte d u) := by
  obtain ⟨hk, hw, hm⟩ := h
  obtain ⟨hW, _, hlo, hlb, _⟩ := id hw
  cases hl : s.loPending
  · simp [SameWriteSide, SameWriteDomain, takeByte_low d s hl, takeByte_low d u (hlo.trans hl), hk, hw, hm]
  · simp [SameWriteSide, SameWriteDomain, takeByte_high d s hl, takeByte_high d u (hlo.trans hl), hk, hw, hm]

theorem payloadAction_sameWriteSide (payload : Option Byte) (h : SameWriteSide s u) :
    SameWriteSide (payloadAction payload s) (payloadAction payload u) := by
  cases payload with
  | none => exact h
  | some d => exact takeByte_sameWriteSide d h

theorem endBurst_sameWriteSide (h : SameWriteSide s u) : SameWriteSide (endBurst s) (endBurst u) := by
  obtain ⟨hk, hw, hm⟩ := h
  simp [SameWriteSide, SameWriteDomain, hk, hw, hm]

/-- The handshake receiver reads `req_r` and `R_hold` of the read domain (42_cdc R285). -/
theorem receiveHandshake_sameWriteSide (h : SameWriteSide s u) (hq : u.reqR = s.reqR) (hh : u.Rhold = s.Rhold) :
    SameWriteSide (receiveHandshake s) (receiveHandshake u) := by
  obtain ⟨hk, hw, hm⟩ := h
  simp [SameWriteSide, SameWriteDomain, hk, hw, hm, hq, hh]

/-- No byte action or end of burst writes what the handshake receiver reads. -/
theorem payloadAction_keeps_request (payload : Option Byte) (s : State) :
    (payloadAction payload s).reqR = s.reqR ∧ (payloadAction payload s).Rhold = s.Rhold := by
  cases payload <;> simp [payloadAction]

theorem wstep_sameWriteSide (payload : Option Byte) (eob : Bool) (h : SameWriteSide s u) (hq : u.reqR = s.reqR)
    (hh : u.Rhold = s.Rhold) : SameWriteSide (wstep payload eob s) (wstep payload eob u) := by
  have hp := payloadAction_sameWriteSide payload h
  obtain ⟨hqs, hhs⟩ := payloadAction_keeps_request payload s
  obtain ⟨hqu, hhu⟩ := payloadAction_keeps_request payload u
  have hreq := hqu.trans (hq.trans hqs.symm)
  have hhold := hhu.trans (hh.trans hhs.symm)
  rw [wstep_eq, wstep_eq]
  cases eob
  · exact receiveHandshake_sameWriteSide hp hreq hhold
  · exact receiveHandshake_sameWriteSide (endBurst_sameWriteSide hp) hreq hhold

end WriteSide

/-- Settles O31: the two steps part by part, each part seeing only what the two states agree on. -/
theorem domainsSeeOnlyTheCrossings : Obligations.DomainsSeeOnlyTheCrossings := by
  refine ⟨fun s u i hqsf hport hk h hg ha hm => ?_, fun s u i hqsf hport hk h hq hh hm => ?_⟩
  · obtain ⟨cmd, hc, _⟩ := exec_consumer i hport s
    exact ⟨_, _, exec_of_commandOf i cmd hc s hqsf, exec_of_commandOf i cmd hc u (hk ▸ hqsf),
      rstep_sameReadDomain i cmd hc hk h hg ha hm⟩
  · obtain ⟨payload, eob, hpe, _⟩ := exec_producer i hport s
    obtain ⟨_, hw, hmem⟩ := wstep_sameWriteSide payload eob ⟨hk, h, hm⟩ hq hh
    exact ⟨_, _, exec_of_producerParts i payload eob hpe s hqsf,
      exec_of_producerParts i payload eob hpe u (hk ▸ hqsf), hw, hmem⟩

/-! ### The indications gate nothing -/

/-- The second state is the first with other values in the indications. -/
def AlikeButIndications (s u : State) : Prop :=
  u = withIndications u.starved u.ovf u.underrunCount u.dropCount u.burstCount s

/-- Any values in the indications will do. -/
theorem alike_iff (s u : State) :
    AlikeButIndications s u ↔ ∃ starved ovf under drop burst, u = withIndications starved ovf under drop burst s := by
  refine ⟨fun h => ⟨_, _, _, _, _, h⟩, ?_⟩
  rintro ⟨starved, ovf, under, drop, burst, rfl⟩
  rfl

section Indications
variable {s u : State}

theorem takeByte_alike (d : Byte) (h : AlikeButIndications s u) : AlikeButIndications (takeByte d s) (takeByte d u) := by
  obtain ⟨st, ov, un, dr, bu, rfl⟩ := (alike_iff s u).mp h
  cases hl : s.loPending
  · rw [takeByte_low d s hl, takeByte_low d (withIndications st ov un dr bu s) hl]
    rfl
  · rw [takeByte_high d s hl, takeByte_high d (withIndications st ov un dr bu s) hl]
    rfl

theorem payloadAction_alike (payload : Option Byte) (h : AlikeButIndications s u) :
    AlikeButIndications (payloadAction payload s) (payloadAction payload u) := by
  cases payload with
  | none => exact h
  | some d => exact takeByte_alike d h

/-- The end of a burst counts it, and reads no indication beside the count itself. -/
theorem endBurst_alike (h : AlikeButIndications s u) : AlikeButIndications (endBurst s) (endBurst u) := by
  obtain ⟨st, ov, un, dr, bu, rfl⟩ := (alike_iff s u).mp h
  rfl

theorem receiveHandshake_alike (h : AlikeButIndications s u) :
    AlikeButIndications (receiveHandshake s) (receiveHandshake u) := by
  obtain ⟨st, ov, un, dr, bu, rfl⟩ := (alike_iff s u).mp h
  rfl

theorem wstep_alike (payload : Option Byte) (eob : Bool) (h : AlikeButIndications s u) :
    AlikeButIndications (wstep payload eob s) (wstep payload eob u) := by
  have hp := payloadAction_alike payload h
  rw [wstep_eq, wstep_eq]
  cases eob
  · exact receiveHandshake_alike hp
  · exact receiveHandshake_alike (endBurst_alike hp)

/-- A command may write the indications; what it writes elsewhere does not depend on them. -/
theorem command_alike (i : Instr) (cmd : Command) (hc : commandOf i = some cmd) (c : CatchUp)
    (h : AlikeButIndications s u) : AlikeButIndications (cmd c s) (cmd c u) := by
  obtain ⟨st, ov, un, dr, bu, rfl⟩ := (alike_iff s u).mp h
  cases i <;> simp only [commandOf, Option.some.injEq, reduceCtorEq] at hc <;> subst hc
  case cnop | read | rsvd => rfl
  case clrs =>
    unfold acceptClrs
    split <;> rfl
  case pull =>
    rcases Nat.lt_or_ge c.d1 s.cfg.f with hf | hf
    · rw [acceptPull_starved c s hf, acceptPull_starved c (withIndications st ov un dr bu s) hf]
      rfl
    · rw [acceptPull_feeding c s hf, acceptPull_feeding c (withIndications st ov un dr bu s) hf]
      rfl

/-- What follows the command in an idle `rstep` does not see the indications. -/
theorem finish_alike (r : Nat) (h : AlikeButIndications s u) :
    AlikeButIndications (sendHandshake r (synchronise (emitNothing s))) (sendHandshake r (synchronise (emitNothing u))) := by
  obtain ⟨st, ov, un, dr, bu, rfl⟩ := (alike_iff s u).mp h
  rfl

/-- Catch-up and streaming read no indication, so only an accepted command needs its own lemma. -/
theorem rstep_alike (i : Instr) (cmd : Command) (hc : commandOf i = some cmd) (h : AlikeButIndications s u) :
    AlikeButIndications (rstep cmd s) (rstep cmd u) := by
  obtain ⟨st, ov, un, dr, bu, rfl⟩ := (alike_iff s u).mp h
  rcases rstep_cases cmd s with ⟨hready, he⟩ | ⟨hreal, he⟩ | ⟨h0, hzero, he⟩
  · rw [he, rstep_idle cmd (withIndications st ov un dr bu s) hready]
    exact finish_alike s.R (command_alike i cmd hc (catchUp s) rfl)
  · rw [he, rstep_real cmd (withIndications st ov un dr bu s) hreal]
    rfl
  · rw [he, rstep_silence cmd (withIndications st ov un dr bu s) h0 hzero]
    rfl

end Indications

/-- Settles O32, by the kind of the step: states alike but for the indications stay so. -/
theorem indicationsGateNothing : Obligations.IndicationsGateNothing := by
  intro s i starved ovf under drop burst hq
  have h : AlikeButIndications s (withIndications starved ovf under drop burst s) := rfl
  cases hp : i.port with
  | producer =>
    obtain ⟨payload, eob, hpe, _⟩ := exec_producer i hp s
    exact ⟨_, _, exec_of_producerParts i payload eob hpe s hq, exec_of_producerParts i payload eob hpe _ hq,
      wstep_alike payload eob h⟩
  | consumer =>
    obtain ⟨cmd, hc, _⟩ := exec_consumer i hp s
    exact ⟨_, _, exec_of_commandOf i cmd hc s hq, exec_of_commandOf i cmd hc _ hq, rstep_alike i cmd hc h⟩

/-! ### The status outputs -/

/-- Settles O44: both outputs are a minimum with the capacity (10_state R52, R55). -/
theorem statusNeverExceedsTheCapacity : Obligations.StatusNeverExceedsTheCapacity :=
  fun _ => ⟨Nat.min_le_right _ _, Nat.min_le_right _ _⟩

end Sys2Proof.Machine
end

