-- ==== Sys2Proof/Proofs/Encoding.lean ====
section
/-! PROOF. Decoder and encoder agree (30_encoding R141 to R152). A word is made of its fields and its fields read back from it,
on either port; the opcode maps then say what it decodes to. -/

namespace Sys2Proof

/-! ### The fields of a producer word -/

/-- R141: the data at the bottom, `p_eob` at bit 8, `p_valid` at bit 9. -/
theorem getLsbD_producerWord (valid eob : Bool) (data : Byte) (i : Nat) :
    (producerWord valid eob data).getLsbD i =
      if i < 8 then data.getLsbD i else if i = 8 then eob else decide (i = 9) && valid := by
  have happend : (producerWord valid eob data).getLsbD i =
      if i < 9 then (if i < 8 then data.getLsbD i else (BitVec.ofBool eob).getLsbD (i - 8))
      else (BitVec.ofBool valid).getLsbD (i - 9) := by
    rw [← BitVec.getLsbD_append]
    exact BitVec.getLsbD_append
  rw [happend, BitVec.getLsbD_ofBool, BitVec.getLsbD_ofBool]
  rcases (by omega : i < 8 ∨ i = 8 ∨ 9 ≤ i) with hdata | rfl | hvalid
  · simp only [hdata, Nat.lt_succ_of_lt hdata, if_true]
  · simp
  · have heq : i - 9 = 0 ↔ i = 9 := by omega
    simp only [show ¬ i < 9 by omega, show ¬ i < 8 by omega, show ¬ i = 8 by omega, if_false, heq]

@[simp] theorem pValid_producerWord (valid eob : Bool) (data : Byte) : pValid (producerWord valid eob data) = valid := by
  simp only [pValid, getLsbD_producerWord]
  rfl

@[simp] theorem pEob_producerWord (valid eob : Bool) (data : Byte) : pEob (producerWord valid eob data) = eob := by
  simp only [pEob, getLsbD_producerWord]
  rfl

@[simp] theorem pData_producerWord (valid eob : Bool) (data : Byte) : pData (producerWord valid eob data) = data := by
  apply BitVec.eq_of_getLsbD_eq
  intro i hi
  simp only [pData, BitVec.getLsbD_extractLsb', getLsbD_producerWord, Nat.zero_add, hi, if_true, decide_true, Bool.true_and]

/-- Ten bits are the three fields, and nothing is left over (R141). -/
theorem producerWord_fields (w : BitVec 10) : producerWord (pValid w) (pEob w) (pData w) = w := by
  apply BitVec.eq_of_getLsbD_eq
  intro i hi
  rw [getLsbD_producerWord]
  rcases (by omega : i < 8 ∨ i = 8 ∨ i = 9) with hdata | rfl | rfl
  · simp only [pData, BitVec.getLsbD_extractLsb', Nat.zero_add, hdata, if_true, decide_true, Bool.true_and]
  · rfl
  · rfl

/-- The P-format opcode map (R145) on a word given by its fields; `PNOP` and `EOB` do not see the data (R147). -/
theorem decode_producerWord (k : Config) (valid eob : Bool) (data : Byte) :
    decode k (.producer (producerWord valid eob data)) =
      .ok (if valid then (if eob then .bytel data else .byte data) else (if eob then .eob else .pnop)) := by
  cases valid <;> cases eob <;> simp [decode, decodeProducer]

/-! ### The fields of a consumer word -/

/-- A C-format word from its three fields (R142). -/
def consumerWord (pw valid cmd count : Nat) : Nat := valid * 2 ^ (pw + 2) + cmd * 2 ^ pw + count

theorem consumerWord_one (pw cmd count : Nat) : consumerWord pw 1 cmd count = commandWord pw cmd count := by
  simp [consumerWord, commandWord]

/-- `c_valid` and `c_cmd` stand side by side above the count. -/
theorem consumerWord_eq (pw valid cmd count : Nat) :
    consumerWord pw valid cmd count = 2 ^ pw * (4 * valid + cmd) + count := by
  unfold consumerWord
  ring

theorem cCount_consumerWord (pw valid cmd count : Nat) (hn : count < 2 ^ pw) :
    cCount pw (consumerWord pw valid cmd count) = count := by
  rw [cCount, consumerWord_eq, Nat.mul_add_mod, Nat.mod_eq_of_lt hn]

theorem consumerWord_div (pw valid cmd count : Nat) (hn : count < 2 ^ pw) :
    consumerWord pw valid cmd count / 2 ^ pw = 4 * valid + cmd := by
  rw [consumerWord_eq, Nat.mul_add_div (Nat.two_pow_pos pw), Nat.div_eq_of_lt hn, Nat.add_zero]

theorem cCmd_consumerWord (pw valid cmd count : Nat) (hc : cmd < 4) (hn : count < 2 ^ pw) :
    cCmd pw (consumerWord pw valid cmd count) = cmd := by
  rw [cCmd, consumerWord_div pw valid cmd count hn]
  omega

theorem cValid_commandWord (pw cmd count : Nat) (hc : cmd < 4) (hn : count < 2 ^ pw) :
    cValid pw (commandWord pw cmd count) = true := by
  rw [← consumerWord_one, cValid, Nat.pow_add, ← Nat.div_div_eq_div_mul, consumerWord_div pw 1 cmd count hn, beq_iff_eq]
  omega

/-- Every number is its count, its command code and what stands above them (R142). -/
theorem consumerWord_fields (pw w : Nat) : consumerWord pw (w / 2 ^ (pw + 2)) (cCmd pw w) (cCount pw w) = w := by
  have hhigh : 4 * (w / 2 ^ (pw + 2)) + cCmd pw w = w / 2 ^ pw := by
    rw [cCmd, Nat.pow_add, ← Nat.div_div_eq_div_mul]
    exact Nat.div_add_mod (w / 2 ^ pw) 4
  rw [consumerWord_eq, hhigh]
  exact Nat.div_add_mod w (2 ^ pw)

/-! ### What a consumer word decodes to -/

/-- Below `2^(PW+2)`, where `c_valid = 0`, every word is `CNOP` (R146, R147). -/
theorem decode_consumer_of_lt (k : Config) (w : Nat) (h : w < 2 ^ (k.pw + 2)) : decode k (.consumer w) = .ok .cnop := by
  have hfits : w < 2 ^ (k.pw + 3) := h.trans (Nat.pow_lt_pow_right (by decide) (by omega))
  have hvalid : cValid k.pw w = false := by simp [cValid, Nat.div_eq_of_lt h]
  simp [decode, decodeConsumer, hfits, hvalid]

/-- The C-format opcode map (R146) on a command word; only `READ` sees the count (R147). -/
theorem decode_commandWord (k : Config) (cmd n : Nat) (hc : cmd < 4) (hn : n < 2 ^ k.pw) :
    decode k (.consumer (commandWord k.pw cmd n)) =
      .ok (if cmd = 0 then .pull else if cmd = 1 then .read n else if cmd = 2 then .clrs else .rsvd) := by
  have hcmd : cCmd k.pw (commandWord k.pw cmd n) = cmd := by
    rw [← consumerWord_one, cCmd_consumerWord k.pw 1 cmd n hc hn]
  have hcount : cCount k.pw (commandWord k.pw cmd n) = n := by
    rw [← consumerWord_one, cCount_consumerWord k.pw 1 cmd n hn]
  rw [decode, if_pos (Laws.commandWord_lt k.pw cmd n hc hn), decodeConsumer, cValid_commandWord k.pw cmd n hc hn, hcmd, hcount]
  interval_cases cmd <;> rfl

/-! ### The obligations -/

/-- Settles O2: each row's word has its own fields, and a well-formed count fits the count field. -/
theorem decodeGivesBackEncode : Obligations.DecodeGivesBackEncode := by
  intro k i h
  have hzero : 0 < 2 ^ k.pw := Nat.two_pow_pos k.pw
  cases i with
  | pnop => exact decode_producerWord k false false 0
  | byte d => exact decode_producerWord k true false d
  | bytel d => exact decode_producerWord k true true d
  | eob => exact decode_producerWord k false true 0
  | cnop => exact decode_consumer_of_lt k 0 (Nat.two_pow_pos (k.pw + 2))
  | pull => exact decode_commandWord k 0 0 (by decide) hzero
  | read n => exact decode_commandWord k 1 n (by decide) (of_decide_eq_true h)
  | clrs => exact decode_commandWord k 2 0 (by decide) hzero
  | rsvd => exact decode_commandWord k 3 0 (by decide) hzero

/-- Settles O3: the two opcode maps, and each word put together again from its fields. -/
theorem everyWordDecodesByItsFields : Obligations.EveryWordDecodesByItsFields := by
  refine ⟨decode_producerWord, fun w => ⟨_, _, _, (producerWord_fields w).symm⟩, ?_, ?_⟩
  · intro k cmd n hc hn
    have hlow : cmd * 2 ^ k.pw + n < 2 ^ (k.pw + 2) := by
      have hfits := Laws.commandWord_lt k.pw cmd n hc hn
      rw [commandWord, Nat.pow_succ 2 (k.pw + 2)] at hfits
      omega
    exact ⟨decode_consumer_of_lt k _ hlow, decode_commandWord k cmd n hc hn⟩
  · intro k w hw
    have hvalid : w / 2 ^ (k.pw + 2) < 2 := Nat.div_lt_of_lt_mul hw
    exact ⟨_, _, _, hvalid, Nat.mod_lt _ (by decide), Nat.mod_lt _ (Nat.two_pow_pos k.pw), (consumerWord_fields k.pw w).symm⟩

/-- Settles O1, by running the decoder on the twelve words of R152. -/
theorem workedEncodingsDecode : Obligations.WorkedEncodingsDecode := by
  unfold Obligations.WorkedEncodingsDecode
  decide

end Sys2Proof
end

