-- ==== Sys2Proof/Proofs/Producer.lean ====
section
/-! PROOF. The producer port (40_producer R180 to R193): what one `wstep` does to the byte assembler, the write cursor and
the storage; the samples a burst writes; how often samples can be written. -/

namespace Sys2Proof.Machine

/-! ### What every `wstep` does -/

/-- A payload byte is the other half of what is pending; the end of a burst leaves nothing pending (10_state R50). -/
theorem wstep_loPending (payload : Option Byte) (eob : Bool) (s : State) :
    (wstep payload eob s).loPending = (!eob && (payload.isSome ^^ s.loPending)) := by
  cases payload with
  | none => cases eob <;> simp [wstep_none]
  | some d =>
    cases h : s.loPending with
    | false => cases eob <;> simp [wstep_low d _ s h]
    | true => cases eob <;> simp [wstep_high d _ s h]

theorem wstep_burstCount (payload : Option Byte) (eob : Bool) (s : State) :
    (wstep payload eob s).burstCount = if eob then s.burstCount + 1 else s.burstCount := by
  cases payload <;> cases eob <;> simp [wstep_eq, payloadAction]

theorem receiveHandshake_receives (s : State) : ReceivesHandshake s (receiveHandshake s) := by
  simp +contextual [ReceivesHandshake]

/-- The assembler, the cursor and the storage are none of the receiver's registers (42_cdc R285). -/
theorem wstep_receives (payload : Option Byte) (eob : Bool) (s : State) : ReceivesHandshake s (wstep payload eob s) := by
  rcases wstep_cases payload eob s with ⟨lo, lb, bc, he⟩ | ⟨d, bc, _, _, he⟩
  · rw [he]
    exact receiveHandshake_receives { s with loPending := lo, loByte := lb, burstCount := bc }
  · rw [he]
    exact receiveHandshake_receives
      { writeSample (sampleOf d s.loByte) s with loPending := false, burstCount := bc }

theorem wstep_edges (payload : Option Byte) (eob : Bool) (s : State) : (wstep payload eob s).edges = s.edges := by
  rcases wstep_cases payload eob s with ⟨lo, lb, bc, he⟩ | ⟨d, bc, _, _, he⟩ <;> simp [he]

theorem wstep_sameEnvironment (payload : Option Byte) (eob : Bool) (s : State) :
    SameEnvironment s (wstep payload eob s) := ⟨wstep_cfg payload eob s, wstep_edges payload eob s⟩

/-! ### What a `wstep` writes, by its payload and the pending byte -/

/-- With no payload nothing is assembled (40_producer R181, R184). -/
theorem wstep_none_assembles_nothing (eob : Bool) (s : State) :
    (wstep none eob s).loByte = s.loByte ∧ (wstep none eob s).W = s.W ∧ (wstep none eob s).Wg = s.Wg ∧
      (wstep none eob s).mem = s.mem := by
  cases eob <;> simp [wstep_none]

/-- With no byte pending a payload byte is kept and nothing is written (40_producer R182, R183). -/
theorem wstep_keeps_low_byte (d : Byte) (eob : Bool) (s : State) (h : s.loPending = false) :
    (wstep (some d) eob s).loByte = d ∧ (wstep (some d) eob s).W = s.W ∧ (wstep (some d) eob s).Wg = s.Wg ∧
      (wstep (some d) eob s).mem = s.mem := by
  cases eob <;> simp [wstep_low d _ s h]

/-- With a byte pending a payload byte completes the sample, which is stored and published (40_producer R182, R185). -/
theorem wstep_completes_sample (d : Byte) (eob : Bool) (s : State) (h : s.loPending = true) :
    (wstep (some d) eob s).loByte = s.loByte ∧ (wstep (some d) eob s).W = addP s.cfg s.W 1 ∧
      (wstep (some d) eob s).Wg = bin2gray (addP s.cfg s.W 1) ∧
      (wstep (some d) eob s).mem = memWrite s.mem (slot s.cfg s.W) (sampleOf d s.loByte) := by
  cases eob <;> simp [wstep_high d _ s h]

/-- A storage with one sample written reads back that sample there, and elsewhere what it read before. -/
theorem reads_of_memWrite (s t : State) (n : Nat) (v : Sample) (h : t.mem = memWrite s.mem n v) :
    (Memory.wf s.mem = true → memRead t.mem n = v) ∧ SameStorageButSlot n s t := by
  rw [SameStorageButSlot, h]
  exact ⟨memRead_memWrite_same s.mem n v, fun a h0 h1 => readByte_memWrite_other s.mem n a v h0 h1⟩

theorem sameStorage_of_mem_eq (s t : State) (h : t.mem = s.mem) : SameStorage s t := fun _ => by rw [h]

/-! ### The transactions that carry a byte -/

section Byte
variable (i : Instr) (d : Byte) (eob : Bool) {s : State}

/-- A byte with none pending is kept, unless the burst ends with it; nothing is written (40_producer R182, R183). -/
theorem exec_first_byte (hi : producerParts i = some (some d, eob)) (hq : s.cfg.isQsf = true) (h : s.loPending = false) :
    ∃ t, exec i s = .next t ∧ t.loByte = d ∧ t.loPending = !eob ∧ t.W = s.W ∧ t.Wg = s.Wg ∧
      t.burstCount = (if eob then s.burstCount + 1 else s.burstCount) ∧ ReceivesHandshake s t ∧ SameReadDomain s t ∧
      SameStorage s t ∧ SameEnvironment s t := by
  obtain ⟨hlb, hW, hWg, hm⟩ := wstep_keeps_low_byte d eob s h
  have hlo : (wstep (some d) eob s).loPending = !eob := by simp [wstep_loPending, h]
  exact ⟨_, exec_of_producerParts i (some d) eob hi s hq, hlb, hlo, hW, hWg, wstep_burstCount (some d) eob s,
    wstep_receives (some d) eob s, wstep_keeps_readDomain (some d) eob s, sameStorage_of_mem_eq s _ hm,
    wstep_sameEnvironment (some d) eob s⟩

/-- A byte with one pending is the high byte of a sample, which is written and published (40_producer R182, R183, R185). -/
theorem exec_second_byte (hi : producerParts i = some (some d, eob)) (hq : s.cfg.isQsf = true) (h : s.loPending = true) :
    ∃ t, exec i s = .next t ∧ t.loByte = s.loByte ∧ t.loPending = false ∧ t.W = addP s.cfg s.W 1 ∧
      t.Wg = bin2gray (addP s.cfg s.W 1) ∧ (Memory.wf s.mem = true → memRead t.mem (slot s.cfg s.W) = d ++ s.loByte) ∧
      SameStorageButSlot (slot s.cfg s.W) s t ∧ t.burstCount = (if eob then s.burstCount + 1 else s.burstCount) ∧
      ReceivesHandshake s t ∧ SameReadDomain s t ∧ SameEnvironment s t := by
  obtain ⟨hlb, hW, hWg, hm⟩ := wstep_completes_sample d eob s h
  obtain ⟨hread, hother⟩ := reads_of_memWrite s _ _ _ hm
  have hlo : (wstep (some d) eob s).loPending = false := by simp [wstep_loPending, h]
  exact ⟨_, exec_of_producerParts i (some d) eob hi s hq, hlb, hlo, hW, hWg, hread, hother,
    wstep_burstCount (some d) eob s, wstep_receives (some d) eob s, wstep_keeps_readDomain (some d) eob s,
    wstep_sameEnvironment (some d) eob s⟩

end Byte

/-! ### The samples of a burst -/

/-- A cursor advanced twice. -/
theorem addP_addP (k : Config) (a m n : Nat) : addP k (addP k a m) n = addP k a (m + n) := by
  rw [addP, addP, addP, Nat.mod_add_mod, Nat.add_assoc]

theorem addP_zero (k : Config) (a : Nat) (h : a < 2 ^ k.pw) : addP k a 0 = a := Nat.mod_eq_of_lt h

/-- Storing one list of samples after another is storing both. -/
theorem storeAll_append (k : Config) (m : Memory) (p : Nat) (vs us : List Sample) (h : p < 2 ^ k.pw) :
    storeAll k m p (vs ++ us) = storeAll k (storeAll k m p vs) (addP k p vs.length) us := by
  induction vs generalizing m p with
  | nil => rw [List.length_nil, addP_zero k p h]; rfl
  | cons v vs ih =>
    simp only [List.cons_append, storeAll, List.length_cons]
    rw [ih _ _ (addP_lt k p 1), addP_addP, Nat.add_comm]

/-- Two bytes to a sample; an odd last byte belongs to none (40_producer R188). -/
theorem samplesOf_length (bs : List Byte) : (samplesOf bs).length = bs.length / 2 := by
  induction bs using samplesOf.induct with
  | case1 low high rest ih => simp only [samplesOf, List.length_cons, ih]; omega
  | case2 bs hshort =>
    match bs, hshort with
    | [], _ => rfl
    | [_], _ => simp [samplesOf]
    | low :: high :: rest, h => exact (h low high rest rfl).elim

/-- Sample `n` is made of bytes `2n` and `2n + 1`, the earlier one low (20_memory R103). -/
theorem samplesOf_getElem? (bs : List Byte) (n : Nat) :
    (samplesOf bs)[n]? = (bs[2 * n + 1]?.bind fun high => bs[2 * n]?.map fun low => high ++ low) := by
  induction bs using samplesOf.induct generalizing n with
  | case1 low high rest ih =>
    cases n with
    | zero => rfl
    | succ n => simpa [samplesOf, Nat.mul_add] using ih n
  | case2 bs hshort =>
    match bs, hshort with
    | [], _ => rfl
    | [_], _ => simp [samplesOf]
    | low :: high :: rest, h => exact (h low high rest rfl).elim

/-- From `s` to `t` exactly these samples are written, in order, at consecutive values of the write cursor. -/
structure WritesSamples (vs : List Sample) (s t : State) : Prop where
  cfg : t.cfg = s.cfg
  W : t.W = addP s.cfg s.W vs.length
  mem : t.mem = storeAll s.cfg s.mem s.W vs

theorem WritesSamples.none {s t : State} (hW : s.W < 2 ^ s.cfg.pw) (hk : t.cfg = s.cfg) (hw : t.W = s.W)
    (hm : t.mem = s.mem) : WritesSamples [] s t :=
  ⟨hk, hw.trans (addP_zero s.cfg s.W hW).symm, hm⟩

theorem WritesSamples.W_lt {vs : List Sample} {s t : State} (h : WritesSamples vs s t) : t.W < 2 ^ t.cfg.pw := by
  rw [h.W, h.cfg]
  exact addP_lt _ _ _

theorem WritesSamples.append {vs us : List Sample} {s t u : State} (hW : s.W < 2 ^ s.cfg.pw) (h : WritesSamples vs s t)
    (h' : WritesSamples us t u) : WritesSamples (vs ++ us) s u where
  cfg := h'.cfg.trans h.cfg
  W := by rw [h'.W, h.cfg, h.W, addP_addP, List.length_append]
  mem := by rw [h'.mem, h.cfg, h.mem, h.W, storeAll_append _ _ _ _ _ hW]

/-- The bytes of the burst in progress that no sample holds yet (10_state R50). -/
def State.pendingBytes (s : State) : List Byte := if s.loPending then [s.loByte] else []

@[simp] theorem pendingBytes_nil (s : State) (h : s.loPending = false) : s.pendingBytes = [] := by
  simp [State.pendingBytes, h]

@[simp] theorem pendingBytes_singleton (s : State) (h : s.loPending = true) : s.pendingBytes = [s.loByte] := by
  simp [State.pendingBytes, h]

/-- A `wstep` writes the samples made of the pending byte and the presented one. -/
theorem wstep_writes (payload : Option Byte) (eob : Bool) (s : State) (hW : s.W < 2 ^ s.cfg.pw) :
    WritesSamples (samplesOf (s.pendingBytes ++ payload.toList)) s (wstep payload eob s) := by
  have hk := wstep_cfg payload eob s
  cases payload with
  | none =>
    obtain ⟨_, hw, _, hm⟩ := wstep_none_assembles_nothing eob s
    have hnone : samplesOf (s.pendingBytes ++ (none : Option Byte).toList) = [] := by
      cases h : s.loPending <;> simp [h, samplesOf]
    rw [hnone]
    exact .none hW hk hw hm
  | some d =>
    cases h : s.loPending with
    | false =>
      obtain ⟨_, hw, _, hm⟩ := wstep_keeps_low_byte d eob s h
      rw [pendingBytes_nil s h]
      exact .none hW hk hw hm
    | true =>
      obtain ⟨_, hw, _, hm⟩ := wstep_completes_sample d eob s h
      rw [pendingBytes_singleton s h]
      exact ⟨hk, hw, hm⟩

/-- Inside a burst, what a `wstep` leaves pending starts the next sample. -/
theorem samplesOf_wstep (payload : Option Byte) (s : State) (bs : List Byte) :
    samplesOf (s.pendingBytes ++ (payload.toList ++ bs)) =
      samplesOf (s.pendingBytes ++ payload.toList) ++ samplesOf ((wstep payload false s).pendingBytes ++ bs) := by
  have hlo := wstep_loPending payload false s
  cases payload with
  | none =>
    obtain ⟨hlb, _⟩ := wstep_none_assembles_nothing false s
    cases h : s.loPending <;> simp [State.pendingBytes, hlo, hlb, h, samplesOf]
  | some d =>
    cases h : s.loPending with
    | false =>
      obtain ⟨hlb, _⟩ := wstep_keeps_low_byte d false s h
      simp [State.pendingBytes, hlo, hlb, h, samplesOf]
    | true => simp [State.pendingBytes, hlo, h, samplesOf]

/-! ### The transactions of a burst -/

theorem bytesOf_cons (i : Instr) (is : List Instr) : bytesOf (i :: is) = bytesOf [i] ++ bytesOf is := by
  cases i <;> rfl

theorem quiet_cons (i : Instr) (is : List Instr) : quiet (i :: is) = (quiet [i] && quiet is) := by
  cases i <;> rfl

/-- One transaction alone is a burst exactly when it ends one (40_producer R190). -/
theorem oneBurst_cons (i : Instr) (is : List Instr) :
    oneBurst (i :: is) = if oneBurst [i] then quiet is else oneBurst is := by
  cases i <;> rfl

theorem no_byte_of_quiet (i : Instr) (h : quiet [i] = true) : bytesOf [i] = [] ∧ oneBurst [i] = false := by
  cases i <;> simp [quiet, bytesOf, oneBurst] at h ⊢

theorem bytesOf_of_quiet (is : List Instr) (h : quiet is = true) : bytesOf is = [] := by
  induction is with
  | nil => rfl
  | cons i is ih =>
    rw [quiet_cons, Bool.and_eq_true] at h
    obtain ⟨hi, his⟩ := h
    rw [bytesOf_cons, (no_byte_of_quiet i hi).1, ih his, List.nil_append]

/-- A producer transaction's payload is its byte, and its end of burst is a burst's end. -/
theorem burst_of_producerParts (i : Instr) (payload : Option Byte) (eob : Bool)
    (h : producerParts i = some (payload, eob)) : bytesOf [i] = payload.toList ∧ oneBurst [i] = eob := by
  cases i <;> simp only [producerParts, Option.some.injEq, Prod.mk.injEq, reduceCtorEq] at h <;>
    obtain ⟨rfl, rfl⟩ := h <;> exact ⟨rfl, rfl⟩

theorem burst_of_commandOf (i : Instr) (cmd : Command) (h : commandOf i = some cmd) :
    bytesOf [i] = [] ∧ oneBurst [i] = false := by
  cases i <;> simp only [commandOf, reduceCtorEq] at h <;> exact ⟨rfl, rfl⟩

/-- What one transaction with these bytes and this end of burst does to the burst in progress: it writes the samples its
bytes complete, leaves what is pending for the bytes to come, and an end of burst discards that and is counted. -/
structure TakesPart (bytes : List Byte) (ends : Bool) (s t : State) : Prop where
  writes : WritesSamples (samplesOf (s.pendingBytes ++ bytes)) s t
  continues : ends = false → ∀ later,
    samplesOf (s.pendingBytes ++ (bytes ++ later)) =
      samplesOf (s.pendingBytes ++ bytes) ++ samplesOf (t.pendingBytes ++ later)
  loPending : t.loPending = (!ends && (!bytes.isEmpty ^^ s.loPending))
  burstCount : t.burstCount = if ends then s.burstCount + 1 else s.burstCount

theorem wstep_takesPart (payload : Option Byte) (eob : Bool) (s : State) (hW : s.W < 2 ^ s.cfg.pw) :
    TakesPart payload.toList eob s (wstep payload eob s) where
  writes := wstep_writes payload eob s hW
  continues := by
    rintro rfl later
    exact samplesOf_wstep payload s later
  loPending := by rw [wstep_loPending]; cases payload <;> rfl
  burstCount := wstep_burstCount payload eob s

/-- A consumer word is no part of the burst (10_state R46). -/
theorem rstep_takesPart (i : Instr) (cmd : Command) (hc : commandOf i = some cmd) (s : State) (hW : s.W < 2 ^ s.cfg.pw) :
    TakesPart [] false s (rstep cmd s) := by
  obtain ⟨⟨hw, _, hlo, hlb, hbc, _⟩, hm⟩ := rstep_keeps_writeDomain i cmd hc s
  have hpending : (rstep cmd s).pendingBytes = s.pendingBytes := by simp only [State.pendingBytes, hlo, hlb]
  have hnone : samplesOf s.pendingBytes = [] := by cases h : s.loPending <;> simp [h, samplesOf]
  refine ⟨?_, fun _ later => ?_, by simpa using hlo, hbc⟩
  · rw [List.append_nil, hnone]
    exact .none hW (rstep_cfg i cmd hc s) hw hm
  · rw [List.append_nil, hnone, hpending]
    rfl

theorem exec_takesPart (i : Instr) (s : State) (hq : s.cfg.isQsf = true) (hW : s.W < 2 ^ s.cfg.pw) :
    ∃ t, exec i s = .next t ∧ TakesPart (bytesOf [i]) (oneBurst [i]) s t := by
  cases hp : i.port with
  | producer =>
    obtain ⟨payload, eob, hpe, _⟩ := exec_producer i hp s
    obtain ⟨hbytes, hends⟩ := burst_of_producerParts i payload eob hpe
    rw [hbytes, hends]
    exact ⟨_, exec_of_producerParts i payload eob hpe s hq, wstep_takesPart payload eob s hW⟩
  | consumer =>
    obtain ⟨cmd, hc, _⟩ := exec_consumer i hp s
    obtain ⟨hbytes, hends⟩ := burst_of_commandOf i cmd hc
    rw [hbytes, hends]
    exact ⟨_, exec_of_commandOf i cmd hc s hq, rstep_takesPart i cmd hc s hW⟩

/-! ### The run of a burst -/

/-- A schedule runs its first transaction, then the rest. -/
theorem play_schedule_cons (i : Instr) (is : List Instr) (s t : State) (hi : i.wf s.cfg = true) (hx : exec i s = .next t) :
    play (schedule s.cfg (i :: is)) s = play (schedule t.cfg is) t := by
  rw [exec_cfg i s t hx]
  exact play_word _ i _ s t (decodeGivesBackEncode s.cfg i hi) hx

/-- With no byte pending, quiet transactions write nothing, start nothing and count nothing. -/
theorem play_quiet (is : List Instr) (s : State) (hq : s.cfg.isQsf = true) (hW : s.W < 2 ^ s.cfg.pw)
    (hwf : ∀ i ∈ is, i.wf s.cfg = true) (hlo : s.loPending = false) (h : quiet is = true) :
    ∃ t, play (schedule s.cfg is) s = .next t ∧ WritesSamples [] s t ∧ t.loPending = false ∧
      t.burstCount = s.burstCount := by
  induction is generalizing s with
  | nil => exact ⟨withEdges [] s, play_nil s, .none hW rfl rfl rfl, hlo, rfl⟩
  | cons i is ih =>
    rw [quiet_cons, Bool.and_eq_true] at h
    obtain ⟨hi, his⟩ := h
    obtain ⟨hwfi, hwfis⟩ := List.forall_mem_cons.mp hwf
    obtain ⟨t, hx, hpart⟩ := exec_takesPart i s hq hW
    obtain ⟨hbytes, hends⟩ := no_byte_of_quiet i hi
    rw [hbytes, hends] at hpart
    have hwrites : WritesSamples [] s t := by simpa [hlo, samplesOf] using hpart.writes
    have htlo : t.loPending = false := by simpa [hlo] using hpart.loPending
    obtain ⟨u, hplay, hwu, hulo, hubc⟩ := ih t (hwrites.cfg ▸ hq) hwrites.W_lt (hwrites.cfg ▸ hwfis) htlo his
    exact ⟨u, (play_schedule_cons i is s t hwfi hx).trans hplay, hwrites.append hW hwu, hulo,
      hubc.trans hpart.burstCount⟩

/-- From any point inside a burst, its remaining transactions write the samples of the pending and the remaining bytes. -/
theorem play_oneBurst (is : List Instr) (s : State) (hq : s.cfg.isQsf = true) (hW : s.W < 2 ^ s.cfg.pw)
    (hwf : ∀ i ∈ is, i.wf s.cfg = true) (h : oneBurst is = true) :
    ∃ t, play (schedule s.cfg is) s = .next t ∧ WritesSamples (samplesOf (s.pendingBytes ++ bytesOf is)) s t ∧
      t.loPending = false ∧ t.burstCount = s.burstCount + 1 := by
  induction is generalizing s with
  | nil => simp [oneBurst] at h
  | cons i is ih =>
    obtain ⟨hwfi, hwfis⟩ := List.forall_mem_cons.mp hwf
    obtain ⟨t, hx, hpart⟩ := exec_takesPart i s hq hW
    have hk := hpart.writes.cfg
    have hplay := play_schedule_cons i is s t hwfi hx
    rw [oneBurst_cons] at h
    rw [bytesOf_cons, hplay]
    cases hends : oneBurst [i] with
    | true =>
      rw [hends] at h hpart
      obtain ⟨u, hu, hwu, hulo, hubc⟩ := play_quiet is t (hk ▸ hq) hpart.writes.W_lt (hk ▸ hwfis) hpart.loPending h
      rw [bytesOf_of_quiet is h, List.append_nil]
      exact ⟨u, hu, by simpa using hpart.writes.append hW hwu, hulo, hubc.trans hpart.burstCount⟩
    | false =>
      rw [hends] at h hpart
      obtain ⟨u, hu, hwu, hulo, hubc⟩ := ih t (hk ▸ hq) hpart.writes.W_lt (hk ▸ hwfis) h
      rw [hpart.continues rfl]
      exact ⟨u, hu, hpart.writes.append hW hwu, hulo, hubc.trans (congrArg (· + 1) hpart.burstCount)⟩

/-! ### How often samples are written -/

/-- The producer step of a word, from its fields (30_encoding R145). -/
theorem producerParts_decodeProducer (w : BitVec 10) :
    producerParts (decodeProducer w) = some (if pValid w then some (pData w) else none, pEob w) := by
  unfold decodeProducer
  cases pValid w <;> cases pEob w <;> rfl

/-- The samples of a pending and a presented byte, counted. -/
theorem samplesOf_pending_length (payload : Option Byte) (s : State) :
    (samplesOf (s.pendingBytes ++ payload.toList)).length = if payload.isSome && s.loPending then 1 else 0 := by
  cases payload <;> cases h : s.loPending <;> simp [h, samplesOf]

/-- A producer word advances the cursor by the samples it writes and leaves pending what `samplesIn` goes on from. -/
theorem exec_producer_word (w : BitVec 10) (s : State) (hq : s.cfg.isQsf = true) (hW : s.W < 2 ^ s.cfg.pw) :
    ∃ t, exec (decodeProducer w) s = .next t ∧ t.cfg = s.cfg ∧ t.W < 2 ^ t.cfg.pw ∧
      t.W = addP s.cfg s.W (if pValid w && s.loPending then 1 else 0) ∧
      t.loPending = (if pEob w then false else if pValid w then !s.loPending else s.loPending) := by
  have hwrites := wstep_writes (if pValid w then some (pData w) else none) (pEob w) s hW
  refine ⟨_, exec_of_producerParts _ _ _ (producerParts_decodeProducer w) s hq, hwrites.cfg, hwrites.W_lt, ?_, ?_⟩
  · rw [hwrites.W, samplesOf_pending_length]
    cases pValid w <;> rfl
  · rw [wstep_loPending]
    cases pValid w <;> cases pEob w <;> simp

/-- Any run of port words advances the cursor by the samples that `samplesIn` counts. -/
theorem play_words_W (ws : List PortWord) (s : State) (hq : s.cfg.isQsf = true) (hW : s.W < 2 ^ s.cfg.pw)
    (hwf : ∀ w ∈ ws, w.wf s.cfg = true) :
    ∃ t, play (ws.map .port) s = .next t ∧ t.W = addP s.cfg s.W (samplesIn s.loPending (producerWords ws)) := by
  induction ws generalizing s with
  | nil => exact ⟨withEdges [] s, play_nil s, (addP_zero s.cfg s.W hW).symm⟩
  | cons w ws ih =>
    obtain ⟨hw, hws⟩ := List.forall_mem_cons.mp hwf
    cases w with
    | producer w =>
      obtain ⟨t, hx, hk, htW, hadd, hlo⟩ := exec_producer_word w s hq hW
      obtain ⟨u, hu, huW⟩ := ih t (hk ▸ hq) htW (hk ▸ hws)
      exact ⟨u, (play_word _ _ _ s t rfl hx).trans hu, by rw [huW, hk, hadd, addP_addP, hlo]; rfl⟩
    | consumer w =>
      obtain ⟨i, hd⟩ := decode_of_wf s.cfg (.consumer w) hw
      obtain ⟨cmd, hc, _⟩ := exec_consumer i (decode_port s.cfg _ i hd) s
      obtain ⟨⟨htW, _, hlo, _⟩, _⟩ := rstep_keeps_writeDomain i cmd hc s
      have hk := rstep_cfg i cmd hc s
      obtain ⟨u, hu, huW⟩ := ih (rstep cmd s) (hk ▸ hq) (by rwa [htW, hk]) (hk ▸ hws)
      refine ⟨u, (play_word _ i _ s _ hd (exec_of_commandOf i cmd hc s hq)).trans hu, ?_⟩
      rw [huW, hk, htW, hlo]
      rfl

/-- A sample takes two bytes, of which only the first can be pending already (40_producer R193). -/
theorem samplesIn_le (lo : Bool) (ws : List (BitVec 10)) : samplesIn lo ws ≤ (ws.length + lo.toNat) / 2 := by
  induction ws generalizing lo with
  | nil => exact Nat.zero_le _
  | cons w ws ih =>
    have hrest := ih (if pEob w then false else if pValid w then !lo else lo)
    have hbit := Bool.toNat_le (if pEob w then false else if pValid w then !lo else lo)
    rw [samplesIn, List.length_cons]
    cases hsample : pValid w && lo with
    | false =>
      rw [if_neg Bool.false_ne_true]
      omega
    | true =>
      obtain ⟨hvalid, rfl⟩ := Bool.and_eq_true_iff.mp hsample
      simp only [hvalid, if_true, Bool.not_true, ite_self, Bool.toNat_false, Bool.toNat_true] at hrest ⊢
      omega

/-! ### The obligations -/

/-- Settles O11: with no payload and no end of burst only the receiver acts. -/
theorem pnopOnlyReceivesTheHandshake : Obligations.PnopOnlyReceivesTheHandshake := by
  intro s hq
  refine ⟨decode_producerWord s.cfg false false, _, exec_of_producerParts .pnop none false rfl s hq, ?_⟩
  obtain ⟨hlb, hW, hWg, hm⟩ := wstep_none_assembles_nothing false s
  exact ⟨wstep_receives none false s, hW, hWg, by simpa using wstep_loPending none false s, hlb,
    wstep_burstCount none false s, wstep_keeps_readDomain none false s, sameStorage_of_mem_eq s _ hm,
    wstep_sameEnvironment none false s⟩

/-- Settles O12, by whether a byte is pending. -/
theorem byteStartsOrCompletesASample : Obligations.ByteStartsOrCompletesASample := fun s d hq =>
  ⟨decode_producerWord s.cfg true false, exec_first_byte (.byte d) d false rfl hq, exec_second_byte (.byte d) d false rfl hq⟩

/-- Settles O13, by whether a byte is pending; either way the end of the burst takes `lo_pending`. -/
theorem bytelEndsTheBurst : Obligations.BytelEndsTheBurst := fun s d hq =>
  ⟨decode_producerWord s.cfg true true, exec_first_byte (.bytel d) d true rfl hq, exec_second_byte (.bytel d) d true rfl hq⟩

/-- Settles O14: with no payload only the end of the burst and the receiver act. -/
theorem eobEndsTheBurst : Obligations.EobEndsTheBurst := by
  intro s hq
  refine ⟨decode_producerWord s.cfg false true, _, exec_of_producerParts .eob none true rfl s hq, ?_⟩
  obtain ⟨hlb, hW, hWg, hm⟩ := wstep_none_assembles_nothing true s
  exact ⟨wstep_loPending none true s, wstep_burstCount none true s, hlb, hW, hWg, wstep_receives none true s,
    wstep_keeps_readDomain none true s, sameStorage_of_mem_eq s _ hm, wstep_sameEnvironment none true s⟩

/-- Settles O15, by induction on the transactions, from any pending byte: here from none. -/
theorem burstWritesItsSamplesInOrder : Obligations.BurstWritesItsSamplesInOrder := by
  intro s is hq hlo hW hwf h
  obtain ⟨t, hplay, hwrites, htlo, hbc⟩ := play_oneBurst is s hq hW hwf h
  rw [pendingBytes_nil s hlo, List.nil_append] at hwrites
  have hlen := samplesOf_length (bytesOf is)
  exact ⟨t, hplay, htlo, hbc, hlen ▸ hwrites.W, hwrites.mem, hlen, fun n _ => samplesOf_getElem? (bytesOf is) n⟩

/-- Settles O16: the run writes what `samplesIn` counts, which is at most one sample to two words, rounded up. -/
theorem atMostOneSamplePerTwoWsteps : Obligations.AtMostOneSamplePerTwoWsteps := by
  intro s ws hq hW hwf
  have hle : samplesIn s.loPending (producerWords ws) ≤ ((producerWords ws).length + 1) / 2 :=
    (samplesIn_le _ _).trans (Nat.div_le_div_right (Nat.add_le_add_left (Bool.toNat_le _) _))
  refine ⟨play_words_W ws s hq hW hwf, hle, fun hrate => ?_⟩
  obtain ⟨_, _, hf, hfc, _⟩ := (isQsf_iff s.cfg).mp hq
  have hm : (producerWords ws).length ≤ 2 * s.cfg.c - 2 := hrate
  omega

end Sys2Proof.Machine
end

