-- ==== Sys2Proof/Proofs/Consumer.lean ====
section
/-! PROOF. The consumer port (41_consumer R220 to R242): what one `rstep` does, in its parts and by the command it accepts; the
samples an accepted command emits over the `rstep`s that follow. -/

namespace Sys2Proof.Machine

/-! ### Catch-up -/

/-- What catch-up finds, by the numbers the statements name (41_consumer R222, R223). -/
theorem catchUp_eq (s : State) : catchUp s = ⟨s.caughtUp, s.toDrop, s.rAvail⟩ := by
  rcases Nat.lt_or_ge s.cfg.c (unread s) with h | h
  · have hdrop : s.toDrop ≠ 0 := Nat.sub_ne_zero_of_lt h
    have havail : s.rAvail = s.cfg.c := Nat.min_eq_right h.le
    rw [catchUp_drops s h, State.caughtUp, if_neg hdrop, havail]
    rfl
  · have hdrop : s.toDrop = 0 := Nat.sub_eq_zero_of_le h
    have havail : s.rAvail = unread s := Nat.min_eq_left h
    rw [catchUp_keeps s h, State.caughtUp, if_pos hdrop, hdrop, havail]

/-- With less than the capacity available nothing is dropped. -/
theorem toDrop_eq_zero_of_rAvail_lt (s : State) (h : s.rAvail < s.cfg.c) : s.toDrop = 0 := by
  have hunread : subP s.cfg s.Ws s.R ≤ s.cfg.c := by
    rw [State.rAvail, min_lt_iff] at h
    omega
  exact Nat.sub_eq_zero_of_le hunread

theorem caughtUp_of_no_drop (s : State) (h : s.toDrop = 0) : s.caughtUp = s.R := if_pos h

theorem caughtUp_of_drop (s : State) (h : 0 < s.toDrop) : s.caughtUp = subP s.cfg s.Ws s.cfg.c := if_neg h.ne'

/-! ### What no command does -/

/-- No accepted command writes the cursor, the crossings' registers, the drop counter or the trace (41_consumer R225 to R231). -/
theorem command_keeps_crossings (i : Instr) (cmd : Command) (h : commandOf i = some cmd) (u : CatchUp) (s : State) :
    (cmd u s).R = s.R ∧ (cmd u s).ws1 = s.ws1 ∧ (cmd u s).reqR = s.reqR ∧ (cmd u s).Rhold = s.Rhold ∧
      (cmd u s).ackS1 = s.ackS1 ∧ (cmd u s).ackS2 = s.ackS2 ∧ (cmd u s).dropCount = s.dropCount ∧
      (cmd u s).trace = s.trace := by
  cases i <;> simp only [commandOf, Option.some.injEq, reduceCtorEq] at h <;> subst h <;> simp

/-- Only `CLRS` writes `ovf`, and only when the step drops nothing (41_consumer R230). -/
theorem command_ovf (i : Instr) (cmd : Command) (h : commandOf i = some cmd) (u : CatchUp) (s : State) :
    (cmd u s).ovf = if i = .clrs ∧ u.drop = 0 then false else s.ovf := by
  cases i <;> simp only [commandOf, Option.some.injEq, reduceCtorEq] at h <;> subst h <;> simp [acceptClrs_ovf]

/-! ### What every `rstep` does -/

/-- The last two parts of a `rstep` are the crossings, when the parts before leave what they read (42_cdc R281, R284). -/
theorem crosses_of_parts (s u : State) (hWg : u.Wg = s.Wg) (hackW : u.ackW = s.ackW) (hws1 : u.ws1 = s.ws1)
    (hreq : u.reqR = s.reqR) (hhold : u.Rhold = s.Rhold) (hack1 : u.ackS1 = s.ackS1) (hack2 : u.ackS2 = s.ackS2) :
    Crosses s (sendHandshake s.R (synchronise u)) := by
  simp +contextual [Crosses, hWg, hackW, hws1, hreq, hhold, hack1, hack2]

theorem rstep_crosses (i : Instr) (cmd : Command) (hc : commandOf i = some cmd) (s : State) : Crosses s (rstep cmd s) := by
  rcases rstep_cases cmd s with ⟨_, he⟩ | ⟨_, he⟩ | ⟨_, _, he⟩
  · obtain ⟨_, _, _, _, hWg, _, _, _, _, _, hackW, _⟩ := command_frame i cmd hc (catchUp s) (applyCatchUp (catchUp s) s)
    obtain ⟨_, hws1, hreq, hhold, hack1, hack2, _⟩ :=
      command_keeps_crossings i cmd hc (catchUp s) (applyCatchUp (catchUp s) s)
    rw [he]
    exact crosses_of_parts s _ hWg hackW hws1 hreq hhold hack1 hack2
  · rw [he]
    exact crosses_of_parts s _ rfl rfl rfl rfl rfl rfl rfl
  · rw [he]
    exact crosses_of_parts s _ rfl rfl rfl rfl rfl rfl rfl

/-- Whatever is accepted or streamed, what catch-up drops is counted. -/
theorem rstep_dropCount (i : Instr) (cmd : Command) (hc : commandOf i = some cmd) (s : State) :
    (rstep cmd s).dropCount = s.dropCount + BitVec.ofNat 32 s.toDrop := by
  rcases rstep_cases cmd s with ⟨_, he⟩ | ⟨_, he⟩ | ⟨_, _, he⟩
  · simp [he, command_keeps_crossings i cmd hc, catchUp_eq]
  · simp [he, catchUp_eq]
  · simp [he, catchUp_eq]

theorem rstep_edges (i : Instr) (cmd : Command) (hc : commandOf i = some cmd) (s : State) :
    (rstep cmd s).edges = s.edges := by
  rcases rstep_cases cmd s with ⟨_, he⟩ | ⟨_, he⟩ | ⟨_, _, he⟩
  · simp [he, command_frame i cmd hc]
  · simp [he]
  · simp [he]

theorem rstep_frame (i : Instr) (cmd : Command) (hc : commandOf i = some cmd) (s : State) : RstepFrame s (rstep cmd s) := by
  obtain ⟨hwrite, hmem⟩ := rstep_keeps_writeDomain i cmd hc s
  exact ⟨rstep_dropCount i cmd hc s, rstep_crosses i cmd hc s, hwrite, sameStorage_of_mem_eq s _ hmem,
    rstep_cfg i cmd hc s, rstep_edges i cmd hc s⟩

/-! ### A `rstep` while a command streams -/

theorem not_cReady_of_remaining (s : State) (h : 0 < s.remaining) : s.cReady = false := by
  rw [Bool.eq_false_iff, ne_eq, cReady_iff_remaining]
  exact h.ne'

/-- At `c_ready = 0` the step does not depend on the command (41_consumer R239). -/
theorem rstep_busy_congr (cmd cmd' : Command) (s : State) (h : s.cReady = false) : rstep cmd s = rstep cmd' s := by
  simp [rstep, acceptOrStream, h]

/-- Streaming leaves the indications to catch-up (41_consumer R222, R238). -/
theorem rstep_busy_indications (cmd : Command) (s : State) (h : s.cReady = false) :
    (rstep cmd s).starved = s.starved ∧ (rstep cmd s).underrunCount = s.underrunCount ∧
      (rstep cmd s).ovf = (s.ovf || decide (0 < s.toDrop)) := by
  rcases rstep_cases cmd s with ⟨hr, _⟩ | ⟨_, he⟩ | ⟨_, _, he⟩
  · simp [h] at hr
  · simp [he, catchUp_eq]
  · simp [he, catchUp_eq]

/-- At `c_ready = 0` one sample is streamed: a real one while there are any, else silence (41_consumer R224). -/
theorem rstep_streamsOne (i : Instr) (cmd : Command) (hc : commandOf i = some cmd) (s : State) (h : s.cReady = false) :
    StreamsOne s (rstep cmd s) := by
  have hframe := rstep_frame i cmd hc s
  obtain ⟨hstarved, hunder, hovf⟩ := rstep_busy_indications cmd s h
  rcases rstep_cases cmd s with ⟨hr, _⟩ | ⟨hr, he⟩ | ⟨h0, _, he⟩
  · simp [h] at hr
  · refine ⟨fun _ => ?_, fun h0 => absurd h0 hr.ne', hstarved, hunder, hovf, hframe⟩
    simp [he, catchUp_eq, EmitsEvent, beq_eq_decide]
  · refine ⟨fun hr => absurd h0 hr.ne', fun _ => ?_, hstarved, hunder, hovf, hframe⟩
    simp [he, catchUp_eq, h0, silenceSample, EmitsEvent, beq_eq_decide]

/-! ### A `rstep` that accepts a command -/

/-- The state an accepted command leaves, before the output port and the crossings (41_consumer R220, R224). -/
def accepted (cmd : Command) (s : State) : State := cmd (catchUp s) (applyCatchUp (catchUp s) s)

/-- An accepting `rstep` shows the command's split and indications. -/
theorem rstep_ready_shows (cmd : Command) (s : State) (h : s.cReady = true) :
    (rstep cmd s).nReal = (accepted cmd s).nReal ∧ (rstep cmd s).nZero = (accepted cmd s).nZero ∧
      (rstep cmd s).starved = (accepted cmd s).starved ∧
      (rstep cmd s).underrunCount = (accepted cmd s).underrunCount := by
  simp [rstep_idle cmd s h, accepted]

/-- An accepting `rstep` emits nothing. -/
theorem rstep_ready_emitsNothing (i : Instr) (cmd : Command) (hc : commandOf i = some cmd) (s : State)
    (h : s.cReady = true) : EmitsNothing s (rstep cmd s) := by
  simp [EmitsNothing, rstep_idle cmd s h, command_keeps_crossings i cmd hc]

/-! ### The cursor and the overflow indication after any `rstep` -/

theorem rstep_R (i : Instr) (cmd : Command) (hc : commandOf i = some cmd) (s : State) :
    (rstep cmd s).R = if 0 < s.nReal then addP s.cfg s.caughtUp 1 else s.caughtUp := by
  rcases rstep_cases cmd s with ⟨hr, he⟩ | ⟨hr, he⟩ | ⟨h0, _, he⟩
  · obtain ⟨h0, _⟩ := (cReady_iff s).mp hr
    simp [he, command_keeps_crossings i cmd hc, catchUp_eq, h0]
  · simp [he, catchUp_eq, hr]
  · simp [he, catchUp_eq, h0]

/-- `ovf` is cleared by an accepted `CLRS` of a step that drops nothing, and set by a drop (41_consumer R222, R230). -/
theorem rstep_ovf (i : Instr) (cmd : Command) (hc : commandOf i = some cmd) (s : State) :
    (rstep cmd s).ovf =
      if i = .clrs ∧ s.cReady = true ∧ s.toDrop = 0 then false else (s.ovf || decide (0 < s.toDrop)) := by
  cases hr : s.cReady with
  | true => simp [rstep_idle cmd s hr, command_ovf i cmd hc, catchUp_eq]
  | false =>
    obtain ⟨_, _, hovf⟩ := rstep_busy_indications cmd s hr
    simpa using hovf

/-- At `c_ready = 1` the cursor only catches up. -/
theorem rstep_ready_R (i : Instr) (cmd : Command) (hc : commandOf i = some cmd) (s : State) (h : s.cReady = true) :
    (rstep cmd s).R = s.caughtUp := by
  obtain ⟨h0, _⟩ := (cReady_iff s).mp h
  rw [rstep_R i cmd hc s, if_neg (by omega)]

/-- Every command but `CLRS` leaves `ovf` to catch-up. -/
theorem rstep_ovf_of_ne_clrs (i : Instr) (cmd : Command) (hc : commandOf i = some cmd) (s : State) (hi : i ≠ .clrs) :
    (rstep cmd s).ovf = (s.ovf || decide (0 < s.toDrop)) := by
  rw [rstep_ovf i cmd hc s, if_neg fun ⟨hclrs, _⟩ => hi hclrs]

/-! ### What an accepted command does, by the command -/

/-- A `rstep` at `c_ready = 1` whose command changes nothing. -/
theorem rstep_acceptNothing_ready (s : State) (h : s.cReady = true) :
    (rstep acceptNothing s).R = s.caughtUp ∧ (rstep acceptNothing s).ovf = (s.ovf || decide (0 < s.toDrop)) ∧
      (rstep acceptNothing s).nReal = 0 ∧ (rstep acceptNothing s).nZero = 0 ∧
      (rstep acceptNothing s).starved = s.starved ∧ (rstep acceptNothing s).underrunCount = s.underrunCount ∧
      EmitsNothing s (rstep acceptNothing s) ∧ RstepFrame s (rstep acceptNothing s) := by
  obtain ⟨h0, hz⟩ := (cReady_iff s).mp h
  obtain ⟨hnr, hnz, hstarved, hunder⟩ := rstep_ready_shows acceptNothing s h
  exact ⟨rstep_ready_R .cnop _ rfl s h, rstep_ovf_of_ne_clrs .cnop _ rfl s nofun, hnr.trans h0, hnz.trans hz, hstarved,
    hunder, rstep_ready_emitsNothing .cnop _ rfl s h, rstep_frame .cnop _ rfl s⟩

/-- An accepted `PULL` with a whole frame available takes the FEEDING path (41_consumer R227). -/
theorem rstep_pull_feeding (s : State) (h : s.cReady = true) (hf : s.cfg.f ≤ s.rAvail) :
    (rstep acceptPull s).nReal = s.cfg.f ∧ (rstep acceptPull s).nZero = 0 ∧ (rstep acceptPull s).starved = false ∧
      (rstep acceptPull s).underrunCount = s.underrunCount := by
  have hfeed := acceptPull_feeding (catchUp s) (applyCatchUp (catchUp s) s) (by simpa [catchUp_eq] using hf)
  simpa [accepted, hfeed] using rstep_ready_shows acceptPull s h

/-- An accepted `PULL` without a whole frame takes the STARVED path (41_consumer R228). -/
theorem rstep_pull_starved (s : State) (h : s.cReady = true) (hf : s.rAvail < s.cfg.f) :
    (rstep acceptPull s).nReal = 0 ∧ (rstep acceptPull s).nZero = s.cfg.f ∧ (rstep acceptPull s).starved = true ∧
      (rstep acceptPull s).underrunCount = s.underrunCount + 1 := by
  have hstarve := acceptPull_starved (catchUp s) (applyCatchUp (catchUp s) s) (by simpa [catchUp_eq] using hf)
  simpa [accepted, hstarve] using rstep_ready_shows acceptPull s h

/-! ### How many samples an accepted command emits -/

/-- A command at `c_ready = 1` plans as many samples as its length (41_consumer R241). -/
theorem command_remaining (i : Instr) (cmd : Command) (hc : commandOf i = some cmd) (u : CatchUp) (s : State)
    (h : s.remaining = 0) : (cmd u s).remaining = commandLength s.cfg i := by
  cases i <;> simp only [commandOf, Option.some.injEq, reduceCtorEq] at hc <;> subst hc
  case cnop | rsvd => exact h
  case clrs => simpa [State.remaining, commandLength] using h
  case read n => exact Nat.add_sub_cancel' (Nat.min_le_left n u.d1)
  case pull =>
    rcases Nat.lt_or_ge u.d1 s.cfg.f with hf | hf
    · simp [State.remaining, acceptPull_starved u s hf, commandLength]
    · simp [State.remaining, acceptPull_feeding u s hf, commandLength]

/-- An accepting `rstep` leaves the command's whole length to emit. -/
theorem rstep_ready_remaining (i : Instr) (cmd : Command) (hc : commandOf i = some cmd) (s : State) (h : s.cReady = true) :
    (rstep cmd s).remaining = commandLength s.cfg i := by
  obtain ⟨hnr, hnz, _⟩ := rstep_ready_shows cmd s h
  rw [State.remaining, hnr, hnz]
  exact command_remaining i cmd hc (catchUp s) (applyCatchUp (catchUp s) s) ((cReady_iff_remaining s).mp h)

/-! ### The obligations on one step -/

/-- Settles O17: the two cases of catch-up are the minimum that `r_avail` is. -/
theorem countAfterCatchUpIsAvail : Obligations.CountAfterCatchUpIsAvail := by
  intro s
  exact ⟨by rw [catchUp_eq], catchUp_d1_le s⟩

/-- Settles O26: only an accepting step sees the command. -/
theorem busyStepIgnoresTheWord : Obligations.BusyStepIgnoresTheWord := by
  intro s i j h hi hj
  obtain ⟨cmd, _, hx⟩ := exec_consumer i hi s
  obtain ⟨cmd', _, hx'⟩ := exec_consumer j hj s
  rw [hx, hx', rstep_busy_congr cmd cmd' s h]

/-- Settles O18, by whether catch-up drops. -/
theorem catchUpDropsTheOldest : Obligations.CatchUpDropsTheOldest := by
  intro s i hq hi
  obtain ⟨cmd, hc, _⟩ := exec_consumer i hi s
  have hR := rstep_R i cmd hc s
  have hovf := rstep_ovf i cmd hc s
  have hcount := rstep_dropCount i cmd hc s
  refine ⟨_, exec_of_commandOf i cmd hc s hq, fun h => ?_, fun h => ?_⟩
  · have hdrop : 0 < s.toDrop := Nat.sub_pos_of_lt h
    rw [caughtUp_of_drop s hdrop] at hR
    exact ⟨hR, hcount, by simp [hovf, hdrop, hdrop.ne']⟩
  · have hdrop : s.toDrop = 0 := Nat.sub_eq_zero_of_le h
    rw [caughtUp_of_no_drop s hdrop] at hR
    exact ⟨hR, by simp [hcount, hdrop], by simp [hovf, hdrop]⟩

/-- Settles O24: with real samples left the step streams one of them. -/
theorem realStepEmitsTheSampleAtTheCursor : Obligations.RealStepEmitsTheSampleAtTheCursor := by
  intro s i hq hi hr
  obtain ⟨cmd, hc, _⟩ := exec_consumer i hi s
  have hbusy := not_cReady_of_remaining s (Nat.add_pos_left hr _)
  obtain ⟨hreal, _, hstarved, hunder, hovf, hframe⟩ := rstep_streamsOne i cmd hc s hbusy
  obtain ⟨hev, hR, hnr, hnz⟩ := hreal hr
  exact ⟨_, exec_of_commandOf i cmd hc s hq, hev, hR, hnr, hnz, hstarved, hunder, hovf, hframe⟩

/-- Settles O25: with only silence left the step streams silence. -/
theorem silenceStepEmitsZero : Obligations.SilenceStepEmitsZero := by
  intro s i hq hi h0 hz
  obtain ⟨cmd, hc, _⟩ := exec_consumer i hi s
  have hbusy := not_cReady_of_remaining s (Nat.add_pos_right _ hz)
  obtain ⟨_, hsilence, hstarved, hunder, hovf, hframe⟩ := rstep_streamsOne i cmd hc s hbusy
  obtain ⟨hev, hR, hnr, hnz⟩ := hsilence h0
  exact ⟨_, exec_of_commandOf i cmd hc s hq, hev, hR, hnr, hnz, hstarved, hunder, hovf, hframe⟩

/-- Settles O19, by whether a command is in flight. -/
theorem cnopPresentsNoCommand : Obligations.CnopPresentsNoCommand := by
  intro s hq
  have hx := exec_of_commandOf .cnop acceptNothing rfl s hq
  exact ⟨decode_consumer_of_lt s.cfg, fun h => ⟨_, hx, rstep_acceptNothing_ready s h⟩,
    fun h => ⟨_, hx, rstep_streamsOne .cnop _ rfl s h⟩⟩

/-- Settles O23: the command of `RSVD` is that of `CNOP`. -/
theorem rsvdHasNoEffect : Obligations.RsvdHasNoEffect := by
  intro s hq h
  have hstep := rstep_acceptNothing_ready s h
  obtain ⟨_, _, hnr, hnz, _⟩ := id hstep
  exact ⟨fun n hn => decode_commandWord s.cfg 3 n (by decide) hn, _, exec_of_commandOf .rsvd acceptRsvd rfl s hq,
    exec_of_commandOf .cnop acceptNothing rfl s hq, (cReady_iff _).mpr ⟨hnr, hnz⟩, hstep⟩

/-- Settles O22: the clear sees what this step dropped. -/
theorem clrsClearsUnlessDropping : Obligations.ClrsClearsUnlessDropping := by
  intro s hq h
  obtain ⟨h0, hz⟩ := (cReady_iff s).mp h
  obtain ⟨hnr, hnz, hstarved, hunder⟩ := rstep_ready_shows acceptClrs s h
  have hovf : (rstep acceptClrs s).ovf = decide (0 < s.toDrop) := by
    rw [rstep_ovf .clrs _ rfl s]
    rcases Nat.eq_zero_or_pos s.toDrop with hd | hd
    · simp [h, hd]
    · simp [hd, hd.ne']
  refine ⟨fun n hn => decode_commandWord s.cfg 2 n (by decide) hn, _, exec_of_commandOf .clrs acceptClrs rfl s hq, hovf,
    rstep_ready_R .clrs _ rfl s h, ?_, ?_, ?_, ?_, rstep_ready_emitsNothing .clrs _ rfl s h, rstep_frame .clrs _ rfl s⟩
  · simpa [accepted, h0] using hnr
  · simpa [accepted, hz] using hnz
  · simpa [accepted] using hstarved
  · simpa [accepted] using hunder

/-- Settles O21: the split is made on the count after catch-up, which is `r_avail`. -/
theorem readSplitsItsCount : Obligations.ReadSplitsItsCount := by
  intro s n hq h _
  obtain ⟨hnr, hnz, hstarved, hunder⟩ := rstep_ready_shows (acceptRead n) s h
  have hreal : (rstep (acceptRead n) s).nReal = min n s.rAvail := by simpa [accepted, catchUp_eq] using hnr
  have hzero : (rstep (acceptRead n) s).nZero = n - min n s.rAvail := by simpa [accepted, catchUp_eq] using hnz
  refine ⟨fun m hm => decode_commandWord s.cfg 1 m (by decide) hm, _, exec_of_commandOf (.read n) _ rfl s hq, hreal, hzero,
    hstarved, hunder, rstep_ready_R (.read n) _ rfl s h, rstep_ovf_of_ne_clrs (.read n) _ rfl s nofun, ?_,
    rstep_ready_emitsNothing (.read n) _ rfl s h, rstep_frame (.read n) _ rfl s⟩
  rw [cReady_iff, hreal, hzero]
  omega

/-- Settles O20, by whether a whole frame is available. -/
theorem pullDecidesAllOrNothing : Obligations.PullDecidesAllOrNothing := by
  intro s hq h
  obtain ⟨_, _, hf, hfc, _⟩ := (isQsf_iff s.cfg).mp hq
  have hR := rstep_ready_R .pull acceptPull rfl s h
  refine ⟨fun n hn => decode_commandWord s.cfg 0 n (by decide) hn, _, exec_of_commandOf .pull acceptPull rfl s hq,
    rstep_pull_feeding s h, fun hlt => ?_, hR, rstep_ovf_of_ne_clrs .pull _ rfl s nofun, ?_,
    rstep_ready_emitsNothing .pull _ rfl s h, rstep_frame .pull _ rfl s⟩
  · obtain ⟨hnr, hnz, hstarved, hunder⟩ := rstep_pull_starved s h hlt
    have hdrop := toDrop_eq_zero_of_rAvail_lt s (hlt.trans_le hfc)
    exact ⟨hnr, hnz, hstarved, hunder, hdrop, hR.trans (caughtUp_of_no_drop s hdrop)⟩
  · have hrem : (rstep acceptPull s).remaining = s.cfg.f := rstep_ready_remaining .pull acceptPull rfl s h
    exact not_cReady_of_remaining _ (hrem ▸ hf)

/-! ### What the command in flight emits -/

/-- The `sil` tags of the samples still to emit: the real samples come first (41_consumer R229, R232, R233). -/
def State.silencesLeft (s : State) : List Bool := List.replicate s.nReal false ++ List.replicate s.nZero true

/-- The `last` marks of `n` samples still to emit: only the final one is marked (41_consumer R241). -/
def lastMarks (n : Nat) : List Bool := (List.range n).map fun j => decide (j + 1 = n)

@[simp] theorem silencesLeft_length (s : State) : s.silencesLeft.length = s.remaining := by
  simp [State.silencesLeft, State.remaining]

theorem lastMarks_succ (n : Nat) : lastMarks (n + 1) = decide (n = 0) :: lastMarks n := by
  simp [lastMarks, List.range_succ_eq_map, Function.comp_def, eq_comm]

/-- The first marks of a longer command. -/
theorem lastMarks_take (m n : Nat) (h : m ≤ n) :
    (lastMarks n).take m = (List.range m).map fun j => decide (j + 1 = n) := by
  rw [lastMarks, ← List.map_take, List.take_range, Nat.min_eq_left h]

/-- From `s` to `t` the command in flight emits exactly these events, tagged and marked as they come next; every silence
sample is 0 (41_consumer R234). -/
structure EmitsNext (evs : List OutEvent) (s t : State) : Prop where
  cfg : t.cfg = s.cfg
  trace : t.trace = s.trace ++ evs
  silences : s.silencesLeft = evs.map OutEvent.silence ++ t.silencesLeft
  lasts : lastMarks s.remaining = evs.map OutEvent.last ++ lastMarks t.remaining
  zeros : ∀ e ∈ evs, e.silence = true → e.data = 0

theorem EmitsNext.none {s t : State} (hk : t.cfg = s.cfg) (htr : t.trace = s.trace) (hr : t.nReal = s.nReal)
    (hz : t.nZero = s.nZero) : EmitsNext [] s t :=
  ⟨hk, by simp [htr], by simp [State.silencesLeft, hr, hz], by simp [State.remaining, hr, hz], nofun⟩

theorem EmitsNext.append {es fs : List OutEvent} {s t u : State} (h : EmitsNext es s t) (h' : EmitsNext fs t u) :
    EmitsNext (es ++ fs) s u where
  cfg := h'.cfg.trans h.cfg
  trace := by rw [h'.trace, h.trace, List.append_assoc]
  silences := by rw [h.silences, h'.silences, List.map_append, List.append_assoc]
  lasts := by rw [h.lasts, h'.lasts, List.map_append, List.append_assoc]
  zeros e he := (List.mem_append.mp he).elim (h.zeros e) (h'.zeros e)

theorem EmitsNext.remaining {es : List OutEvent} {s t : State} (h : EmitsNext es s t) :
    s.remaining = es.length + t.remaining := by
  simpa using congrArg List.length h.silences

theorem wstep_emitsNext (payload : Option Byte) (eob : Bool) (s : State) : EmitsNext [] s (wstep payload eob s) := by
  obtain ⟨_, _, _, _, _, _, _, hr, hz, _, _, _, _, _, _, _, _, htr⟩ := wstep_keeps_readDomain payload eob s
  exact .none (wstep_cfg payload eob s) htr hr hz

/-- A streaming step emits the next sample of its command, real before silence. -/
theorem rstep_emitsNext (i : Instr) (cmd : Command) (hc : commandOf i = some cmd) (s : State) (h : 0 < s.remaining) :
    ∃ e, EmitsNext [e] s (rstep cmd s) := by
  have hk := rstep_cfg i cmd hc s
  obtain ⟨hreal, hsilence, _⟩ := rstep_streamsOne i cmd hc s (not_cReady_of_remaining s h)
  cases hr : s.nReal with
  | succ n =>
    obtain ⟨⟨_, _, _, _, htr⟩, _, hnr, hnz⟩ := hreal (by omega)
    refine ⟨_, hk, htr, ?_, ?_, by simp⟩
    · simp [State.silencesLeft, hnr, hnz, hr, List.replicate_succ]
    · simp [State.remaining, hnr, hnz, hr, Nat.add_right_comm n 1, lastMarks_succ]
  | zero =>
    obtain ⟨⟨_, _, _, _, htr⟩, _, hnr, hnz⟩ := hsilence hr
    obtain ⟨n, hz⟩ : ∃ n, s.nZero = n + 1 := Nat.exists_eq_add_one.mpr (by simpa [State.remaining, hr] using h)
    refine ⟨_, hk, htr, ?_, ?_, by simp⟩
    · simp [State.silencesLeft, hnr, hnz, hr, hz, List.replicate_succ]
    · simp [State.remaining, hnr, hnz, hr, hz, lastMarks_succ]

/-- The `rstep`s of a schedule, its first transaction apart. -/
theorem rsteps_cons (i : Instr) (is : List Instr) :
    (i :: is).countP onConsumer = [i].countP onConsumer + is.countP onConsumer := by
  rw [← List.countP_append, List.singleton_append]

/-- While a command has samples left, a transaction emits its next one exactly when it is a consumer word. -/
theorem exec_emitsNext (i : Instr) (s : State) (hq : s.cfg.isQsf = true) (h : [i].countP onConsumer ≤ s.remaining) :
    ∃ t evs, exec i s = .next t ∧ EmitsNext evs s t ∧ evs.length = [i].countP onConsumer := by
  cases hp : i.port with
  | producer =>
    obtain ⟨payload, eob, hpe, _⟩ := exec_producer i hp s
    exact ⟨_, [], exec_of_producerParts i payload eob hpe s hq, wstep_emitsNext payload eob s, by simp [onConsumer, hp]⟩
  | consumer =>
    obtain ⟨cmd, hc, _⟩ := exec_consumer i hp s
    have hone : [i].countP onConsumer = 1 := by simp [onConsumer, hp]
    obtain ⟨e, he⟩ := rstep_emitsNext i cmd hc s (by omega)
    exact ⟨_, [e], exec_of_commandOf i cmd hc s hq, he, hone.symm⟩

/-- A schedule with no more `rstep`s than samples left emits one sample at each of them. -/
theorem play_emitsNext (is : List Instr) (s : State) (hq : s.cfg.isQsf = true) (hwf : ∀ i ∈ is, i.wf s.cfg = true)
    (h : is.countP onConsumer ≤ s.remaining) :
    ∃ t evs, play (schedule s.cfg is) s = .next t ∧ EmitsNext evs s t ∧ evs.length = is.countP onConsumer := by
  induction is generalizing s with
  | nil => exact ⟨withEdges [] s, [], play_nil s, .none rfl rfl rfl rfl, rfl⟩
  | cons i is ih =>
    obtain ⟨hwfi, hwfis⟩ := List.forall_mem_cons.mp hwf
    have hcount := rsteps_cons i is
    obtain ⟨t, es, hx, hes, hlen⟩ := exec_emitsNext i s hq (by omega)
    have hrem := hes.remaining
    obtain ⟨u, fs, hplay, hfs, hlen'⟩ := ih t (hes.cfg ▸ hq) (hes.cfg ▸ hwfis) (by omega)
    exact ⟨u, es ++ fs, (play_schedule_cons i is s t hwfi hx).trans hplay, hes.append hfs, by
      rw [List.length_append, hlen, hlen', hcount]⟩

/-! ### An accepted command and the `rstep`s after it -/

section Duration
variable (i : Instr) {cmd : Command} {is : List Instr} {s : State} (hc : commandOf i = some cmd)
  (hq : s.cfg.isQsf = true) (hready : s.cReady = true) (hi : i.wf s.cfg = true) (hwf : ∀ j ∈ is, j.wf s.cfg = true)
include hc hq hready hi hwf

/-- An accepted command, then `rstep`s for no more than its length: the command streams from the state it was accepted in. -/
theorem play_command (h : is.countP onConsumer ≤ commandLength s.cfg i) :
    ∃ t evs, play (schedule s.cfg (i :: is)) s = .next t ∧ t.trace = s.trace ++ evs ∧
      evs.length = is.countP onConsumer ∧ EmitsNext evs (rstep cmd s) t := by
  have hk := rstep_cfg i cmd hc s
  have hrem := rstep_ready_remaining i cmd hc s hready
  obtain ⟨_, _, _, _, htr⟩ := rstep_ready_emitsNothing i cmd hc s hready
  obtain ⟨t, evs, hplay, hevs, hlen⟩ := play_emitsNext is (rstep cmd s) (hk ▸ hq) (hk ▸ hwf) (hrem ▸ h)
  exact ⟨t, evs, (play_schedule_cons i is s _ hi (exec_of_commandOf i cmd hc s hq)).trans hplay, htr ▸ hevs.trace,
    hlen, hevs⟩

/-- The whole of an accepted command: every sample it planned is emitted, and it is done. -/
theorem play_whole_command (h : is.countP onConsumer = commandLength s.cfg i) :
    ∃ t evs, play (schedule s.cfg (i :: is)) s = .next t ∧ t.trace = s.trace ++ evs ∧
      evs.length = commandLength s.cfg i ∧ evs.map OutEvent.silence = (rstep cmd s).silencesLeft ∧
      evs.map OutEvent.last = lastMarks (commandLength s.cfg i) ∧ (∀ e ∈ evs, e.silence = true → e.data = 0) ∧
      t.cReady = true := by
  have hrem := rstep_ready_remaining i cmd hc s hready
  obtain ⟨t, evs, hplay, htr, hlen, hevs⟩ := play_command i hc hq hready hi hwf h.le
  have hdone : t.remaining = 0 := by
    have hleft := hevs.remaining
    omega
  have hnone : t.silencesLeft = [] := List.eq_nil_of_length_eq_zero (by rw [silencesLeft_length, hdone])
  have hsilences := hevs.silences
  have hlasts := hevs.lasts
  rw [hnone, List.append_nil] at hsilences
  rw [hrem, hdone] at hlasts
  exact ⟨t, evs, hplay, htr, hlen.trans h, hsilences.symm, by simpa [lastMarks] using hlasts.symm, hevs.zeros,
    (cReady_iff_remaining t).mpr hdone⟩

end Duration

/-! ### The obligations on whole commands -/

/-- Settles O27: each `rstep` after the acceptance emits the next of the command's samples. -/
theorem commandsOccupyTheirDuration : Obligations.CommandsOccupyTheirDuration := by
  intro s i is hq hready hp hi hwf h
  obtain ⟨cmd, hc, _⟩ := exec_consumer i hp s
  obtain ⟨t, evs, hplay, htr, hlen, hevs⟩ := play_command i hc hq hready hi hwf h
  have hrem := hevs.remaining
  have hlasts := hevs.lasts
  rw [rstep_ready_remaining i cmd hc s hready] at hrem hlasts
  refine ⟨t, evs, hplay, htr, hlen, ?_, ?_⟩
  · rw [← lastMarks_take _ _ h, hlasts, ← hlen, List.take_left' (List.length_map _)]
  · rw [cReady_iff_remaining]
    omega

/-- What an accepted `PULL` has to emit is all real or all silence. -/
theorem rstep_pull_silencesLeft (s : State) (h : s.cReady = true) :
    (rstep acceptPull s).silencesLeft = List.replicate s.cfg.f (decide (s.rAvail < s.cfg.f)) := by
  rcases Nat.lt_or_ge s.rAvail s.cfg.f with hf | hf
  · obtain ⟨hnr, hnz, _⟩ := rstep_pull_starved s h hf
    simp [State.silencesLeft, hnr, hnz, hf]
  · obtain ⟨hnr, hnz, _⟩ := rstep_pull_feeding s h hf
    simp [State.silencesLeft, hnr, hnz, Nat.not_lt.mpr hf]

/-- Settles O28: every event's tag is among those the accepting step planned. -/
theorem pullEmitsOneWholeFrame : Obligations.PullEmitsOneWholeFrame := by
  intro s is hq hready hwf h
  obtain ⟨t, evs, hplay, htr, hlen, hsil, hlast, hzero, hdone⟩ :=
    play_whole_command .pull rfl hq hready rfl hwf h
  rw [rstep_pull_silencesLeft s hready] at hsil
  refine ⟨t, evs, hplay, htr, hlen, fun e he => ⟨?_, hzero e he⟩, hlast, hdone⟩
  have hmem : e.silence ∈ evs.map OutEvent.silence := List.mem_map_of_mem he
  rw [hsil] at hmem
  exact List.eq_of_mem_replicate hmem

/-- Settles O29: the accepting step plans `min(n, d1)` real samples and then silence. -/
theorem readEmitsExactlyItsCount : Obligations.ReadEmitsExactlyItsCount := by
  intro s n is hq hready hn hwf h
  obtain ⟨t, evs, hplay, htr, _, hsil, hlast, hzero, hdone⟩ :=
    play_whole_command (.read n) rfl hq hready (decide_eq_true hn) hwf h
  obtain ⟨hnr, hnz, _⟩ := rstep_ready_shows (acceptRead n) s hready
  refine ⟨t, evs, hplay, htr, ?_, hzero, hlast, hdone⟩
  rw [hsil, State.silencesLeft, hnr, hnz]
  simp [accepted, catchUp_eq]

end Sys2Proof.Machine
end

