-- ==== Sys2Proof/Proofs/Handshake.lean ====
section
/-! PROOF. The two crossings (42_cdc R280 to R286): the write cursor through its synchroniser, and the read cursor through the
handshake. A toggle under way stands in one of six phases; a `wstep` and a `rstep` each move it on in phases of their own, so
what a request, a capture or a run of either finds is read off the phase. -/

namespace Sys2Proof.Machine

/-! ### A property along a schedule -/

/-- What every transaction of a schedule keeps, counting its producer words, holds after the schedule. -/
theorem play_schedule_keeps (P : Nat → State → Prop) (is : List Instr) (hedges : ∀ m u, P m u → P m (withEdges [] u))
    (hstep : ∀ i ∈ is, ∀ m u t, exec i u = .next t → P m u → P (m + [i].countP onProducer) t) (m : Nat) (s : State)
    (hq : s.cfg.isQsf = true) (hwf : ∀ i ∈ is, i.wf s.cfg = true) (h : P m s) :
    ∃ t, play (schedule s.cfg is) s = .next t ∧ P (m + is.countP onProducer) t := by
  induction is generalizing m s with
  | nil => exact ⟨withEdges [] s, play_nil s, hedges m s h⟩
  | cons i is ih =>
    obtain ⟨hwfi, hwfis⟩ := List.forall_mem_cons.mp hwf
    obtain ⟨hstepi, hstepis⟩ := List.forall_mem_cons.mp hstep
    obtain ⟨u, hx⟩ := exec_total i s hq
    have hk := exec_cfg i s u hx
    obtain ⟨t, hplay, ht⟩ := ih hstepis (m + [i].countP onProducer) u (hk ▸ hq) (hk ▸ hwfis) (hstepi m s u hx h)
    refine ⟨t, (play_schedule_cons i is s u hwfi hx).trans hplay, ?_⟩
    rwa [← List.singleton_append, List.countP_append, ← Nat.add_assoc]

/-- A schedule in two halves. -/
theorem play_schedule_append (is js : List Instr) (s t : State) (hk : t.cfg = s.cfg)
    (h : play (schedule s.cfg is) s = .next t) :
    play (schedule s.cfg (is ++ js)) s = play (schedule t.cfg js) t := by
  rw [schedule, List.map_append, hk]
  exact play_append _ _ s t h

/-! ### The write cursor's synchroniser -/

theorem onProducer_iff (i : Instr) : onProducer i = true ↔ i.port = .producer := decide_eq_true_iff

/-- Only a `READ` can be ill formed, so no producer transaction is. -/
theorem wf_of_producer (k : Config) (i : Instr) (h : i.port = .producer) : i.wf k = true := by
  cases i <;> first | rfl | cases h

/-- Any number of `wstep`s leaves the read domain (10_state R47). -/
theorem play_producers (is : List Instr) (s : State) (hq : s.cfg.isQsf = true) (h : is.all onProducer = true) :
    ∃ t, play (schedule s.cfg is) s = .next t ∧ t.cfg = s.cfg ∧ SameReadDomain s t := by
  have hport : ∀ i ∈ is, i.port = .producer := fun i hi => (onProducer_iff i).mp (List.all_eq_true.mp h i hi)
  refine play_schedule_keeps (fun _ u => u.cfg = s.cfg ∧ SameReadDomain s u) is (fun _ _ hu => hu)
    (fun i hi _ u t hx hu => ?_) 0 s hq (fun i hi => wf_of_producer s.cfg i (hport i hi)) ⟨rfl, by simp [SameReadDomain]⟩
  obtain ⟨hk, hu⟩ := hu
  obtain ⟨_, hread, _⟩ := domainsWriteOnlyTheirOwn u t i hx
  exact ⟨(exec_cfg i u t hx).trans hk, by simp [SameReadDomain, hread (hport i hi), hu]⟩

/-- A consumer transaction runs the crossings of a `rstep`. -/
theorem exec_consumer_crosses (i : Instr) (s : State) (hq : s.cfg.isQsf = true) (hi : i.port = .consumer) :
    ∃ t, exec i s = .next t ∧ t.cfg = s.cfg ∧ Crosses s t ∧ SameWriteDomain s t := by
  obtain ⟨cmd, hc, _⟩ := exec_consumer i hi s
  obtain ⟨hwrite, _⟩ := rstep_keeps_writeDomain i cmd hc s
  exact ⟨_, exec_of_commandOf i cmd hc s hq, rstep_cfg i cmd hc s, rstep_crosses i cmd hc s, hwrite⟩

/-- A `ws2` that holds the Gray code of a cursor shows that cursor. -/
theorem Ws_of_bin2gray (s : State) (x : Nat) (h : s.ws2 = bin2gray x) (hx : x < 2 ^ s.cfg.pw) : s.Ws = x := by
  rw [State.Ws, h, gray2bin_bin2gray s.cfg.pw x hx]

/-- Settles O34: `Wg` is in `ws1` after the first `rstep`, in `ws2` after the second, and no `wstep` writes either. -/
theorem writeCursorArrivesTwoRstepsLater : Obligations.WriteCursorArrivesTwoRstepsLater := by
  intro s i j ps qs hform hi hj hwi hwj hps hqs
  obtain ⟨hq, hW, hWg, _⟩ := hform
  obtain ⟨t1, hx1, hk1, ⟨_, hws1, _⟩, _⟩ := exec_consumer_crosses i s hq hi
  obtain ⟨t2, hplay2, hk2, _, hsame1, _⟩ := play_producers ps t1 (hk1 ▸ hq) hps
  obtain ⟨t3, hx3, hk3, ⟨hws2, _⟩, _⟩ := exec_consumer_crosses j t2 (hk2 ▸ hk1 ▸ hq) hj
  obtain ⟨t4, hplay4, hk4, _, _, hsame2, _⟩ := play_producers qs t3 (hk3 ▸ hk2 ▸ hk1 ▸ hq) hqs
  have hk : t4.cfg = s.cfg := hk4.trans (hk3.trans (hk2.trans hk1))
  have harrived : t4.ws2 = bin2gray s.W :=
    calc t4.ws2 = t3.ws2 := hsame2
      _ = t2.ws1 := hws2
      _ = t1.ws1 := hsame1
      _ = s.Wg := hws1
      _ = bin2gray s.W := hWg
  refine ⟨t4, ?_, Ws_of_bin2gray t4 s.W harrived (hk ▸ hW)⟩
  calc play (schedule s.cfg (i :: ps ++ j :: qs)) s
    _ = play (schedule t1.cfg (ps ++ j :: qs)) t1 := play_schedule_cons i _ s t1 hwi hx1
    _ = play (schedule t2.cfg (j :: qs)) t2 := play_schedule_append ps _ t1 t2 hk2 hplay2
    _ = play (schedule t3.cfg qs) t3 := play_schedule_cons j qs t2 t3 (by rwa [hk2, hk1]) hx3
    _ = .next t4 := hplay4

/-! ### The handshake's registers after a step -/

/-- A `wstep` shifts the request along: a capture brings `ack_w` to `req_s2`, where it is already when there is none
(42_cdc R285). -/
theorem wstep_toggles (payload : Option Byte) (eob : Bool) (s : State) :
    (wstep payload eob s).reqR = s.reqR ∧ (wstep payload eob s).reqS1 = s.reqR ∧ (wstep payload eob s).reqS2 = s.reqS1 ∧
      (wstep payload eob s).ackW = s.reqS2 ∧ (wstep payload eob s).ackS1 = s.ackS1 ∧
      (wstep payload eob s).ackS2 = s.ackS2 := by
  obtain ⟨_, _, _, hreq, _, hack1, hack2, _⟩ := wstep_keeps_readDomain payload eob s
  obtain ⟨hcapture, hnone, hs2, hs1⟩ := wstep_receives payload eob s
  refine ⟨hreq, hs1, hs2, ?_, hack1, hack2⟩
  by_cases h : s.reqS2 = s.ackW
  · exact (hnone h).2.trans h.symm
  · exact (hcapture h).2

/-- A `rstep` shifts the acknowledge along, and leaves `req_r` the opposite of the `ack_s2` it found (42_cdc R284). -/
theorem rstep_toggles (i : Instr) (cmd : Command) (hc : commandOf i = some cmd) (s : State) :
    (rstep cmd s).reqR = (!s.ackS2) ∧ (rstep cmd s).reqS1 = s.reqS1 ∧ (rstep cmd s).reqS2 = s.reqS2 ∧
      (rstep cmd s).ackW = s.ackW ∧ (rstep cmd s).ackS1 = s.ackW ∧ (rstep cmd s).ackS2 = s.ackS1 := by
  obtain ⟨⟨_, _, _, _, _, hs1, hs2, hackW, _⟩, _⟩ := rstep_keeps_writeDomain i cmd hc s
  obtain ⟨_, _, hsend, hwait, hack2, hack1⟩ := rstep_crosses i cmd hc s
  refine ⟨?_, hs1, hs2, hackW, hack1, hack2⟩
  by_cases h : s.ackS2 = s.reqR
  · rw [(hsend h).2, h]
  · rw [(hwait h).2, Bool.eq_not]
    exact Ne.symm h

/-! ### The phases of the handshake -/

/-- How far the toggle under way has come: nowhere, or the last register it has reached (42_cdc R284, R285). -/
inductive Phase where
  /-- All registers agree: the next `rstep` sends a request. -/
  | idle
  /-- In `req_r` only. -/
  | requested
  /-- In `req_s1`. -/
  | synced1
  /-- In `req_s2`: the next `wstep` captures. -/
  | synced2
  /-- In `ack_w`. -/
  | captured
  /-- In `ack_s1`. -/
  | acknowledged
  deriving DecidableEq

/-- The phase that six registers in the handshake's order are in: the first that differs from `req_r` stops the toggle. -/
def phaseOf (reqR reqS1 reqS2 ackW ackS1 ackS2 : Bool) : Phase :=
  if reqS1 ≠ reqR then .requested
  else if reqS2 ≠ reqR then .synced1
  else if ackW ≠ reqR then .synced2
  else if ackS1 ≠ reqR then .captured
  else if ackS2 ≠ reqR then .acknowledged
  else .idle

/-- The phase of a state's handshake. -/
def State.phase (s : State) : Phase := phaseOf s.reqR s.reqS1 s.reqS2 s.ackW s.ackS1 s.ackS2

/-- A `wstep` moves a request on up to its capture. -/
def Phase.afterWstep : Phase → Phase
  | .idle => .idle
  | .requested => .synced1
  | .synced1 => .synced2
  | .synced2 => .captured
  | .captured => .captured
  | .acknowledged => .acknowledged

/-- A `rstep` moves an acknowledge on, and sends the next request when there is none under way. -/
def Phase.afterRstep : Phase → Phase
  | .idle => .requested
  | .requested => .requested
  | .synced1 => .synced1
  | .synced2 => .synced2
  | .captured => .acknowledged
  | .acknowledged => .idle

/-- The registers shifted by a `wstep`, of all that are in order. -/
theorem phaseOf_wstep : ∀ reqR reqS1 reqS2 ackW ackS1 ackS2 : Bool,
    toggles [reqR, reqS1, reqS2, ackW, ackS1, ackS2] ≤ 1 →
      toggles [reqR, reqR, reqS1, reqS2, ackS1, ackS2] ≤ 1 ∧
        phaseOf reqR reqR reqS1 reqS2 ackS1 ackS2 = (phaseOf reqR reqS1 reqS2 ackW ackS1 ackS2).afterWstep := by
  decide

/-- The registers shifted by a `rstep`, of all that are in order. -/
theorem phaseOf_rstep : ∀ reqR reqS1 reqS2 ackW ackS1 ackS2 : Bool,
    toggles [reqR, reqS1, reqS2, ackW, ackS1, ackS2] ≤ 1 →
      toggles [!ackS2, reqS1, reqS2, ackW, ackW, ackS1] ≤ 1 ∧
        phaseOf (!ackS2) reqS1 reqS2 ackW ackW ackS1 = (phaseOf reqR reqS1 reqS2 ackW ackS1 ackS2).afterRstep := by
  decide

/-- The sender's condition holds in the idle phase only, where all registers agree. -/
theorem phaseOf_idle : ∀ reqR reqS1 reqS2 ackW ackS1 ackS2 : Bool,
    toggles [reqR, reqS1, reqS2, ackW, ackS1, ackS2] ≤ 1 →
      (ackS2 = reqR ↔ phaseOf reqR reqS1 reqS2 ackW ackS1 ackS2 = .idle) ∧
      (ackS2 = reqR → ackW = reqR ∧ reqS1 = reqR ∧ reqS2 = reqR) := by
  decide

/-- The receiver's condition holds in one phase only, where no acknowledge is under way. -/
theorem phaseOf_synced2 : ∀ reqR reqS1 reqS2 ackW ackS1 ackS2 : Bool,
    toggles [reqR, reqS1, reqS2, ackW, ackS1, ackS2] ≤ 1 →
      (reqS2 ≠ ackW ↔ phaseOf reqR reqS1 reqS2 ackW ackS1 ackS2 = .synced2) ∧
      (reqS2 ≠ ackW → reqR = reqS2 ∧ ackS2 ≠ reqR) := by
  decide

section Phases
variable {s : State} (h : s.HandshakeInOrder)
include h

theorem wstep_inOrder (payload : Option Byte) (eob : Bool) : (wstep payload eob s).HandshakeInOrder := by
  rw [State.HandshakeInOrder]
  simp only [wstep_toggles payload eob s]
  exact (phaseOf_wstep _ _ _ _ _ _ h).1

theorem rstep_inOrder (i : Instr) (cmd : Command) (hc : commandOf i = some cmd) : (rstep cmd s).HandshakeInOrder := by
  rw [State.HandshakeInOrder]
  simp only [rstep_toggles i cmd hc s]
  exact (phaseOf_rstep _ _ _ _ _ _ h).1

theorem wstep_phase (payload : Option Byte) (eob : Bool) : (wstep payload eob s).phase = s.phase.afterWstep := by
  rw [State.phase]
  simp only [wstep_toggles payload eob s]
  exact (phaseOf_wstep _ _ _ _ _ _ h).2

theorem rstep_phase (i : Instr) (cmd : Command) (hc : commandOf i = some cmd) :
    (rstep cmd s).phase = s.phase.afterRstep := by
  rw [State.phase]
  simp only [rstep_toggles i cmd hc s]
  exact (phaseOf_rstep _ _ _ _ _ _ h).2

theorem sends_iff_idle : s.ackS2 = s.reqR ↔ s.phase = .idle := (phaseOf_idle _ _ _ _ _ _ h).1

theorem captures_iff_synced2 : s.reqS2 ≠ s.ackW ↔ s.phase = .synced2 := (phaseOf_synced2 _ _ _ _ _ _ h).1

/-- `R_w` takes over the held copy in the phase that captures, and keeps its value in every other. -/
theorem wstep_Rw (payload : Option Byte) (eob : Bool) :
    (wstep payload eob s).Rw = if s.phase = .synced2 then s.Rhold else s.Rw := by
  obtain ⟨hcapture, hnone, _⟩ := wstep_receives payload eob s
  split
  · next hp => exact (hcapture ((captures_iff_synced2 h).mpr hp)).1
  · next hp => exact (hnone (not_not.mp fun hne => hp ((captures_iff_synced2 h).mp hne))).1

/-- `R_hold` takes over the cursor in the phase that sends, and keeps its value in every other. -/
theorem rstep_Rhold (i : Instr) (cmd : Command) (hc : commandOf i = some cmd) :
    (rstep cmd s).Rhold = if s.phase = .idle then s.R else s.Rhold := by
  obtain ⟨_, _, hsend, hwait, _⟩ := rstep_crosses i cmd hc s
  split
  · next hp => exact (hsend ((sends_iff_idle h).mpr hp)).1
  · next hp => exact (hwait fun heq => hp ((sends_iff_idle h).mp heq)).1

end Phases

theorem resetOf_inOrder (k : Config) : (State.resetOf k).HandshakeInOrder := Nat.zero_le 1

/-- Settles O35, by the kind of the next edge. -/
theorem handshakeStaysInOrder : Obligations.HandshakeStaysInOrder := by
  intro s t h hstep
  obtain ⟨_, ⟨_, rfl⟩ | ⟨es, _, rfl⟩ | ⟨w, es, i, _, _, hx⟩⟩ := step_cases s t hstep
  · exact h
  · exact resetOf_inOrder s.cfg
  · obtain ⟨_, ⟨_, payload, eob, _, rfl⟩ | ⟨_, cmd, hc, rfl⟩⟩ := exec_cases i _ t hx
    · exact wstep_inOrder (s := withEdges es s) h payload eob
    · exact rstep_inOrder (s := withEdges es s) h i cmd hc

/-- Settles O36: a send is in the idle phase, a capture in the phase with the toggle in `req_s2`. -/
theorem heldBundleIsStable : Obligations.HeldBundleIsStable := by
  intro s _ h
  refine ⟨fun i t hi hx hwrites => ?_, fun i t hi hx hcapture => ?_⟩
  all_goals obtain ⟨_, ⟨hp, payload, eob, _, rfl⟩ | ⟨hp, cmd, hc, rfl⟩⟩ := exec_cases i s t hx
  · simp [hp] at hi
  · obtain ⟨_, _, _, hwait, _⟩ := rstep_crosses i cmd hc s
    have hsend : s.ackS2 = s.reqR := by
      by_contra hne
      obtain ⟨hhold, hreq⟩ := hwait hne
      exact hwrites.elim (· hhold) (· hreq)
    exact (phaseOf_idle _ _ _ _ _ _ h).2 hsend
  · obtain ⟨hreceive, _⟩ := wstep_receives payload eob s
    exact ⟨(hreceive hcapture).1, (phaseOf_synced2 _ _ _ _ _ _ h).2 hcapture⟩
  · simp [hp] at hi

/-! ### A request on its way -/

/-- A request with toggle `y` that carries `r` is in phase `p`, and `R_w` still holds `rw`. -/
structure RequestInPhase (p : Phase) (y : Bool) (r rw : Nat) (s : State) : Prop where
  inOrder : s.HandshakeInOrder
  phase : s.phase = p
  reqR : s.reqR = y
  Rhold : s.Rhold = r
  Rw : s.Rw = rw

/-- The request after this many `wstep`s: one phase further for each, and captured by the third. -/
def RequestTravels (y : Bool) (r rw : Nat) : Nat → State → Prop
  | 0, s => RequestInPhase .requested y r rw s
  | 1, s => RequestInPhase .synced1 y r rw s
  | 2, s => RequestInPhase .synced2 y r rw s
  | 3, s => s.Rw = r ∧ s.ackW = y
  | _ + 4, _ => True

section Request
variable {p : Phase} {y : Bool} {r rw : Nat} {s : State}

theorem RequestInPhase.wstep (h : RequestInPhase p y r rw s) (hp : p ≠ .synced2) (payload : Option Byte) (eob : Bool) :
    RequestInPhase p.afterWstep y r rw (wstep payload eob s) := by
  obtain ⟨_, _, _, hreq, hhold, _⟩ := wstep_keeps_readDomain payload eob s
  refine ⟨wstep_inOrder h.inOrder payload eob, ?_, hreq.trans h.reqR, hhold.trans h.Rhold, ?_⟩
  · rw [wstep_phase h.inOrder, h.phase]
  · rw [wstep_Rw h.inOrder, h.phase, if_neg hp, h.Rw]

theorem RequestInPhase.captured (h : RequestInPhase .synced2 y r rw s) (payload : Option Byte) (eob : Bool) :
    (Machine.wstep payload eob s).Rw = r ∧ (Machine.wstep payload eob s).ackW = y := by
  obtain ⟨_, _, _, hackW, _⟩ := wstep_toggles payload eob s
  have hcapture := (captures_iff_synced2 h.inOrder).mpr h.phase
  obtain ⟨hreq, _⟩ := (phaseOf_synced2 _ _ _ _ _ _ h.inOrder).2 hcapture
  exact ⟨by rw [wstep_Rw h.inOrder, if_pos h.phase, h.Rhold], by rw [hackW, ← hreq, h.reqR]⟩

/-- Until the capture no `rstep` writes any part of the request. -/
theorem RequestInPhase.rstep (h : RequestInPhase p y r rw s) (hp : p.afterRstep = p) (i : Instr) (cmd : Command)
    (hc : commandOf i = some cmd) : RequestInPhase p y r rw (rstep cmd s) := by
  have hidle : s.phase ≠ .idle := by
    rintro hidle
    rw [h.phase] at hidle
    rw [hidle] at hp
    cases hp
  obtain ⟨_, _, _, hwait, _⟩ := rstep_crosses i cmd hc s
  obtain ⟨hhold, hreq⟩ := hwait fun he => hidle ((sends_iff_idle h.inOrder).mp he)
  obtain ⟨⟨_, _, _, _, _, _, _, _, hRw⟩, _⟩ := rstep_keeps_writeDomain i cmd hc s
  refine ⟨rstep_inOrder h.inOrder i cmd hc, ?_, hreq.trans h.reqR, hhold.trans h.Rhold, hRw.trans h.Rw⟩
  rw [rstep_phase h.inOrder i cmd hc, h.phase, hp]

theorem RequestTravels.wstep (m : Nat) (h : RequestTravels y r rw m s) (payload : Option Byte) (eob : Bool) :
    RequestTravels y r rw (m + 1) (wstep payload eob s) := by
  match m, h with
  | 0, h => exact RequestInPhase.wstep h nofun payload eob
  | 1, h => exact RequestInPhase.wstep h nofun payload eob
  | 2, h => exact RequestInPhase.captured h payload eob
  | _ + 3, _ => exact trivial

theorem RequestTravels.rstep (m : Nat) (h : RequestTravels y r rw m s) (i : Instr) (cmd : Command)
    (hc : commandOf i = some cmd) : RequestTravels y r rw m (rstep cmd s) := by
  match m, h with
  | 0, h => exact RequestInPhase.rstep h rfl i cmd hc
  | 1, h => exact RequestInPhase.rstep h rfl i cmd hc
  | 2, h => exact RequestInPhase.rstep h rfl i cmd hc
  | 3, ⟨hRw, hackW⟩ =>
    obtain ⟨⟨_, _, _, _, _, _, _, hackW', hRw'⟩, _⟩ := rstep_keeps_writeDomain i cmd hc s
    exact ⟨hRw'.trans hRw, hackW'.trans hackW⟩
  | _ + 4, _ => exact trivial

theorem RequestTravels.exec (m : Nat) (h : RequestTravels y r rw m s) (i : Instr) (t : State) (hx : exec i s = .next t) :
    RequestTravels y r rw (m + [i].countP onProducer) t := by
  obtain ⟨_, ⟨hp, payload, eob, _, rfl⟩ | ⟨hp, cmd, hc, rfl⟩⟩ := exec_cases i s t hx
  · rw [List.countP_singleton, if_pos ((onProducer_iff i).mpr hp)]
    exact RequestTravels.wstep m h payload eob
  · rw [List.countP_singleton, if_neg (by simp [onProducer_iff, hp])]
    exact RequestTravels.rstep m h i cmd hc

/-- The waiting edges are no part of the request. -/
theorem RequestTravels.withEdges (m : Nat) (h : RequestTravels y r rw m s) :
    RequestTravels y r rw m (withEdges [] s) := by
  match m, h with
  | 0, h | 1, h | 2, h => exact ⟨h.inOrder, h.phase, h.reqR, h.Rhold, h.Rw⟩
  | 3, h => exact h
  | _ + 4, _ => exact trivial

/-- Up to its second `wstep` a request leaves `R_w`. -/
theorem RequestTravels.not_captured (m : Nat) (h : RequestTravels y r rw m s) (hm : m ≤ 2) : s.Rw = rw := by
  match m, h with
  | 0, h | 1, h | 2, h => exact RequestInPhase.Rw h
  | _ + 3, _ => omega

end Request

/-- An idle handshake sends a request at a `rstep`. -/
theorem rstep_sends (s : State) (h : s.HandshakeInOrder) (hidle : s.phase = .idle) (i : Instr) (cmd : Command)
    (hc : commandOf i = some cmd) : RequestInPhase .requested (!s.reqR) s.R s.Rw (rstep cmd s) := by
  obtain ⟨⟨_, _, _, _, _, _, _, _, hRw⟩, _⟩ := rstep_keeps_writeDomain i cmd hc s
  obtain ⟨_, _, hsend, _⟩ := rstep_crosses i cmd hc s
  obtain ⟨hhold, hreq⟩ := hsend ((sends_iff_idle h).mpr hidle)
  exact ⟨rstep_inOrder h i cmd hc, by rw [rstep_phase h i cmd hc, hidle]; rfl, hreq, hhold, hRw⟩

/-- Settles O37: the request travels one phase for each `wstep`, and `rstep`s between leave it. -/
theorem requestIsCapturedAtTheThirdWstep : Obligations.RequestIsCapturedAtTheThirdWstep := by
  intro s i is hq h hack hi hwi hwis
  obtain ⟨cmd, hc, _⟩ := exec_consumer i hi s
  have hx := exec_of_commandOf i cmd hc s hq
  have hk := rstep_cfg i cmd hc s
  have hsent : RequestTravels (!s.reqR) s.R s.Rw 0 (rstep cmd s) :=
    rstep_sends s h ((sends_iff_idle h).mp hack) i cmd hc
  obtain ⟨t, hplay, ht⟩ := play_schedule_keeps (RequestTravels (!s.reqR) s.R s.Rw) is
    (fun m _ hu => RequestTravels.withEdges m hu) (fun j _ m _ v hv hu => RequestTravels.exec m hu j v hv) 0 (rstep cmd s)
    (hk ▸ hq) (hk ▸ hwis) hsent
  rw [Nat.zero_add] at ht
  exact ⟨t, (play_schedule_cons i is s _ hwi hx).trans hplay, RequestTravels.not_captured _ ht,
    fun h3 => by rwa [h3] at ht⟩

/-! ### Eight `LOCK` pairs -/

/-- Once nothing is written and nothing read, all that a `LOCK` pair can change: the phase, and whether the held copy and
`R_w` equal the cursor. -/
structure LockView where
  phase : Phase
  held : Bool
  seen : Bool

/-- One `LOCK` pair: the `wstep` captures in its phase, and the `rstep` sends in its own. -/
def LockView.pair (v : LockView) : LockView where
  phase := v.phase.afterWstep.afterRstep
  held := if v.phase.afterWstep = .idle then true else v.held
  seen := if v.phase = .synced2 then v.held else v.seen

/-- Eight pairs finish the round under way, which may carry an old cursor, and one more. -/
theorem LockView.eight_pairs (v : LockView) : (pair^[8] v).held = true ∧ (pair^[8] v).seen = true := by
  obtain ⟨p, held, seen⟩ := v
  cases p <;> exact ⟨rfl, rfl⟩

theorem LockView.pair_keeps (v : LockView) (h : v.held = true ∧ v.seen = true) :
    v.pair.held = true ∧ v.pair.seen = true := by
  simp [pair, h]

theorem LockView.seen_of_eight_le (n : Nat) (v : LockView) (h : 8 ≤ n) : (pair^[n] v).seen = true := by
  have hall : ∀ m, (pair^[m + 8] v).held = true ∧ (pair^[m + 8] v).seen = true := by
    intro m
    induction m with
    | zero => exact eight_pairs v
    | succ m ih =>
      rw [Nat.succ_add, Function.iterate_succ_apply']
      exact pair_keeps _ ih
  obtain ⟨m, rfl⟩ := Nat.exists_eq_add_of_le' h
  exact (hall m).2

/-- The view of a state. -/
def State.lockView (s : State) : LockView := ⟨s.phase, s.Rhold == s.R, s.Rw == s.R⟩

/-- A state that a settled state `s` has become with `v` the view of its handshake: still settled, and all that was stored,
published, read and emitted as it was. -/
structure LockedFrom (s : State) (v : LockView) (t : State) : Prop where
  cfg : t.cfg = s.cfg
  W : t.W = s.W
  Wg : t.Wg = s.Wg
  R : t.R = s.R
  trace : t.trace = s.trace
  settled : t.Settled
  inOrder : t.HandshakeInOrder
  view : t.lockView = v

/-- At a settled point the read domain sees the write cursor, and there is nothing to drop. -/
theorem settled_sees_all {s : State} (hW : s.W < 2 ^ s.cfg.pw) (hWg : s.Wg = bin2gray s.W) (h : s.Settled) :
    s.Ws = s.W ∧ s.toDrop = 0 := by
  obtain ⟨_, _, _, hws2, hle⟩ := h
  have hWs := Ws_of_bin2gray s s.W (hws2.trans hWg) hW
  exact ⟨hWs, by rw [State.toDrop, hWs, Nat.sub_eq_zero_of_le hle]⟩

/-- A `PNOP` leaves a settled state settled. -/
theorem wstep_pnop_locked {s t : State} {v : LockView} (h : LockedFrom s v t) :
    LockedFrom s ⟨v.phase.afterWstep, v.held, if v.phase = .synced2 then v.held else v.seen⟩ (wstep none false t) := by
  obtain ⟨hk, hW, hWg, hR, htr, ⟨hready, hlo, hws1, hws2, hle⟩, hord, rfl⟩ := h
  obtain ⟨_, hW', hWg', _⟩ := wstep_none_assembles_nothing false t
  obtain ⟨hR', hws1', hws2', _, hhold', _, _, hnr, hnz, _, _, _, _, _, _, _, _, htr'⟩ := wstep_keeps_readDomain none false t
  have hk' := wstep_cfg none false t
  refine ⟨hk'.trans hk, hW'.trans hW, hWg'.trans hWg, hR'.trans hR, htr'.trans htr, ⟨?_, ?_, ?_, ?_, ?_⟩,
    wstep_inOrder hord none false, ?_⟩
  · simpa [State.cReady, hnr, hnz] using hready
  · simpa [wstep_loPending] using hlo
  · rw [hws1', hWg', hws1]
  · rw [hws2', hWg', hws2]
  · rwa [hk', hW', hR']
  · have hseen := apply_ite (· == t.R) (t.phase = .synced2) t.Rhold t.Rw
    rw [State.lockView, wstep_phase hord, wstep_Rw hord, hhold', hR', hseen]
    rfl

/-- So does a `CNOP`, which sends a request when the handshake is idle. -/
theorem rstep_cnop_locked {s t : State} {v : LockView} (hW : s.W < 2 ^ s.cfg.pw) (hWg : s.Wg = bin2gray s.W)
    (h : LockedFrom s v t) :
    LockedFrom s ⟨v.phase.afterRstep, if v.phase = .idle then true else v.held, v.seen⟩ (rstep acceptNothing t) := by
  obtain ⟨hk, hWt, hWgt, hR, htr, hset, hord, rfl⟩ := h
  obtain ⟨_, hdrop⟩ := settled_sees_all (by rwa [hWt, hk]) (by rwa [hWgt, hWt]) hset
  obtain ⟨hready, hlo, hws1, hws2, hle⟩ := hset
  obtain ⟨hR', _, hnr, hnz, _, _, ⟨_, _, _, _, htr'⟩, hframe⟩ := rstep_acceptNothing_ready t hready
  obtain ⟨_, ⟨hws2', hws1', _⟩, ⟨hW', hWg', hlo', _, _, _, _, _, hRw'⟩, _, hk', _⟩ := hframe
  rw [caughtUp_of_no_drop t hdrop] at hR'
  refine ⟨hk'.trans hk, hW'.trans hWt, hWg'.trans hWgt, hR'.trans hR, htr'.trans htr, ⟨?_, ?_, ?_, ?_, ?_⟩,
    rstep_inOrder hord .cnop acceptNothing rfl, ?_⟩
  · exact (cReady_iff _).mpr ⟨hnr, hnz⟩
  · exact hlo'.trans hlo
  · rw [hws1', hWg']
  · rw [hws2', hWg', hws1]
  · rwa [hk', hW', hR']
  · have hheld := apply_ite (· == t.R) (t.phase = .idle) t.R t.Rhold
    rw [beq_self_eq_true] at hheld
    rw [State.lockView, rstep_phase hord .cnop _ rfl, rstep_Rhold hord .cnop _ rfl, hRw', hR', hheld]
    rfl

/-- One `LOCK` pair of `PNOP` from a state that `s` has become. -/
theorem pair_locked {s t : State} {v : LockView} (hW : s.W < 2 ^ s.cfg.pw) (hWg : s.Wg = bin2gray s.W)
    (h : LockedFrom s v t) : LockedFrom s v.pair (rstep acceptNothing (wstep none false t)) :=
  rstep_cnop_locked hW hWg (wstep_pnop_locked h)

/-- Any number of `LOCK` pairs of `PNOP`. -/
theorem play_lockPairs (n : Nat) (s t : State) (v : LockView) (hq : s.cfg.isQsf = true) (hW : s.W < 2 ^ s.cfg.pw)
    (hWg : s.Wg = bin2gray s.W) (h : LockedFrom s v t) :
    ∃ u, play (scriptEdges s.cfg (lockLines (widleLines n))) t = .next u ∧ LockedFrom s (LockView.pair^[n] v) u := by
  induction n generalizing t v with
  | zero => exact ⟨withEdges [] t, play_nil t, ⟨h.cfg, h.W, h.Wg, h.R, h.trace, h.settled, h.inOrder, h.view⟩⟩
  | succ n ih =>
    have hqt : t.cfg.isQsf = true := h.cfg ▸ hq
    have hkw := wstep_cfg none false t
    have hpnop := exec_of_producerParts .pnop none false rfl t hqt
    have hcnop := exec_of_commandOf .cnop acceptNothing rfl (wstep none false t) (hkw ▸ hqt)
    obtain ⟨u, hplay, hu⟩ := ih _ v.pair (pair_locked hW hWg h)
    refine ⟨u, ?_, hu⟩
    have hlines : scriptEdges s.cfg (lockLines (widleLines (n + 1))) =
      .port (encode s.cfg .pnop) :: .port (encode s.cfg .cnop) :: scriptEdges s.cfg (lockLines (widleLines n)) := rfl
    rw [hlines, play_word _ .pnop _ t _ (h.cfg ▸ decodeGivesBackEncode t.cfg .pnop rfl) hpnop,
      play_word _ .cnop _ _ _ (h.cfg ▸ hkw ▸ decodeGivesBackEncode _ .cnop rfl) hcnop]
    exact hplay

/-- Settles O38: the pairs change only the handshake, and after eight of them `R_w` equals the cursor. -/
theorem eightLockPairsSettle : Obligations.EightLockPairsSettle := by
  intro s n hform hord hset hn
  obtain ⟨hq, hW, hWg, _⟩ := hform
  obtain ⟨t, hplay, ht⟩ := play_lockPairs n s s s.lockView hq hW hWg ⟨rfl, rfl, rfl, rfl, rfl, hset, hord, rfl⟩
  have hseen : t.Rw = t.R := by
    have hview := LockView.seen_of_eight_le n s.lockView hn
    rw [← ht.view] at hview
    exact eq_of_beq hview
  have hRw := hseen.trans ht.R
  obtain ⟨hWs, _⟩ := settled_sees_all (by rw [ht.W, ht.cfg]; exact hW) (by rw [ht.Wg, ht.W]; exact hWg) ht.settled
  obtain ⟨_, _, _, _, hle⟩ := hset
  refine ⟨t, hplay, ht.settled, hRw, ht.R, ht.W, hWs, ht.trace, ?_, ?_, ?_⟩
  · rw [State.wFill, ht.cfg, ht.W, hRw, Nat.min_eq_left hle]
  · rw [State.rAvail, hWs, ht.cfg, ht.W, ht.R, Nat.min_eq_left hle]
  · rw [State.wFull, ht.cfg, ht.W, hRw, decide_eq_true_iff]
    exact ⟨fun h => Nat.le_antisymm hle h, fun h => h.ge⟩

end Sys2Proof.Machine
end

