-- ==== Sys2Proof/Proofs/Counts.lean ====
section
/-! PROOF. The unbounded counts under ENV-RATE (42_cdc R287 to R291): the cursors are the counts modulo `2^PW`, so catch-up and
the status outputs compute with the counts themselves; every step keeps each part of `Tracks`. -/

namespace Sys2Proof.Machine

/-! ### Cursors as counts modulo `2^PW` -/

/-- The difference of two cursors is the difference of their counts. -/
theorem subP_mod_mod (k : Config) (a b : Nat) (h : b ≤ a) :
    subP k (a % 2 ^ k.pw) (b % 2 ^ k.pw) = (a - b) % 2 ^ k.pw := by
  have hadd : addP k (b % 2 ^ k.pw) ((a - b) % 2 ^ k.pw) = a % 2 ^ k.pw := by
    rw [addP, ← Nat.add_mod, Nat.add_sub_cancel' h]
  rw [← hadd]
  exact subP_addP_cancel k _ _ (Nat.mod_lt _ (Nat.two_pow_pos _))

/-- It is exact when the counts are less than `2C` apart. -/
theorem subP_mod_mod_of_lt (k : Config) (hq : k.isQsf = true) (a b : Nat) (h : b ≤ a) (hlt : a - b < 2 * k.c) :
    subP k (a % 2 ^ k.pw) (b % 2 ^ k.pw) = a - b := by
  rw [subP_mod_mod k a b h, two_pow_pw k hq, Nat.mod_eq_of_lt hlt]

theorem addP_mod (k : Config) (a n : Nat) : addP k (a % 2 ^ k.pw) n = (a + n) % 2 ^ k.pw := Nat.mod_add_mod _ _ _

theorem c_pos (k : Config) (hq : k.isQsf = true) : 0 < k.c := by
  obtain ⟨_, _, hf, hfc, _⟩ := (isQsf_iff k).mp hq
  omega

/-- The slot of a cursor is its count modulo the capacity. -/
theorem slot_mod (k : Config) (hq : k.isQsf = true) (n : Nat) : slot k (n % 2 ^ k.pw) = n % k.c := by
  obtain ⟨_, hc, _, _, hpw⟩ := (isQsf_iff k).mp hq
  rw [slot, hc, Nat.mod_mod_of_dvd n (Nat.pow_dvd_pow 2 (by omega))]

/-! ### The parts of `Tracks` -/

/-- The real events emitted so far (42_cdc R290). -/
def State.realTrace (s : State) : List OutEvent := s.trace.filter fun e => !e.silence

/-- Each cursor and each copy of one is its count modulo `2^PW` (42_cdc R287). -/
structure CursorsMatch (s : State) (g : Counts) : Prop where
  W : s.W = g.w % 2 ^ s.cfg.pw
  R : s.R = g.r % 2 ^ s.cfg.pw
  ws1 : s.ws1 = bin2gray (g.ws1 % 2 ^ s.cfg.pw)
  ws2 : s.ws2 = bin2gray (g.ws2 % 2 ^ s.cfg.pw)
  Rhold : s.Rhold = g.rHold % 2 ^ s.cfg.pw
  Rw : s.Rw = g.rW % 2 ^ s.cfg.pw

/-- The counts in their order and within their bounds (42_cdc R287, R289). -/
structure CountsOrdered (s : State) (g : Counts) : Prop where
  rW_le : g.rW ≤ g.rHold
  rHold_le : g.rHold ≤ g.r
  r_le : g.r ≤ g.ws2
  ws2_le : g.ws2 ≤ g.ws1
  w_eq : g.w = g.ws1 + g.sinceR
  sinceR_le : g.sinceR ≤ s.cfg.c - 1
  ws1_near : g.ws1 - g.ws2 ≤ s.cfg.c - 1
  ws2_near : g.ws2 - g.r ≤ 2 * s.cfg.c - 1
  covered : s.nReal ≤ g.ws2 - g.r

/-- Every advance of the read cursor is an emitted or a dropped sample (42_cdc R290). -/
structure AdvancesAccounted (s : State) (g : Counts) : Prop where
  r_eq : g.r = g.emitted.length + g.dropped
  dropCount : s.dropCount = BitVec.ofNat 32 g.dropped
  emitted : s.realTrace.length = g.emitted.length

/-- Each slot holds the newest sample written to it (20_memory R111). -/
structure StoresNewest (s : State) (g : Counts) : Prop where
  length : g.written.length = g.w
  newest : ∀ n < g.w, g.w ≤ n + s.cfg.c → memRead s.mem (n % s.cfg.c) = g.written.getD n 0

theorem tracks_iff (s : State) (g : Counts) :
    Tracks s g ↔ s.Wf ∧ CursorsMatch s g ∧ CountsOrdered s g ∧ AdvancesAccounted s g ∧ StoresNewest s g := by
  constructor
  · rintro ⟨hform, hW, hR, hws1, hws2, hhold, hRw, hrW, hrHold, hrle, hwsle, hw, hsince, hnear1, hnear2, hcover,
      hr, hdrop, hemit, hlen, hnew⟩
    exact ⟨hform, ⟨hW, hR, hws1, hws2, hhold, hRw⟩, ⟨hrW, hrHold, hrle, hwsle, hw, hsince, hnear1, hnear2, hcover⟩,
      ⟨hr, hdrop, hemit⟩, hlen, hnew⟩
  · rintro ⟨hform, ⟨hW, hR, hws1, hws2, hhold, hRw⟩, ⟨hrW, hrHold, hrle, hwsle, hw, hsince, hnear1, hnear2, hcover⟩,
      ⟨hr, hdrop, hemit⟩, hlen, hnew⟩
    exact ⟨hform, hW, hR, hws1, hws2, hhold, hRw, hrW, hrHold, hrle, hwsle, hw, hsince, hnear1, hnear2, hcover,
      hr, hdrop, hemit, hlen, hnew⟩

/-! ### Catch-up and the status outputs, in counts -/

section Exact
variable {s : State} {g : Counts}

theorem CursorsMatch.Ws_eq (h : CursorsMatch s g) : s.Ws = g.ws2 % 2 ^ s.cfg.pw :=
  Ws_of_bin2gray s _ h.ws2 (Nat.mod_lt _ (Nat.two_pow_pos _))

/-- Catch-up leaves at most `C` samples unread, and never passes what is seen. -/
theorem CountsOrdered.r1_bounds (hord : CountsOrdered s g) :
    g.r ≤ g.r1 s.cfg ∧ g.r1 s.cfg ≤ g.ws2 ∧ g.ws2 ≤ g.r1 s.cfg + s.cfg.c := by
  have hle := hord.r_le
  unfold Counts.r1
  omega

variable (hq : s.cfg.isQsf = true) (hcur : CursorsMatch s g) (hord : CountsOrdered s g)
include hq hcur hord

/-- The unread count is exact (42_cdc R289). -/
theorem unread_eq_counts : subP s.cfg s.Ws s.R = g.ws2 - g.r := by
  have hc := c_pos s.cfg hq
  have hnear := hord.ws2_near
  rw [hcur.Ws_eq, hcur.R]
  exact subP_mod_mod_of_lt s.cfg hq _ _ hord.r_le (by omega)

theorem r1_eq_counts : g.r1 s.cfg = g.r + s.toDrop := by
  rw [State.toDrop, unread_eq_counts hq hcur hord, Counts.r1]

theorem caughtUp_eq_counts : s.caughtUp = g.r1 s.cfg % 2 ^ s.cfg.pw := by
  have hr1 := r1_eq_counts hq hcur hord
  rcases Nat.eq_zero_or_pos s.toDrop with hd | hd
  · rw [caughtUp_of_no_drop s hd, hcur.R, hr1, hd, Nat.add_zero]
  · have hdrop : s.toDrop = g.ws2 - g.r - s.cfg.c := by rw [State.toDrop, unread_eq_counts hq hcur hord]
    have hcap : s.cfg.c % 2 ^ s.cfg.pw = s.cfg.c := by
      have hc := c_pos s.cfg hq
      rw [two_pow_pw s.cfg hq]
      exact Nat.mod_eq_of_lt (by omega)
    have hsub := subP_mod_mod s.cfg g.ws2 s.cfg.c (by omega)
    rw [hcap, ← hcur.Ws_eq] at hsub
    rw [caughtUp_of_drop s hd, hsub, hr1]
    congr 1
    omega

theorem rAvail_eq_counts : s.rAvail = g.ws2 - g.r1 s.cfg := by
  have hle := hord.r_le
  rw [State.rAvail, unread_eq_counts hq hcur hord, Counts.r1]
  omega

end Exact

/-! ### What a `rstep` does to the stream, in any state -/

theorem realStep_iff (s : State) : realStep s = true ↔ 0 < s.nReal := by
  simp only [realStep, Bool.and_eq_true, Bool.not_eq_true', decide_eq_true_eq, and_iff_right_iff_imp]
  exact fun h => not_cReady_of_remaining s (Nat.add_pos_left h _)

/-- An accepted command plans no more real samples than are available (41_consumer R227, R229). -/
theorem command_nReal_le (i : Instr) (cmd : Command) (hc : commandOf i = some cmd) (u : CatchUp) (s : State)
    (h : s.nReal = 0) : (cmd u s).nReal ≤ u.d1 := by
  cases i <;> simp only [commandOf, Option.some.injEq, reduceCtorEq] at hc <;> subst hc
  case cnop | rsvd => exact h.trans_le (Nat.zero_le _)
  case clrs => simp [h]
  case read n => exact Nat.min_le_right n u.d1
  case pull =>
    rcases Nat.lt_or_ge u.d1 s.cfg.f with hf | hf
    · simp [acceptPull_starved u s hf]
    · simpa [acceptPull_feeding u s hf] using hf

/-- The real samples left after a `rstep`: one less than there were, or those a command has planned. -/
theorem rstep_nReal_le (i : Instr) (cmd : Command) (hc : commandOf i = some cmd) (s : State) :
    (rstep cmd s).nReal ≤ if 0 < s.nReal then s.nReal - 1 else s.rAvail := by
  cases hready : s.cReady with
  | true =>
    obtain ⟨h0, _⟩ := (cReady_iff s).mp hready
    obtain ⟨hnr, _⟩ := rstep_ready_shows cmd s hready
    have hle := command_nReal_le i cmd hc (catchUp s) (applyCatchUp (catchUp s) s) h0
    rw [catchUp_eq] at hle
    rw [hnr, if_neg (by omega), accepted, catchUp_eq]
    exact hle
  | false =>
    obtain ⟨hreal, hsilence, _⟩ := rstep_streamsOne i cmd hc s hready
    split
    · next hr =>
      obtain ⟨_, _, hnr, _⟩ := hreal hr
      exact hnr.le
    · next hr =>
      obtain ⟨_, _, hnr, _⟩ := hsilence (Nat.eq_zero_of_not_pos hr)
      exact hnr.trans_le (Nat.zero_le _)

/-- The real event of a `rstep`: the sample at the cursor after catch-up, when real samples are left (41_consumer R232). -/
theorem rstep_realTrace (i : Instr) (cmd : Command) (hc : commandOf i = some cmd) (s : State) :
    (rstep cmd s).realTrace = s.realTrace ++
      if 0 < s.nReal then [⟨memRead s.mem (slot s.cfg s.caughtUp), false, decide (s.nReal = 1 ∧ s.nZero = 0)⟩] else [] := by
  cases hready : s.cReady with
  | true =>
    obtain ⟨h0, _⟩ := (cReady_iff s).mp hready
    obtain ⟨_, _, _, _, htr⟩ := rstep_ready_emitsNothing i cmd hc s hready
    simp [State.realTrace, htr, h0]
  | false =>
    obtain ⟨hreal, hsilence, _⟩ := rstep_streamsOne i cmd hc s hready
    split
    · next hr =>
      obtain ⟨⟨_, _, _, _, htr⟩, _⟩ := hreal hr
      simp [State.realTrace, htr]
    · next hr =>
      obtain ⟨⟨_, _, _, _, htr⟩, _⟩ := hsilence (Nat.eq_zero_of_not_pos hr)
      simp [State.realTrace, htr]

/-! ### A `rstep` keeps the counts -/

/-- The read cursor's count after a `rstep`. -/
theorem after_consumer_r (s : State) (g : Counts) (w : Nat) :
    (g.after s (.port (.consumer w))).r = g.r1 s.cfg + if 0 < s.nReal then 1 else 0 := by
  simp only [Counts.after, realStep_iff]
  split <;> rfl

theorem after_consumer_emitted (s : State) (g : Counts) (w : Nat) :
    (g.after s (.port (.consumer w))).emitted = g.emitted ++ if 0 < s.nReal then [g.r1 s.cfg] else [] := by
  simp only [Counts.after, realStep_iff]
  split
  · rfl
  · exact (List.append_nil _).symm

theorem after_consumer_rHold (s : State) (g : Counts) (w : Nat) :
    (g.after s (.port (.consumer w))).rHold = if s.ackS2 = s.reqR then g.r else g.rHold := by
  simp only [Counts.after, beq_iff_eq]

section Read
variable {s : State} {g : Counts} (i : Instr) (cmd : Command) (hc : commandOf i = some cmd) (w : Nat)
include hc

theorem rstep_cursorsMatch (hform : s.Wf) (hcur : CursorsMatch s g) (hord : CountsOrdered s g) :
    CursorsMatch (rstep cmd s) (g.after s (.port (.consumer w))) := by
  obtain ⟨hq, _, hWg, _⟩ := hform
  obtain ⟨⟨hW, _, _, _, _, _, _, _, hRw⟩, _⟩ := rstep_keeps_writeDomain i cmd hc s
  obtain ⟨hws2, hws1, hsend, hwait, _⟩ := rstep_crosses i cmd hc s
  have hk := rstep_cfg i cmd hc s
  constructor
  all_goals rw [hk]
  case W => exact hW.trans hcur.W
  case R =>
    rw [rstep_R i cmd hc s, after_consumer_r, caughtUp_eq_counts hq hcur hord]
    split
    · exact addP_mod _ _ _
    · rfl
  case ws1 => rw [hws1, hWg, hcur.W]; rfl
  case ws2 => exact hws2.trans hcur.ws1
  case Rhold =>
    rw [after_consumer_rHold]
    split
    · next h => exact (hsend h).1.trans hcur.R
    · next h => exact (hwait h).1.trans hcur.Rhold
  case Rw => exact hRw.trans hcur.Rw

theorem rstep_countsOrdered (hform : s.Wf) (hcur : CursorsMatch s g) (hord : CountsOrdered s g) :
    CountsOrdered (rstep cmd s) (g.after s (.port (.consumer w))) := by
  obtain ⟨hq, _, _, _, _, _, _, _, hreal, _⟩ := hform
  obtain ⟨hr, hr1, hnear⟩ := hord.r1_bounds
  have hplan := rstep_nReal_le i cmd hc s
  rw [rAvail_eq_counts hq hcur hord] at hplan
  obtain ⟨hrW, hhold, hrle, hws2, hw, hsince, hws1near, hws2near, hcover⟩ := hord
  have hreach : g.r1 s.cfg + s.nReal ≤ g.ws2 := by
    have hr1def : g.r1 s.cfg = g.r + (g.ws2 - g.r - s.cfg.c) := rfl
    omega
  have hc0 := c_pos s.cfg hq
  have hk := rstep_cfg i cmd hc s
  have hr' := after_consumer_r s g w
  have hhold' := after_consumer_rHold s g w
  have hheld : (g.after s (.port (.consumer w))).rHold ≤ g.r ∧ g.rW ≤ (g.after s (.port (.consumer w))).rHold := by
    rw [hhold']
    split <;> omega
  have hmoved : g.r1 s.cfg ≤ (g.after s (.port (.consumer w))).r ∧
      (g.after s (.port (.consumer w))).r + (rstep cmd s).nReal ≤ g.ws2 := by
    rw [hr']
    split
    · next hpos =>
      rw [if_pos hpos] at hplan
      omega
    · next hnone =>
      rw [if_neg hnone] at hplan
      omega
  obtain ⟨hlow, hhigh⟩ := hmoved
  constructor
  case rW_le => exact hheld.2
  case rHold_le => omega
  case r_le => exact (Nat.le_of_add_right_le hhigh).trans hws2
  case ws2_le => exact (Nat.le_add_right _ _).trans_eq hw.symm
  case w_eq => rfl
  case sinceR_le => exact Nat.zero_le _
  case ws1_near => rw [hk]; change g.w - g.ws1 ≤ _; omega
  case ws2_near => rw [hk]; change g.ws1 - _ ≤ _; omega
  case covered => change _ ≤ g.ws1 - _; omega

theorem rstep_advancesAccounted (hq : s.cfg.isQsf = true) (hcur : CursorsMatch s g) (hord : CountsOrdered s g)
    (hacc : AdvancesAccounted s g) : AdvancesAccounted (rstep cmd s) (g.after s (.port (.consumer w))) := by
  have hdropped : (g.after s (.port (.consumer w))).dropped = g.dropped + s.toDrop := by
    change g.dropped + (g.r1 s.cfg - g.r) = _
    rw [r1_eq_counts hq hcur hord, Nat.add_sub_cancel_left]
  have hr1 := r1_eq_counts hq hcur hord
  have hr := hacc.r_eq
  constructor
  case r_eq =>
    rw [after_consumer_r, after_consumer_emitted, hdropped, List.length_append]
    split <;> simp only [List.length_cons, List.length_nil] <;> omega
  case dropCount => rw [rstep_dropCount i cmd hc s, hdropped, hacc.dropCount, BitVec.ofNat_add]
  case emitted =>
    rw [rstep_realTrace i cmd hc s, after_consumer_emitted, List.length_append, List.length_append, hacc.emitted]
    split <;> rfl

theorem rstep_storesNewest (hst : StoresNewest s g) : StoresNewest (rstep cmd s) (g.after s (.port (.consumer w))) := by
  obtain ⟨_, hm⟩ := rstep_keeps_writeDomain i cmd hc s
  refine ⟨hst.length, ?_⟩
  rw [hm, rstep_cfg i cmd hc s]
  exact hst.newest

theorem rstep_tracks (hi : i.wf s.cfg = true) (h : Tracks s g) :
    Tracks (rstep cmd s) (g.after s (.port (.consumer w))) := by
  obtain ⟨hform, hcur, hord, hacc, hst⟩ := (tracks_iff s g).mp h
  obtain ⟨hq, _⟩ := id hform
  exact (tracks_iff _ _).mpr ⟨rstep_wf i cmd hc s hform hi, rstep_cursorsMatch i cmd hc w hform hcur hord,
    rstep_countsOrdered i cmd hc w hform hcur hord, rstep_advancesAccounted i cmd hc w hq hcur hord hacc,
    rstep_storesNewest i cmd hc w hst⟩

end Read

/-! ### A `wstep` keeps the counts -/

/-- The payload of a producer word (30_encoding R145). -/
def wordPayload (w : BitVec 10) : Option Byte := if pValid w then some (pData w) else none

/-- The `wstep` of a producer word. -/
def wordStep (w : BitVec 10) (s : State) : State := wstep (wordPayload w) (pEob w) s

section Write
variable {s : State} {g : Counts} (w : BitVec 10)

/-- A word that completes a sample stores it at the cursor and advances the cursor (40_producer R185). -/
theorem wordStep_writes (h : completesSample s w = true) :
    (wordStep w s).W = addP s.cfg s.W 1 ∧
      (wordStep w s).mem = memWrite s.mem (slot s.cfg s.W) (sampleOf (pData w) s.loByte) := by
  obtain ⟨hvalid, hlo⟩ := Bool.and_eq_true_iff.mp h
  obtain ⟨_, hW, _, hm⟩ := wstep_completes_sample (pData w) (pEob w) s hlo
  rw [wordStep, wordPayload, if_pos hvalid]
  exact ⟨hW, hm⟩

/-- Any other word leaves the cursor and the storage. -/
theorem wordStep_writes_nothing (h : completesSample s w = false) :
    (wordStep w s).W = s.W ∧ (wordStep w s).mem = s.mem := by
  rw [wordStep, wordPayload]
  split
  · next hvalid =>
    have hlo : s.loPending = false := by simpa [completesSample, hvalid] using h
    obtain ⟨_, hW, _, hm⟩ := wstep_keeps_low_byte (pData w) (pEob w) s hlo
    exact ⟨hW, hm⟩
  · obtain ⟨_, hW, _, hm⟩ := wstep_none_assembles_nothing (pEob w) s
    exact ⟨hW, hm⟩

/-- What a `wstep` leaves: the configuration and the read domain with what it has emitted. -/
theorem wordStep_frame (s : State) : (wordStep w s).cfg = s.cfg ∧ SameReadDomain s (wordStep w s) :=
  ⟨wstep_cfg _ _ s, wstep_keeps_readDomain _ _ s⟩

theorem after_producer_rW (s : State) (g : Counts) :
    (g.after s (.port (.producer w))).rW = if s.reqS2 ≠ s.ackW then g.rHold else g.rW := by
  simp only [Counts.after, bne_iff_ne]

theorem wordStep_cursorsMatch (hcur : CursorsMatch s g) :
    CursorsMatch (wordStep w s) (g.after s (.port (.producer w))) := by
  obtain ⟨hk, hR, hws1, hws2, _, hhold, _⟩ := wordStep_frame w s
  obtain ⟨hcapture, hnone, _⟩ := wstep_receives (wordPayload w) (pEob w) s
  constructor
  all_goals rw [hk]
  case W =>
    change (wordStep w s).W = (if completesSample s w then g.w + 1 else g.w) % 2 ^ s.cfg.pw
    cases h : completesSample s w with
    | true =>
      rw [(wordStep_writes w h).1, hcur.W]
      exact addP_mod _ _ _
    | false => exact (wordStep_writes_nothing w h).1.trans hcur.W
  case R => exact hR.trans hcur.R
  case ws1 => exact hws1.trans hcur.ws1
  case ws2 => exact hws2.trans hcur.ws2
  case Rhold => exact hhold.trans hcur.Rhold
  case Rw =>
    rw [after_producer_rW]
    split
    · next h => exact (hcapture h).1.trans hcur.Rhold
    · next h => exact (hnone (not_not.mp h)).1.trans hcur.Rw

theorem wordStep_countsOrdered (hord : CountsOrdered s g) (hrate : EnvRate s g (.port (.producer w))) :
    CountsOrdered (wordStep w s) (g.after s (.port (.producer w))) := by
  obtain ⟨hk, _, _, _, _, _, _, _, hnr, _⟩ := wordStep_frame w s
  obtain ⟨hrW, hhold, hrle, hws2, hw, hsince, hws1near, hws2near, hcover⟩ := hord
  have hcaptured : (g.after s (.port (.producer w))).rW ≤ g.rHold := by
    rw [after_producer_rW]
    split <;> omega
  refine ⟨hcaptured, hhold, hrle, hws2, ?_, hk ▸ hrate, hk ▸ hws1near, hk ▸ hws2near, hnr ▸ hcover⟩
  change (if completesSample s w then g.w + 1 else g.w) = g.ws1 + if completesSample s w then g.sinceR + 1 else g.sinceR
  split <;> omega

theorem wordStep_advancesAccounted (hacc : AdvancesAccounted s g) :
    AdvancesAccounted (wordStep w s) (g.after s (.port (.producer w))) := by
  obtain ⟨_, _, _, _, _, _, _, _, _, _, _, _, _, hdrop, _, _, _, _, htr⟩ := wordStep_frame w s
  exact ⟨hacc.r_eq, hdrop.trans hacc.dropCount, by rw [State.realTrace, htr]; exact hacc.emitted⟩

/-- Writing the sample numbered `g.w` overwrites only that numbered `g.w - C`. -/
theorem wordStep_storesNewest (hform : s.Wf) (hcur : CursorsMatch s g) (hst : StoresNewest s g) :
    StoresNewest (wordStep w s) (g.after s (.port (.producer w))) := by
  obtain ⟨hq, _, _, _, _, _, _, _, _, _, hmem, _⟩ := hform
  obtain ⟨hk, _⟩ := wordStep_frame w s
  have hlen := hst.length
  cases h : completesSample s w with
  | false =>
    obtain ⟨_, hm⟩ := wordStep_writes_nothing w h
    refine ⟨by simpa [Counts.after, h] using hlen, ?_⟩
    rw [hm, hk]
    simpa [Counts.after, h] using hst.newest
  | true =>
    obtain ⟨_, hm⟩ := wordStep_writes w h
    rw [hcur.W, slot_mod s.cfg hq] at hm
    refine ⟨by simpa [Counts.after, h] using hlen, fun n hn hnear => ?_⟩
    simp only [Counts.after, h, if_true] at hn hnear ⊢
    rw [hk] at hnear
    rw [hm, hk]
    rcases Nat.lt_succ_iff_lt_or_eq.mp hn with hlt | rfl
    · have hslot : n % s.cfg.c ≠ g.w % s.cfg.c := fun heq => by
        have hdvd := (Nat.modEq_iff_dvd' hlt.le).mp heq
        have hle := Nat.le_of_dvd (by omega) hdvd
        omega
      rw [memRead_memWrite_other _ _ _ _ hslot, List.getD_append _ _ _ _ (hlen ▸ hlt)]
      exact hst.newest n hlt (by omega)
    · rw [memRead_memWrite_same _ _ _ hmem, ← hlen, List.getD_append_right _ _ _ _ le_rfl, Nat.sub_self]
      rfl

theorem wordStep_tracks (h : Tracks s g) (hrate : EnvRate s g (.port (.producer w))) :
    Tracks (wordStep w s) (g.after s (.port (.producer w))) := by
  obtain ⟨hform, hcur, hord, hacc, hst⟩ := (tracks_iff s g).mp h
  exact (tracks_iff _ _).mpr ⟨wstep_wf _ _ s hform, wordStep_cursorsMatch w hcur, wordStep_countsOrdered w hord hrate,
    wordStep_advancesAccounted w hacc, wordStep_storesNewest w hform hcur hst⟩

end Write

/-! ### Reset and every step -/

theorem resetOf_tracks (k : Config) (hq : k.isQsf = true) : Tracks (State.resetOf k) Counts.zero := by
  have hgray : 0 = bin2gray (0 % 2 ^ k.pw) := by rw [Nat.zero_mod]; rfl
  have hzero : 0 = 0 % 2 ^ k.pw := (Nat.zero_mod _).symm
  exact (tracks_iff _ _).mpr ⟨resetOf_wf k hq, ⟨hzero, hzero, hgray, hgray, hzero, hzero⟩,
    ⟨le_rfl, le_rfl, le_rfl, le_rfl, rfl, Nat.zero_le _, Nat.zero_le _, Nat.zero_le _, le_rfl⟩, ⟨rfl, rfl, rfl⟩, rfl,
    nofun⟩

/-- A step that takes an edge is a reset, the `wstep` of a producer word, or a `rstep` of a decoded command. -/
theorem step_edge_cases (s t : State) (e : Edge) (es : List Edge) (he : s.edges = e :: es) (h : step s = .next t) :
    s.cfg.isQsf = true ∧
      ((e = .reset ∧ t = withEdges es (State.resetOf s.cfg)) ∨
        (∃ w, e = .port (.producer w) ∧ t = wordStep w (withEdges es s)) ∨
        (∃ w i cmd, e = .port (.consumer w) ∧ i.wf s.cfg = true ∧ commandOf i = some cmd ∧
          t = rstep cmd (withEdges es s))) := by
  obtain ⟨hq, ⟨he', _⟩ | ⟨es', he', rfl⟩ | ⟨w, es', i, he', hd, hx⟩⟩ := step_cases s t h
  · rw [he] at he'
    cases he'
  · obtain ⟨rfl, rfl⟩ := List.cons.inj (he.symm.trans he')
    exact ⟨hq, .inl ⟨rfl, rfl⟩⟩
  · obtain ⟨rfl, rfl⟩ := List.cons.inj (he.symm.trans he')
    refine ⟨hq, .inr ?_⟩
    have hport := decode_port s.cfg w i hd
    cases w with
    | producer w =>
      obtain rfl : decodeProducer w = i := Except.ok.inj hd
      rw [exec_of_producerParts _ _ _ (producerParts_decodeProducer w) (withEdges es s) hq] at hx
      exact .inl ⟨w, rfl, (Host.Outcome.next.inj hx).symm⟩
    | consumer w =>
      obtain ⟨cmd, hc, _⟩ := exec_consumer i hport s
      rw [exec_of_commandOf i cmd hc (withEdges es s) hq] at hx
      exact .inr ⟨w, i, cmd, rfl, decode_wf s.cfg _ i hd, hc, (Host.Outcome.next.inj hx).symm⟩

/-- Settles O40, by the kind of the edge. -/
theorem envRateKeepsTheCountsExact : Obligations.EnvRateKeepsTheCountsExact := by
  intro s t g e es h he hrate hstep
  obtain ⟨hq, ⟨rfl, rfl⟩ | ⟨w, rfl, rfl⟩ | ⟨w, i, cmd, rfl, hi, hc, rfl⟩⟩ := step_edge_cases s t e es he hstep
  · exact resetOf_tracks s.cfg hq
  · exact wordStep_tracks (s := withEdges es s) w h hrate
  · exact rstep_tracks (s := withEdges es s) i cmd hc w hi h

/-! ### Write order -/

theorem emittedInOrder_iff (s : State) (g : Counts) :
    EmittedInOrder s g ↔ g.emitted.Pairwise (· < ·) ∧ (∀ n ∈ g.emitted, n < g.r) ∧
      s.realTrace.map OutEvent.data = g.emitted.map fun n => g.written.getD n 0 := Iff.rfl

theorem resetOf_emittedInOrder (k : Config) : EmittedInOrder (State.resetOf k) Counts.zero := ⟨.nil, nofun, rfl⟩

/-- A write adds to the samples written and leaves those emitted, whose numbers are below the read cursor. -/
theorem wordStep_emittedInOrder {s : State} {g : Counts} (w : BitVec 10) (h : Tracks s g) (ho : EmittedInOrder s g) :
    EmittedInOrder (wordStep w s) (g.after s (.port (.producer w))) := by
  obtain ⟨_, _, hord, _, hst⟩ := (tracks_iff s g).mp h
  obtain ⟨hrise, hbelow, hdata⟩ := (emittedInOrder_iff s g).mp ho
  obtain ⟨_, _, _, _, _, _, _, _, _, _, _, _, _, _, _, _, _, _, htr⟩ := wordStep_frame w s
  refine (emittedInOrder_iff _ _).mpr ⟨hrise, hbelow, ?_⟩
  rw [State.realTrace, htr]
  refine hdata.trans (List.map_congr_left fun n hn => ?_)
  have hlt : n < g.written.length := by
    have hr := hbelow n hn
    have hle := hord.r_le
    have hle' := hord.ws2_le
    have hw := hord.w_eq
    rw [hst.length]
    omega
  simp only [Counts.after]
  split
  · exact (List.getD_append _ _ _ _ hlt).symm
  · rfl

/-- A real step emits the sample numbered `R1`, which is above those emitted before; under ENV-NOLAP its slot still holds it
(70_reset_and_hazards R413). -/
theorem rstep_emittedInOrder {s : State} {g : Counts} (i : Instr) (cmd : Command) (hc : commandOf i = some cmd) (w : Nat)
    (h : Tracks s g) (ho : EmittedInOrder s g) (hlap : EnvNoLap s g (.port (.consumer w))) :
    EmittedInOrder (rstep cmd s) (g.after s (.port (.consumer w))) := by
  obtain ⟨⟨hq, _⟩, hcur, hord, _, hst⟩ := (tracks_iff s g).mp h
  obtain ⟨hrise, hbelow, hdata⟩ := (emittedInOrder_iff s g).mp ho
  obtain ⟨hr, hr1, _⟩ := hord.r1_bounds
  rw [emittedInOrder_iff, after_consumer_emitted, after_consumer_r, rstep_realTrace i cmd hc s]
  rcases Nat.eq_zero_or_pos s.nReal with h0 | hreal
  · simp only [h0, lt_irrefl, if_false, List.append_nil, Nat.add_zero]
    exact ⟨hrise, fun n hn => (hbelow n hn).trans_le hr, hdata⟩
  · have hnumber : memRead s.mem (slot s.cfg s.caughtUp) = g.written.getD (g.r1 s.cfg) 0 := by
      have hdef : g.r1 s.cfg = g.r + (g.ws2 - g.r - s.cfg.c) := rfl
      have hcover := hord.covered
      have hws2 := hord.ws2_le
      have hw := hord.w_eq
      have hc0 := c_pos s.cfg hq
      have hnear := hlap rfl ((realStep_iff s).mpr hreal)
      rw [caughtUp_eq_counts hq hcur hord, slot_mod s.cfg hq]
      exact hst.newest _ (by omega) (by omega)
    simp only [hreal, if_true, List.map_append, List.map_cons, List.map_nil, hnumber]
    refine ⟨List.pairwise_append.mpr ⟨hrise, List.pairwise_singleton _ _, fun n hn m hm => ?_⟩, fun n hn => ?_, ?_⟩
    · rw [List.mem_singleton.mp hm]
      exact (hbelow n hn).trans_le hr
    · rcases List.mem_append.mp hn with hn | hn
      · have hlt := hbelow n hn
        omega
      · rw [List.mem_singleton.mp hn]
        exact Nat.lt_succ_self _
    · rw [hdata]
      rfl

/-- Settles O41, by the kind of the edge. -/
theorem noLapKeepsWriteOrder : Obligations.NoLapKeepsWriteOrder := by
  intro s t g e es h ho he _ hlap hstep
  obtain ⟨_, ⟨rfl, rfl⟩ | ⟨w, rfl, rfl⟩ | ⟨w, i, cmd, rfl, _, hc, rfl⟩⟩ := step_edge_cases s t e es he hstep
  · exact resetOf_emittedInOrder s.cfg
  · exact wordStep_emittedInOrder (s := withEdges es s) w h ho
  · exact rstep_emittedInOrder (s := withEdges es s) i cmd hc w h ho hlap

/-! ### The status outputs -/

/-- Settles O43: both differences are exact, and the copies are no newer than the cursors. -/
theorem statusOutputsAreConservative : Obligations.StatusOutputsAreConservative := by
  intro s g h
  obtain ⟨⟨hq, _⟩, hcur, hord, _⟩ := (tracks_iff s g).mp h
  have havail := rAvail_eq_counts hq hcur hord
  obtain ⟨hr, _⟩ := hord.r1_bounds
  obtain ⟨hrW, hhold, hrle, hws2, hw, _⟩ := hord
  have hc := c_pos s.cfg hq
  refine ⟨by omega, fun hwstat => ?_⟩
  have hdistance : subP s.cfg s.W s.Rw = g.w - g.rW := by
    rw [hcur.W, hcur.Rw]
    exact subP_mod_mod_of_lt s.cfg hq _ _ (by omega) (by omega)
  refine ⟨hdistance, ?_, fun hfull => ?_⟩
  · rw [State.wFill, hdistance]
    omega
  · rw [State.wFull, hdistance]
    exact decide_eq_true (by omega)

/-! ### The invariants at reset -/

theorem resetOf_settled (k : Config) : (State.resetOf k).Settled := by
  have hnone : subP k 0 0 = 0 := by simp [subP]
  exact ⟨rfl, rfl, rfl, rfl, hnone.trans_le (Nat.zero_le _)⟩

theorem resetOf_abstracts (k : Config) : Abstracts (State.resetOf k) (RefState.create k.c k.f) := by
  have hslot : slot k 0 = 0 := Nat.zero_mod _
  have hnone : subP k 0 0 = 0 := by simp [subP]
  have hstorage : ∀ i < k.c, (List.replicate k.c (0 : Sample)).getD i 0 = memRead [] i := fun i hi =>
    (List.getD_replicate 0 hi).trans (memRead_nil i).symm
  exact ⟨rfl, rfl, List.length_replicate, hstorage, hslot.symm, hslot.symm, hnone.symm, iff_of_true rfl rfl, rfl, rfl, rfl⟩

/-- Settles O10. -/
theorem resetMeetsTheInvariants : Obligations.ResetMeetsTheInvariants := fun k hq =>
  ⟨resetOf_wf k hq, resetOf_inOrder k, resetOf_tracks k hq, resetOf_emittedInOrder k, resetOf_settled k, resetOf_abstracts k⟩

end Sys2Proof.Machine
end

