-- ==== Sys2Proof/Proofs/StatusRate.lean ====
section
/-! PROOF. The write bound that gives ENV-WSTAT (42_cdc R292): with at most `n` sample writes between `rstep`s, `W - R_w` is at
most `C + 6n + 3` in every phase of the handshake. A request carries a cursor at most `C + 3n` behind `W`; up to its capture two
bytes make a sample, so three `wstep`s write at most two; from the capture to the next send three `rstep`s pass. -/

namespace Sys2Proof.Machine

/-! ### The distance by the phase of the handshake -/

/-- The bounds while a request is under way, after `j` `wstep`s: in half samples, a pending byte being one, of which a `wstep`
adds at most one. -/
def UnderWayBound (n c : Nat) (lo : Bool) (j : Nat) (g : Counts) : Prop :=
  2 * g.w + lo.toNat ≤ 2 * (g.rHold + c + 3 * n) + 1 + j ∧ 2 * g.w + lo.toNat ≤ 2 * (g.rW + c + 6 * n + 2) + 1 + j

/-- How far `W` can be ahead of the copies of the read cursor, by the phase. -/
def PhaseBound (n c : Nat) (lo : Bool) (g : Counts) : Phase → Prop
  | .requested => UnderWayBound n c lo 0 g
  | .synced1 => UnderWayBound n c lo 1 g
  | .synced2 => UnderWayBound n c lo 2 g
  | .captured => g.w ≤ g.rW + c + 3 * n + 2 + g.sinceR
  | .acknowledged => g.w ≤ g.rW + c + 4 * n + 2 + g.sinceR
  | .idle => g.w ≤ g.rW + c + 5 * n + 2 + g.sinceR

/-- In every phase the next capture comes in time. -/
theorem PhaseBound.distance_le {n c : Nat} {lo : Bool} {g : Counts} {p : Phase} (h : PhaseBound n c lo g p)
    (hs : g.sinceR ≤ n) : g.w ≤ g.rW + c + 6 * n + 3 := by
  cases p <;> simp only [PhaseBound, UnderWayBound] at h <;> omega

/-- A `wstep` that writes as many samples as it counts, and at most half a one by its byte, keeps the bound: the capture turns
the bound on the held copy into that on `R_w`. -/
theorem PhaseBound.wstep {n c : Nat} {lo lo' : Bool} {g g' : Counts} {p : Phase} (h : PhaseBound n c lo g p)
    (hhalf : 2 * g'.w + lo'.toNat ≤ 2 * g.w + lo.toNat + 1) (hw : g'.w + g.sinceR = g.w + g'.sinceR)
    (hhold : g'.rHold = g.rHold) (hrW : g'.rW = if p = .synced2 then g.rHold else g.rW) :
    PhaseBound n c lo' g' p.afterWstep := by
  cases p <;> simp only [reduceCtorEq, if_true, if_false] at hrW <;>
    simp only [PhaseBound, UnderWayBound, Phase.afterWstep] at h ⊢ <;> omega

/-- A `rstep` ends an interval of at most `n` writes; the one that sends holds a cursor at most `C + 3n` behind. -/
theorem PhaseBound.rstep {n c : Nat} {lo : Bool} {g g' : Counts} {p : Phase} (h : PhaseBound n c lo g p)
    (hs : g.sinceR ≤ n) (hr : g.w ≤ g.r + c + 2 * n + g.sinceR) (hlo : lo.toNat ≤ 1) (hw : g'.w = g.w)
    (hs' : g'.sinceR = 0) (hrW : g'.rW = g.rW) (hhold : g'.rHold = if p = .idle then g.r else g.rHold) :
    PhaseBound n c lo g' p.afterRstep := by
  cases p <;> simp only [reduceCtorEq, if_true, if_false] at hhold <;>
    simp only [PhaseBound, UnderWayBound, Phase.afterRstep] at h ⊢ <;> omega

/-! ### The invariant of a run with bounded writes -/

/-- With at most `n` writes between `rstep`s: what is not yet seen is at most two intervals old, what is unread at most `C`
more than that, and the copies of the read cursor are as near as the phase says. -/
structure WritesBounded (n : Nat) (s : State) (g : Counts) : Prop where
  inOrder : s.HandshakeInOrder
  sinceR_le : g.sinceR ≤ n
  w_eq : g.w = g.ws1 + g.sinceR
  ws1_near : g.ws1 ≤ g.ws2 + n
  r_near : g.w ≤ g.r + s.cfg.c + 2 * n + g.sinceR
  phase : PhaseBound n s.cfg.c s.loPending g s.phase

section Bounded
variable {n : Nat} {s : State} {g : Counts}

theorem WritesBounded.withEdges (h : WritesBounded n s g) : WritesBounded n (withEdges [] s) g :=
  ⟨h.inOrder, h.sinceR_le, h.w_eq, h.ws1_near, h.r_near, h.phase⟩

/-- 42_cdc R292: `W - R_w <= C + 6n + 3`. -/
theorem WritesBounded.envWstat (h : WritesBounded n s g) (hn : 6 * n + 4 ≤ s.cfg.c) : EnvWstat s g := by
  have hle := h.phase.distance_le h.sinceR_le
  unfold EnvWstat
  omega

theorem resetOf_writesBounded (n : Nat) (k : Config) : WritesBounded n (State.resetOf k) Counts.zero :=
  ⟨resetOf_inOrder k, Nat.zero_le _, rfl, Nat.zero_le _, Nat.zero_le _, Nat.zero_le _⟩

/-- What a producer word leaves pending (10_state R50), as `writesBetween` goes on from it. -/
theorem wordStep_loPending (w : BitVec 10) (s : State) :
    (wordStep w s).loPending =
      if completesSample s w then false else if pEob w then false else pValid w || s.loPending := by
  rw [wordStep, wstep_loPending, wordPayload, completesSample]
  cases pValid w <;> cases pEob w <;> cases s.loPending <;> rfl

/-- A producer word keeps the bounds when the sample it completes is one the bound allows. -/
theorem wordStep_writesBounded (w : BitVec 10) (h : WritesBounded n s g)
    (hn : completesSample s w = true → g.sinceR + 1 ≤ n) :
    WritesBounded n (wordStep w s) (g.after s (.port (.producer w))) := by
  obtain ⟨hord, hs, hw, hnear, hr, hphase⟩ := h
  obtain ⟨hk, _⟩ := wordStep_frame w s
  have hw' : (g.after s (.port (.producer w))).w = g.w + (completesSample s w).toNat := by
    cases hc : completesSample s w <;> simp [Counts.after, hc]
  have hs' : (g.after s (.port (.producer w))).sinceR = g.sinceR + (completesSample s w).toNat := by
    cases hc : completesSample s w <;> simp [Counts.after, hc]
  have hhalf : 2 * (completesSample s w).toNat + (wordStep w s).loPending.toNat ≤ s.loPending.toNat + 1 := by
    rw [wordStep_loPending]
    cases hc : completesSample s w with
    | true => simp [(Bool.and_eq_true_iff.mp hc).2]
    | false => exact (Nat.zero_add _).trans_le ((Bool.toNat_le _).trans (Nat.le_add_left 1 _))
  have hrW : (g.after s (.port (.producer w))).rW = if s.phase = .synced2 then g.rHold else g.rW := by
    simp only [after_producer_rW, captures_iff_synced2 hord]
  have hsince : g.sinceR + (completesSample s w).toNat ≤ n := by
    cases hc : completesSample s w with
    | true => exact hn hc
    | false => exact hs
  refine ⟨wstep_inOrder hord _ _, by omega, ?_, hnear, ?_, ?_⟩
  · change _ = g.ws1 + _
    omega
  · change _ ≤ g.r + _ + _ + _
    rw [hk]
    omega
  · rw [wordStep, wstep_phase hord, ← wordStep, hk]
    exact hphase.wstep (by omega) (by omega) rfl hrW

/-- A consumer word starts the next interval: catch-up leaves at most `C` unread of what is seen. -/
theorem rstep_writesBounded (i : Instr) (cmd : Command) (hc : commandOf i = some cmd) (w : Nat) (h : WritesBounded n s g) :
    WritesBounded n (rstep cmd s) (g.after s (.port (.consumer w))) := by
  obtain ⟨hord, hs, hw, hnear, hr, hphase⟩ := h
  have hk := rstep_cfg i cmd hc s
  obtain ⟨⟨_, _, hlo, _⟩, _⟩ := rstep_keeps_writeDomain i cmd hc s
  have hcaught : g.ws2 ≤ g.r1 s.cfg + s.cfg.c := by
    unfold Counts.r1
    omega
  have hhold : (g.after s (.port (.consumer w))).rHold = if s.phase = .idle then g.r else g.rHold := by
    simp only [after_consumer_rHold, sends_iff_idle hord]
  refine ⟨rstep_inOrder hord i cmd hc, Nat.zero_le n, rfl, ?_, ?_, ?_⟩
  · change g.w ≤ g.ws1 + n
    omega
  · change g.w ≤ _ + _ + _ + 0
    rw [after_consumer_r, hk]
    omega
  · rw [rstep_phase hord i cmd hc, hk, hlo]
    exact hphase.rstep hs hr (Bool.toNat_le _) rfl rfl rfl hhold

/-- One word of a run that `writesBetween` accepts keeps the bounds, and the rest of the run is accepted from there. -/
theorem word_writesBounded (w : PortWord) (ws : List PortWord) (hq : s.cfg.isQsf = true) (hwf : w.wf s.cfg = true)
    (h : WritesBounded n s g) (hn : writesBetween n s.loPending g.sinceR (w :: ws) = true) :
    ∃ i t, decode s.cfg w = .ok i ∧ exec i s = .next t ∧ t.cfg = s.cfg ∧ WritesBounded n t (g.after s (.port w)) ∧
      writesBetween n t.loPending (g.after s (.port w)).sinceR ws = true := by
  cases w with
  | producer w =>
    refine ⟨_, wordStep w s, rfl, exec_of_producerParts _ _ _ (producerParts_decodeProducer w) s hq, wstep_cfg _ _ s, ?_⟩
    rw [wordStep_loPending]
    cases hc : completesSample s w with
    | true =>
      obtain ⟨hle, hrest⟩ : g.sinceR + 1 ≤ n ∧ writesBetween n false (g.sinceR + 1) ws = true := by
        simpa [writesBetween, show (pValid w && s.loPending) = true from hc] using hn
      exact ⟨wordStep_writesBounded w h fun _ => hle, by simpa [Counts.after, hc] using hrest⟩
    | false =>
      have hrest : writesBetween n (if pEob w then false else pValid w || s.loPending) g.sinceR ws = true := by
        rwa [writesBetween, if_neg (by rw [show (pValid w && s.loPending) = false from hc]; exact Bool.false_ne_true)] at hn
      exact ⟨wordStep_writesBounded w h (by simp [hc]), by simpa [Counts.after, hc] using hrest⟩
  | consumer w =>
    obtain ⟨i, hd⟩ := decode_of_wf s.cfg (.consumer w) hwf
    obtain ⟨cmd, hc, _⟩ := exec_consumer i (decode_port s.cfg _ i hd) s
    obtain ⟨⟨_, _, hlo, _⟩, _⟩ := rstep_keeps_writeDomain i cmd hc s
    exact ⟨i, _, hd, exec_of_commandOf i cmd hc s hq, rstep_cfg i cmd hc s, rstep_writesBounded i cmd hc w h,
      by rw [hlo]; exact hn⟩

/-- Every point of a run that `writesBetween` accepts is within the bounds. -/
theorem follow_writesBounded (ws : List PortWord) (m : Nat) (hq : s.cfg.isQsf = true) (hwf : ∀ w ∈ ws, w.wf s.cfg = true)
    (h : WritesBounded n s g) (hn : writesBetween n s.loPending g.sinceR ws = true) :
    ∃ t, t.cfg = s.cfg ∧ WritesBounded n t (follow ((ws.map .port).take m) s g).2 := by
  induction ws generalizing m s g with
  | nil => exact ⟨s, rfl, by simpa using h⟩
  | cons w ws ih =>
    cases m with
    | zero => exact ⟨s, rfl, by simpa using h⟩
    | succ m =>
      obtain ⟨hw, hws⟩ := List.forall_mem_cons.mp hwf
      obtain ⟨i, t, hd, hx, hk, ht, hrest⟩ := word_writesBounded w ws hq hw h hn
      obtain ⟨u, hu, hbound⟩ := ih m (s := withEdges [] t) (hk ▸ hq) (hk ▸ hws) ht.withEdges hrest
      refine ⟨u, hu.trans hk, ?_⟩
      rw [List.map_cons, List.take_succ_cons, follow_word w i _ s t g hd hx]
      exact hbound

end Bounded

/-- A run from reset whose writes keep within the bound meets ENV-WSTAT. -/
theorem envWstatAlong_of_writesBetween (k : Config) (ws : List PortWord) (n : Nat) (hq : k.isQsf = true)
    (hwf : ∀ w ∈ ws, w.wf k = true) (hn : writesBetween n false 0 ws = true) (hc : 6 * n + 4 ≤ k.c) :
    EnvWstatAlong (ws.map .port) (State.resetOf k) Counts.zero := by
  intro m
  obtain ⟨t, hk, ht⟩ := follow_writesBounded (s := State.resetOf k) ws m hq hwf (resetOf_writesBounded n k) hn
  have hbound := ht.envWstat (by rw [hk]; exact hc)
  rwa [EnvWstat, hk] at hbound

/-! ### Counting `wstep`s or bytes -/

/-- No more bytes than `wstep`s. -/
theorem bytesBetween_of_wstepsBetween (m : Nat) (ws : List PortWord) (a b : Nat) (hab : b ≤ a)
    (h : wstepsBetween m a ws = true) : bytesBetween m b ws = true := by
  induction ws generalizing a b with
  | nil => rfl
  | cons w ws ih =>
    cases w with
    | consumer w => exact ih 0 0 le_rfl h
    | producer w =>
      obtain ⟨hle, hrest⟩ : a + 1 ≤ m ∧ wstepsBetween m (a + 1) ws = true := by simpa [wstepsBetween] using h
      rw [bytesBetween]
      split
      · exact Bool.and_eq_true_iff.mpr ⟨decide_eq_true (by omega), ih (a + 1) (b + 1) (by omega) hrest⟩
      · exact ih (a + 1) b (by omega) hrest

/-- Two bytes to a sample, of which one can be pending from before the `rstep` (40_producer R193). -/
theorem writesBetween_of_bytesBetween (m : Nat) (ws : List PortWord) (lo : Bool) (b n : Nat)
    (hb : 2 * n + lo.toNat ≤ b + 1) (h : bytesBetween m b ws = true) : writesBetween ((m + 1) / 2) lo n ws = true := by
  induction ws generalizing lo b n with
  | nil => rfl
  | cons w ws ih =>
    cases w with
    | consumer w =>
      have hlo := Bool.toNat_le lo
      exact ih lo 0 0 (by omega) h
    | producer w =>
      rw [bytesBetween] at h
      rw [writesBetween]
      cases hv : pValid w with
      | false =>
        rw [hv, if_neg Bool.false_ne_true] at h
        rw [Bool.false_and, if_neg Bool.false_ne_true, Bool.false_or]
        refine ih _ b n ?_ h
        split
        · exact (Nat.le_add_right _ _).trans hb
        · exact hb
      | true =>
        obtain ⟨hle, hrest⟩ : b + 1 ≤ m ∧ bytesBetween m (b + 1) ws = true := by simpa [hv] using h
        rw [Bool.true_and, Bool.true_or]
        cases lo with
        | true =>
          rw [Bool.toNat_true] at hb
          rw [if_pos rfl]
          exact Bool.and_eq_true_iff.mpr
            ⟨decide_eq_true (by omega), ih false (b + 1) (n + 1) (by rw [Bool.toNat_false]; omega) hrest⟩
        | false =>
          rw [Bool.toNat_false] at hb
          have hlo := Bool.toNat_le (if pEob w then false else true)
          rw [if_neg Bool.false_ne_true]
          exact ih _ (b + 1) n (by omega) hrest

/-- At most `m` `wstep`s or bytes between `rstep`s write at most `ceil(m / 2)` samples between them (70_reset_and_hazards
R410). -/
theorem writesBetween_of_pacing (m : Nat) (ws : List PortWord)
    (h : wstepsBetween m 0 ws = true ∨ bytesBetween m 0 ws = true) : writesBetween ((m + 1) / 2) false 0 ws = true := by
  have hbytes : bytesBetween m 0 ws = true := h.elim (bytesBetween_of_wstepsBetween m ws 0 0 le_rfl) id
  exact writesBetween_of_bytesBetween m ws false 0 0 (Nat.zero_le _) hbytes

/-- Settles O55: by the bound on the writes, which the bounds on `wstep`s and bytes give. -/
theorem writeBoundGivesEnvWstat : Obligations.WriteBoundGivesEnvWstat := fun k ws hq hwf =>
  ⟨fun n hn hc => envWstatAlong_of_writesBetween k ws n hq hwf hn hc,
    fun m h hc => envWstatAlong_of_writesBetween k ws _ hq hwf (writesBetween_of_pacing m ws h) hc⟩

end Sys2Proof.Machine
end

