-- ==== Sys2Proof/Proofs/ReferenceCalls.lean ====
section
/-! PROOF. The sequential reference model (43_reference_model R320 to R327): its unread samples are a window on a ring of `C`
slots; a write extends the window at its end and a full window loses its first sample, a read takes samples from its start. -/

namespace Sys2Proof.Machine

/-! ### Samples on a ring of slots -/

/-- The samples in `n` of the `c` slots, from place `a` on and around. -/
def ring (get : Nat → Sample) (c a n : Nat) : List Sample := (List.range n).map fun i => get ((a + i) % c)

section Ring
variable (get : Nat → Sample) (c a : Nat)

@[simp] theorem ring_length (n : Nat) : (ring get c a n).length = n := by simp [ring]

@[simp] theorem ring_zero : ring get c a 0 = [] := rfl

/-- The first place counts modulo the number of slots. -/
theorem ring_mod (n : Nat) : ring get c (a % c) n = ring get c a n := by simp only [ring, Nat.mod_add_mod]

theorem ring_append (m n : Nat) : ring get c a (m + n) = ring get c a m ++ ring get c (a + m) n := by
  simp only [ring, List.range_add, List.map_append, List.map_map, Function.comp_def, Nat.add_assoc]

theorem ring_one : ring get c a 1 = [get (a % c)] := rfl

theorem ring_drop (m n : Nat) (h : m ≤ n) : (ring get c a n).drop m = ring get c (a + m) (n - m) := by
  obtain ⟨d, rfl⟩ := Nat.exists_eq_add_of_le h
  rw [ring_append, List.drop_left' (ring_length get c a m), Nat.add_sub_cancel_left]

theorem ring_take (m n : Nat) (h : m ≤ n) : (ring get c a n).take m = ring get c a m := by
  obtain ⟨d, rfl⟩ := Nat.exists_eq_add_of_le h
  rw [ring_append, List.take_left' (ring_length get c a m)]

theorem ring_getD (n i : Nat) (h : i < n) : (ring get c a n).getD i 0 = get ((a + i) % c) := by
  simp [ring, List.getD_eq_getElem?_getD, h]

variable {get c a}

/-- Storages that agree on the places from `a` on hold the same samples there. -/
theorem ring_congr {get' : Nat → Sample} {n : Nat} (h : ∀ i < n, get ((a + i) % c) = get' ((a + i) % c)) :
    ring get c a n = ring get' c a n :=
  List.map_congr_left fun i hi => h i (List.mem_range.mp hi)

end Ring

/-- Places less than `c` apart are different slots. -/
theorem add_mod_ne (c a i n : Nat) (hi : i < n) (hn : n < c + i) : (a + i) % c ≠ (a + n) % c := fun heq => by
  have hdvd := (Nat.modEq_iff_dvd' (Nat.add_le_add_left hi.le a)).mp heq
  have hle := Nat.le_of_dvd (by omega) hdvd
  omega

/-! ### The unread samples -/

/-- The unread samples, oldest first (43_reference_model R327, third invariant). -/
def RefState.content (r : RefState) : List Sample := ring (r.storage.getD · 0) r.c r.readCursor r.available

@[simp] theorem RefState.content_length (r : RefState) : r.content.length = r.available := ring_length _ _ _ _

/-! ### Writing -/

section Write
variable {r : RefState}

/-- A write leaves the size and the frame size. -/
theorem RefState.write1_size (v : Sample) (r : RefState) : (r.write1 v).c = r.c ∧ (r.write1 v).f = r.f := by
  unfold RefState.write1
  split <;> exact ⟨rfl, rfl⟩

theorem RefState.write1_room (v : Sample) (h : r.available < r.c) :
    r.write1 v = { r with
      storage := r.storage.set r.writeCursor v
      writeCursor := (r.writeCursor + 1) % r.c
      available := r.available + 1 } := by
  simp [RefState.write1, h]

theorem RefState.write1_full (v : Sample) (h : r.c ≤ r.available) :
    r.write1 v = { r with
      storage := r.storage.set r.writeCursor v
      writeCursor := (r.writeCursor + 1) % r.c
      readCursor := (r.readCursor + 1) % r.c
      overflowCount := r.overflowCount + 1 } := by
  simp [RefState.write1, Nat.not_lt.mpr h]

theorem RefState.Sound.write1 (h : r.Sound) (v : Sample) : (r.write1 v).Sound := by
  obtain ⟨hlen, hw, hr, ha, hwr⟩ := h
  have hc : 0 < r.c := Nat.zero_lt_of_lt hr
  have hset : (r.storage.set r.writeCursor v).length = r.c := (List.length_set).trans hlen
  rcases Nat.lt_or_ge r.available r.c with hroom | hfull
  · rw [write1_room v hroom]
    exact ⟨hset, Nat.mod_lt _ hc, hr, hroom, by rw [hwr, Nat.mod_add_mod, Nat.add_assoc]⟩
  · rw [write1_full v hfull]
    exact ⟨hset, Nat.mod_lt _ hc, Nat.mod_lt _ hc, ha, by
      rw [hwr, Nat.mod_add_mod, Nat.mod_add_mod, Nat.add_right_comm]⟩

theorem RefState.Sound.write (h : r.Sound) (vs : List Sample) : (r.write vs).Sound := by
  induction vs generalizing r with
  | nil => exact h
  | cons v vs ih => exact ih (h.write1 v)

/-- The slots of a window end just before the write cursor, so a write is seen behind them and not in them. -/
theorem RefState.ring_write (v : Sample) (a n : Nat) (hlen : r.storage.length = r.c) (hw : r.writeCursor < r.c)
    (hn : n < r.c) (ha : (a + n) % r.c = r.writeCursor) :
    ring ((r.storage.set r.writeCursor v).getD · 0) r.c a (n + 1) = ring (r.storage.getD · 0) r.c a n ++ [v] := by
  have hold : ring ((r.storage.set r.writeCursor v).getD · 0) r.c a n = ring (r.storage.getD · 0) r.c a n := by
    refine ring_congr fun i hi => ?_
    have hne : r.writeCursor ≠ (a + i) % r.c := ha ▸ (add_mod_ne r.c a i n hi (by omega)).symm
    simp [List.getD_eq_getElem?_getD, List.getElem?_set_ne hne]
  have hnew : (r.storage.set r.writeCursor v).getD ((a + n) % r.c) 0 = v := by
    rw [ha]
    simp [List.getD_eq_getElem?_getD, hlen, hw]
  rw [ring_append, ring_one, hold, hnew]

/-- What a write loses, if the buffer is full, is the oldest unread sample (R322). -/
theorem RefState.Sound.write1_content (h : r.Sound) (v : Sample) :
    ∃ lost, r.content ++ [v] = lost ++ (r.write1 v).content ∧
      (r.write1 v).overflowCount = r.overflowCount + lost.length ∧
      (r.write1 v).available = min (r.available + 1) r.c := by
  obtain ⟨hlen, hw, hr, ha, hwr⟩ := h
  rcases Nat.lt_or_ge r.available r.c with hroom | hfull
  · refine ⟨[], ?_, by rw [write1_room v hroom]; rfl, by rw [write1_room v hroom]; exact (Nat.min_eq_left hroom).symm⟩
    rw [write1_room v hroom]
    exact (ring_write v r.readCursor r.available hlen hw hroom hwr.symm).symm
  · obtain ⟨m, hm⟩ := Nat.exists_eq_add_one.mpr (Nat.zero_lt_of_lt hr)
    have havail : r.available = 1 + m := by omega
    have hcursor : (r.readCursor + 1 + m) % r.c = r.writeCursor := by rw [hwr, havail, Nat.add_assoc]
    refine ⟨[r.storage.getD (r.readCursor % r.c) 0], ?_, by rw [write1_full v hfull]; rfl, by
      rw [write1_full v hfull]; exact (Nat.le_antisymm ha hfull).trans (Nat.min_eq_right (by omega)).symm⟩
    rw [write1_full v hfull, content, content, ring_mod, havail, ring_append, ring_one, List.append_assoc, Nat.add_comm 1 m,
      ring_write v (r.readCursor + 1) m hlen hw (by omega) hcursor]

/-- What writes lose is the oldest of what was unread and written. -/
theorem RefState.Sound.write_content (h : r.Sound) (vs : List Sample) :
    ∃ lost, r.content ++ vs = lost ++ (r.write vs).content ∧
      (r.write vs).overflowCount = r.overflowCount + lost.length ∧
      (r.write vs).available = min (r.available + vs.length) r.c := by
  induction vs generalizing r with
  | nil =>
    obtain ⟨_, _, _, ha, _⟩ := h
    exact ⟨[], List.append_nil _, rfl, (Nat.min_eq_left ha).symm⟩
  | cons v vs ih =>
    obtain ⟨lost, hone, hcount, havail⟩ := h.write1_content v
    obtain ⟨lost', hrest, hcount', havail'⟩ := ih (h.write1 v)
    refine ⟨lost ++ lost', ?_, ?_, ?_⟩
    · rw [List.append_assoc, RefState.write, ← hrest, ← List.append_assoc, ← hone, List.append_assoc, List.singleton_append]
    · rw [RefState.write, hcount', hcount, List.length_append, Nat.add_assoc]
    · obtain ⟨hc, _⟩ := write1_size v r
      rw [RefState.write, havail', havail, hc, List.length_cons]
      omega

/-- Written into an empty buffer, the last samples stay, at most `C` of them, and the others are lost. -/
theorem RefState.Sound.write_empty (h : r.Sound) (he : r.available = 0) (vs : List Sample) :
    (r.write vs).content = vs.drop (vs.length - r.c) ∧ (r.write vs).available = min vs.length r.c ∧
      (r.write vs).overflowCount = r.overflowCount + (vs.length - r.c) := by
  obtain ⟨lost, hall, hcount, havail⟩ := h.write_content vs
  have hnone : r.content = [] := List.eq_nil_of_length_eq_zero (r.content_length.trans he)
  rw [hnone, List.nil_append] at hall
  rw [he, Nat.zero_add] at havail
  have hlen := congrArg List.length hall
  rw [List.length_append, RefState.content_length, havail] at hlen
  have hlost : lost.length = vs.length - r.c := by omega
  exact ⟨(List.drop_left.symm.trans (by rw [← hlost, ← hall])), havail, hlost ▸ hcount⟩

end Write

/-! ### Reading -/

/-- An element a call returns from the buffer (R324). -/
abbrev realElement (v : Sample) : RefSample := ⟨v, false⟩

/-- The padding of a read, and the elements of a starved pull (R324, R325). -/
abbrev silences (n : Nat) : List RefSample := List.replicate n ⟨0, true⟩

/-- The state with the oldest `m` samples taken. -/
def RefState.skip (m : Nat) (r : RefState) : RefState :=
  { r with readCursor := (r.readCursor + m) % r.c, available := r.available - m }

theorem RefState.skip_zero (r : RefState) (h : r.readCursor < r.c) : r.skip 0 = r := by
  simp [RefState.skip, Nat.mod_eq_of_lt h]

theorem RefState.skip_skip (m n : Nat) (r : RefState) : (r.skip m).skip n = r.skip (m + n) := by
  simp [RefState.skip, Nat.add_assoc, Nat.sub_sub]

theorem RefState.skip_content (m : Nat) (r : RefState) (h : m ≤ r.available) : (r.skip m).content = r.content.drop m := by
  simp only [RefState.skip, RefState.content, ring_mod, ring_drop _ _ _ _ _ h]

theorem RefState.Sound.skip {r : RefState} (h : r.Sound) (m : Nat) (hm : m ≤ r.available) : (r.skip m).Sound := by
  obtain ⟨hlen, hw, hr, ha, hwr⟩ := h
  refine ⟨hlen, hw, Nat.mod_lt _ (Nat.zero_lt_of_lt hr), (Nat.sub_le _ _).trans ha, ?_⟩
  simp only [RefState.skip, Nat.mod_add_mod]
  rw [hwr, Nat.add_assoc, Nat.add_sub_cancel' hm]

/-- A read takes what it can from the oldest samples on, and pads with silence (R324). -/
theorem RefState.read_eq (n : Nat) (r : RefState) (h : r.readCursor < r.c) :
    r.read n = ((r.content.take n).map realElement ++ silences (n - r.available), r.skip (min n r.available)) := by
  induction n generalizing r with
  | zero => simp [RefState.read, skip_zero r h]
  | succ n ih =>
    rcases Nat.eq_zero_or_pos r.available with h0 | hpos
    · have hnone : r.content = [] := List.eq_nil_of_length_eq_zero (r.content_length.trans h0)
      simp [RefState.read, ih r h, h0, hnone, List.replicate_succ]
    · have hnext : (r.skip 1).readCursor < r.c := Nat.mod_lt _ (Nat.zero_lt_of_lt h)
      have hfirst : r.content = r.storage.getD r.readCursor 0 :: (r.skip 1).content := by
        have hall := ring_append (r.storage.getD · 0) r.c r.readCursor 1 (r.available - 1)
        rw [Nat.add_sub_cancel' hpos, ring_one, Nat.mod_eq_of_lt h, List.singleton_append] at hall
        rw [skip_content 1 r hpos, content, hall, List.drop_one, List.tail_cons]
      have hskip : (r.skip 1).available = r.available - 1 := rfl
      have hcount : 1 + min n (r.available - 1) = min (n + 1) r.available := by omega
      have hstep : r.read (n + 1) =
          (realElement (r.storage.getD r.readCursor 0) :: ((r.skip 1).read n).1, ((r.skip 1).read n).2) := by
        rw [RefState.read, if_pos hpos]
        rfl
      rw [hstep, ih (r.skip 1) hnext, skip_skip, hskip, hcount, hfirst, List.take_succ_cons, List.map_cons, List.cons_append,
        show n - (r.available - 1) = n + 1 - r.available by omega]

theorem RefState.pull_feeding (r : RefState) (h : r.f ≤ r.available) :
    r.pull = RefState.read r.f { r with mode := .feeding } := if_pos h

/-- A fed pull takes a frame of the oldest samples, with no padding. -/
theorem RefState.pull_feeding_eq (r : RefState) (hr : r.readCursor < r.c) (h : r.f ≤ r.available) :
    r.pull = ((r.content.take r.f).map realElement, { r.skip r.f with mode := .feeding }) := by
  have hread := read_eq r.f { r with mode := .feeding } hr
  rw [pull_feeding r h, hread, Nat.min_eq_left h, Nat.sub_eq_zero_of_le h, silences, List.replicate_zero, List.append_nil]
  rfl

theorem RefState.pull_starved (r : RefState) (h : r.available < r.f) :
    r.pull = (silences r.f, { r with mode := .starved, underrunCount := r.underrunCount + 1 }) := if_neg (Nat.not_le.mpr h)

theorem RefState.calls_one (c : RefCall) (r : RefState) : r.calls [c] = r.call c := by simp [RefState.calls]

/-! ### Every call keeps the counts -/

theorem RefState.Sound.onBurst {r : RefState} (h : r.Sound) (bytes : List Byte) : (r.onBurst bytes).Sound :=
  h.write (samplesOf bytes)

theorem RefState.Sound.read {r : RefState} (h : r.Sound) (n : Nat) : (r.read n).2.Sound := by
  obtain ⟨_, _, hr, _⟩ := id h
  rw [read_eq n r hr]
  exact h.skip _ (Nat.min_le_right _ _)

theorem RefState.Sound.pull {r : RefState} (h : r.Sound) : r.pull.2.Sound := by
  rcases Nat.lt_or_ge r.available r.f with hf | hf
  · rw [pull_starved r hf]
    exact h
  · rw [pull_feeding r hf]
    exact RefState.Sound.read (r := { r with mode := .feeding }) h r.f

/-- Settles O46: a write moves the cursors by the same place, a read the read cursor with the count. -/
theorem referenceCallsKeepTheCounts : Obligations.ReferenceCallsKeepTheCounts := fun _ h =>
  ⟨h.write1, h.onBurst, h.read, h.pull⟩

theorem RefState.Sound.call {r : RefState} (h : r.Sound) (c : RefCall) : (r.call c).2.Sound := by
  cases c with
  | write vs => exact h.write vs
  | burst bytes => exact h.onBurst bytes
  | pull => exact h.pull
  | read n => exact h.read n

theorem RefState.Sound.calls {r : RefState} (h : r.Sound) (cs : List RefCall) : (r.calls cs).2.Sound := by
  induction cs generalizing r with
  | nil => exact h
  | cons c cs ih => exact ih (h.call c)

theorem RefState.write_size (vs : List Sample) (r : RefState) : (r.write vs).c = r.c ∧ (r.write vs).f = r.f := by
  induction vs generalizing r with
  | nil => exact ⟨rfl, rfl⟩
  | cons v vs ih =>
    obtain ⟨hc, hf⟩ := write1_size v r
    obtain ⟨hc', hf'⟩ := ih (r.write1 v)
    exact ⟨hc'.trans hc, hf'.trans hf⟩

/-- A write leaves what the consumer and the ends of bursts count. -/
theorem RefState.write_indications (vs : List Sample) (r : RefState) :
    (r.write vs).burstCounter = r.burstCounter ∧ (r.write vs).underrunCount = r.underrunCount := by
  induction vs generalizing r with
  | nil => exact ⟨rfl, rfl⟩
  | cons v vs ih =>
    obtain ⟨hbursts, hunder⟩ := ih (r.write1 v)
    refine ⟨hbursts.trans ?_, hunder.trans ?_⟩ <;> unfold RefState.write1 <;> split <;> rfl

/-- No call changes the size or the frame size (R320). -/
theorem RefState.Sound.call_size {r : RefState} (h : r.Sound) (c : RefCall) :
    (r.call c).2.c = r.c ∧ (r.call c).2.f = r.f := by
  obtain ⟨_, _, hr, _⟩ := h
  cases c with
  | write vs => exact write_size vs r
  | burst bytes => exact write_size (samplesOf bytes) r
  | read n =>
    rw [RefState.call, read_eq n r hr]
    exact ⟨rfl, rfl⟩
  | pull =>
    rcases Nat.lt_or_ge r.available r.f with hf | hf
    · rw [RefState.call, pull_starved r hf]
      exact ⟨rfl, rfl⟩
    · rw [RefState.call, pull_feeding_eq r hr hf]
      exact ⟨rfl, rfl⟩

theorem RefState.Sound.calls_size {r : RefState} (h : r.Sound) (cs : List RefCall) :
    (r.calls cs).2.c = r.c ∧ (r.calls cs).2.f = r.f := by
  induction cs generalizing r with
  | nil => exact ⟨rfl, rfl⟩
  | cons c cs ih =>
    obtain ⟨hc, hf⟩ := h.call_size c
    obtain ⟨hc', hf'⟩ := ih (h.call c)
    exact ⟨hc'.trans hc, hf'.trans hf⟩

theorem RefState.create_sound (c f : Nat) (hc : 1 ≤ c) : (RefState.create c f).Sound :=
  ⟨List.length_replicate, hc, hc, Nat.zero_le _, (Nat.zero_mod c).symm⟩

/-- Settles O47: written into the empty buffer, the last samples stay, and a read of them all needs no padding. -/
theorem referenceReadsTheLastWritten : Obligations.ReferenceReadsTheLastWritten := by
  intro c f vs hc
  have hsound := RefState.create_sound c f hc
  obtain ⟨hcontent, havail, hlost⟩ := hsound.write_empty rfl vs
  obtain ⟨_, _, hr, _⟩ := hsound.write vs
  have hc' : (RefState.create c f).c = c := rfl
  have hlost0 : (RefState.create c f).overflowCount = 0 := rfl
  rw [hc'] at hcontent havail hlost
  refine ⟨?_, by rw [hlost, hlost0, Nat.zero_add]⟩
  rw [RefState.read_eq _ _ hr, havail, Nat.sub_self, silences, List.replicate_zero, List.append_nil, ← havail,
    ← RefState.content_length, List.take_length, hcontent]

/-! ### What is unread is what was written last -/

/-- Of the samples written, those unread are the last; those before them were read, in order, or lost. -/
def RefState.Remembers (r : RefState) (written read : List Sample) : Prop :=
  ∃ gone, written = gone ++ r.content ∧ read.Sublist gone ∧ gone.length = read.length + r.overflowCount

section Remembers
variable {r : RefState} {written taken : List Sample}

theorem RefState.Remembers.write (h : r.Remembers written taken) (hs : r.Sound) (vs : List Sample) :
    (r.write vs).Remembers (written ++ vs) taken := by
  obtain ⟨gone, rfl, hread, hlen⟩ := h
  obtain ⟨lost, hall, hcount, _⟩ := hs.write_content vs
  refine ⟨gone ++ lost, by rw [List.append_assoc, List.append_assoc, hall],
    hread.trans (List.sublist_append_left gone lost), ?_⟩
  rw [List.length_append, hlen, hcount, Nat.add_assoc]

theorem RefState.Remembers.skip (h : r.Remembers written taken) (m : Nat) (hm : m ≤ r.available) :
    (r.skip m).Remembers written (taken ++ r.content.take m) := by
  obtain ⟨gone, rfl, hread, hlen⟩ := h
  refine ⟨gone ++ r.content.take m, ?_, hread.append (.refl _), ?_⟩
  · rw [skip_content m r hm, List.append_assoc, List.take_append_drop]
  · have hcount : (r.skip m).overflowCount = r.overflowCount := rfl
    simp only [List.length_append, hlen, hcount]
    omega

theorem realValues_append (es fs : List RefSample) : realValues (es ++ fs) = realValues es ++ realValues fs := by
  simp [realValues]

@[simp] theorem realValues_real (vs : List Sample) : realValues (vs.map realElement) = vs := by
  simp [realValues, List.filter_map, Function.comp_def]

@[simp] theorem realValues_silences (n : Nat) : realValues (silences n) = [] := by simp [realValues]

theorem RefState.Remembers.read (h : r.Remembers written taken) (hs : r.Sound) (n : Nat) :
    (r.read n).2.Remembers written (taken ++ realValues (r.read n).1) := by
  obtain ⟨_, _, hr, _⟩ := id hs
  have htake : r.content.take n = r.content.take (min n r.available) := by
    rw [← r.content_length, List.take_eq_take_iff]
    omega
  rw [read_eq n r hr, realValues_append, realValues_real, realValues_silences, List.append_nil, htake]
  exact h.skip _ (Nat.min_le_right _ _)

theorem RefState.Remembers.call (h : r.Remembers written taken) (hs : r.Sound) (c : RefCall) :
    (r.call c).2.Remembers (written ++ c.samples) (taken ++ realValues (r.call c).1) := by
  cases c with
  | write vs =>
    rw [RefState.call, show realValues [] = [] from rfl, List.append_nil]
    exact h.write hs vs
  | burst bytes =>
    rw [RefState.call, show realValues [] = [] from rfl, List.append_nil]
    exact h.write hs (samplesOf bytes)
  | read n => simpa [RefState.call, RefCall.samples] using h.read hs n
  | pull =>
    rcases Nat.lt_or_ge r.available r.f with hf | hf
    · rw [RefState.call, pull_starved r hf, realValues_silences, RefCall.samples, List.append_nil, List.append_nil]
      exact h
    · rw [RefState.call, pull_feeding r hf, RefCall.samples, List.append_nil]
      exact RefState.Remembers.read (r := { r with mode := .feeding }) h hs r.f

theorem RefState.Remembers.calls (h : r.Remembers written taken) (hs : r.Sound) (cs : List RefCall) :
    (r.calls cs).2.Remembers (written ++ samplesWritten cs) (taken ++ realValues (r.calls cs).1) := by
  induction cs generalizing r written taken with
  | nil => simpa [RefState.calls, samplesWritten, realValues] using h
  | cons c cs ih => simpa [RefState.calls, samplesWritten, realValues_append] using ih (h.call hs c) (hs.call c)

/-- The third invariant of R327, slot by slot. -/
theorem RefState.Remembers.holdsLast (h : r.Remembers written taken) : r.HoldsLast written taken := by
  obtain ⟨gone, rfl, hread, hlen⟩ := h
  have hcut : (gone ++ r.content).length - r.available = gone.length := by simp
  refine ⟨by simp [hlen], fun i hi => ?_, by rwa [hcut, List.take_left]⟩
  rw [hcut, List.getD_append_right _ _ _ _ (Nat.le_add_right _ _), Nat.add_sub_cancel_left]
  exact (ring_getD (r.storage.getD · 0) _ _ _ _ hi).symm

end Remembers

/-- Settles O56, by induction on the calls. -/
theorem referenceCallsKeepTheInvariants : Obligations.ReferenceCallsKeepTheInvariants := by
  intro c f calls hc
  have hsound := RefState.create_sound c f hc
  have hempty : (RefState.create c f).Remembers [] [] := ⟨[], rfl, .slnil, rfl⟩
  exact ⟨hsound.calls calls, (hempty.calls hsound calls).holdsLast⟩

/-! ### Reading what was written -/

section ReadBack
variable {r : RefState}

/-- The reference with another count of bursts, which no write reads. -/
def RefState.withBursts (n : Nat) (r : RefState) : RefState := { r with burstCounter := n }

theorem RefState.write_withBursts (n : Nat) (vs : List Sample) (r : RefState) :
    (r.withBursts n).write vs = (r.write vs).withBursts n := by
  induction vs generalizing r with
  | nil => rfl
  | cons v vs ih =>
    have hone : (r.withBursts n).write1 v = (r.write1 v).withBursts n := by
      rcases Nat.lt_or_ge r.available r.c with hroom | hfull
      · rw [write1_room v hroom, write1_room (r := r.withBursts n) v hroom]
        rfl
      · rw [write1_full v hfull, write1_full (r := r.withBursts n) v hfull]
        rfl
    rw [RefState.write, hone, ih]
    rfl

/-- Bursts one after another write their samples one after another. -/
theorem RefState.calls_bursts (bursts : List (List Byte)) (r : RefState) :
    ∃ n, r.calls (bursts.map .burst) = ([], (r.write (samplesWritten (bursts.map .burst))).withBursts n) := by
  induction bursts generalizing r with
  | nil => exact ⟨r.burstCounter, rfl⟩
  | cons b bs ih =>
    have hone : r.onBurst b = (r.write (samplesOf b)).withBursts ((r.write (samplesOf b)).burstCounter + 1) := rfl
    obtain ⟨n, hrest⟩ := ih (r.onBurst b)
    refine ⟨n, ?_⟩
    rw [List.map_cons, calls, call, hrest, hone, write_withBursts, ← write_append]
    rfl

/-- Reading all that is unread leaves nothing. -/
theorem RefState.call_read_all (hs : r.Sound) :
    ∃ r', r.calls [.read r.available] = (r.content.map realElement, r') ∧ r'.available = 0 ∧
      r'.overflowCount = r.overflowCount := by
  obtain ⟨_, _, hr, _⟩ := hs
  refine ⟨r.skip r.available, ?_, Nat.sub_self _, rfl⟩
  rw [calls_one, call, read_eq _ r hr, ← r.content_length, List.take_length, Nat.sub_self, Nat.min_self, silences,
    List.replicate_zero, List.append_nil]

/-- Pulls that come out even read all that is unread. -/
theorem RefState.calls_pulls (j : Nat) (hs : r.Sound) (h : j * r.f = r.available) :
    ∃ r', r.calls (List.replicate j .pull) = (r.content.map realElement, r') ∧ r'.available = 0 ∧
      r'.overflowCount = r.overflowCount ∧ r'.underrunCount = r.underrunCount ∧ r'.f = r.f ∧
      (0 < j → r'.mode = .feeding) := by
  induction j generalizing r with
  | zero =>
    have h0 : r.available = 0 := by rw [← h, Nat.zero_mul]
    have hnone : r.content = [] := List.eq_nil_of_length_eq_zero (r.content_length.trans h0)
    exact ⟨r, by rw [hnone]; rfl, h0, rfl, rfl, rfl, fun hlt => absurd hlt (lt_irrefl 0)⟩
  | succ j ih =>
    have hmul : j * r.f + r.f = r.available := by rw [← h, Nat.succ_mul]
    have hle : r.f ≤ r.available := by omega
    obtain ⟨_, _, hr, _⟩ := id hs
    have hpull := pull_feeding_eq r hr hle
    have hsound : r.pull.2.Sound := hs.pull
    rw [hpull] at hsound
    have hrest : j * r.f = r.available - r.f := by omega
    obtain ⟨r', hcalls, havail, hover, hunder, hf, hmode⟩ := ih hsound hrest
    have hcontent : RefState.content { r.skip r.f with mode := .feeding } = r.content.drop r.f := skip_content r.f r hle
    refine ⟨r', ?_, havail, hover, hunder, hf, fun _ => ?_⟩
    · rw [List.replicate_succ, calls, call, hpull, hcalls, hcontent, ← List.map_append, List.take_append_drop]
    · rcases Nat.eq_zero_or_pos j with rfl | hpos
      · rw [List.replicate_zero] at hcalls
        rw [← (Prod.mk.inj hcalls).2]
      · exact hmode hpos

/-- After writes into an empty buffer, one read of what is kept, or pulls that come out even, give the last samples back and
leave the buffer empty. -/
theorem RefState.Sound.reads_back (hs : r.Sound) (hempty : r.available = 0) (n : Nat) (vs : List Sample) (reads : List RefCall)
    (hreads : reads = [.read (min vs.length r.c)] ∨ ∃ j, reads = List.replicate j .pull ∧ j * r.f = min vs.length r.c) :
    ∃ r', ((r.write vs).withBursts n).calls reads = ((vs.drop (vs.length - r.c)).map realElement, r') ∧
      r'.available = 0 ∧ r'.overflowCount = r.overflowCount + (vs.length - r.c) := by
  obtain ⟨hcontent, havail, hlost⟩ := hs.write_empty hempty vs
  obtain ⟨_, hf⟩ := write_size vs r
  have hsound : ((r.write vs).withBursts n).Sound := hs.write vs
  rw [← hcontent, ← hlost]
  obtain rfl | ⟨j, rfl, hj⟩ := hreads
  · rw [← havail]
    exact call_read_all hsound
  · obtain ⟨r', hcalls, hleft, hover, _⟩ := calls_pulls j hsound (hj.trans havail.symm ▸ congrArg (j * ·) hf)
    exact ⟨r', hcalls, hleft, hover⟩

/-- A burst into an empty buffer and pulls that come out even. -/
theorem RefState.Sound.burst_pulls {r : RefState} (hs : r.Sound) (hempty : r.available = 0) (bytes : List Byte) (j : Nat)
    (hj : j * r.f = min (samplesOf bytes).length r.c) :
    ∃ r', r.calls (.burst bytes :: List.replicate j .pull) =
        (((samplesOf bytes).drop ((samplesOf bytes).length - r.c)).map realElement, r') ∧ r'.available = 0 ∧
      r'.overflowCount = r.overflowCount + ((samplesOf bytes).length - r.c) ∧ r'.underrunCount = r.underrunCount ∧
      r'.f = r.f ∧ (0 < j → r'.mode = .feeding) := by
  obtain ⟨hcontent, havail, hlost⟩ := hs.write_empty hempty (samplesOf bytes)
  obtain ⟨_, hf⟩ := write_size (samplesOf bytes) r
  obtain ⟨_, hunder⟩ := write_indications (samplesOf bytes) r
  have hsound : (r.onBurst bytes).Sound := hs.onBurst bytes
  have hall : j * (r.onBurst bytes).f = (r.onBurst bytes).available := (congrArg (j * ·) hf).trans (hj.trans havail.symm)
  obtain ⟨r', hcalls, hleft, hover, hunder', hf', hmode⟩ := calls_pulls j hsound hall
  refine ⟨r', ?_, hleft, hover.trans hlost, hunder'.trans hunder, hf'.trans hf, hmode⟩
  rw [RefState.calls, RefState.call, hcalls, ← hcontent]
  rfl

end ReadBack

end Sys2Proof.Machine
end

