-- ==== Sys2Proof/Proofs/Mirroring.lean ====
section
/-! PROOF. The hardware beside the reference model (43_reference_model R328, R330), step by step: under the counts of 42_cdc
R287 the reference holds what the hardware stores, and of it as unread what the hardware will not drop and has not planned to
emit. A write, an accepted command and a streamed sample each keep this. -/

namespace Sys2Proof.Machine

/-! ### What the command in flight still emits -/

theorem slot_eq_mod (k : Config) (hq : k.isQsf = true) (p : Nat) : slot k p = p % k.c := by
  obtain ⟨_, hc, _⟩ := (isQsf_iff k).mp hq
  rw [slot, hc]

/-- A cursor names the slot of its count (00_scope R15). -/
theorem mod_pw_mod_c (k : Config) (hq : k.isQsf = true) (n : Nat) : n % 2 ^ k.pw % k.c = n % k.c := by
  rw [← slot_eq_mod k hq, slot_mod k hq]

/-- The elements still to come: the real samples from the read cursor on, then silence (41_consumer R232, R233). -/
def State.toCome (s : State) : List RefSample :=
  (ring (memRead s.mem) s.cfg.c s.R s.nReal).map realElement ++ silences s.nZero

@[simp] theorem toCome_length (s : State) : s.toCome.length = s.remaining := by simp [State.toCome, State.remaining]

theorem toCome_of_cReady (s : State) (h : s.cReady = true) : s.toCome = [] :=
  List.eq_nil_of_length_eq_zero ((toCome_length s).trans ((cReady_iff_remaining s).mp h))

/-- A streaming step that drops nothing emits the next element. -/
theorem rstep_emits_toCome (i : Instr) (cmd : Command) (hc : commandOf i = some cmd) (s : State) (hq : s.cfg.isQsf = true)
    (h : 0 < s.remaining) (hdrop : s.toDrop = 0) :
    ∃ e, (rstep cmd s).trace = s.trace ++ [e] ∧ s.toCome = tagged [e] ++ (rstep cmd s).toCome := by
  obtain ⟨hreal, hsilence, _⟩ := rstep_streamsOne i cmd hc s (not_cReady_of_remaining s h)
  obtain ⟨_, hm⟩ := rstep_keeps_writeDomain i cmd hc s
  have hk := rstep_cfg i cmd hc s
  rw [caughtUp_of_no_drop s hdrop] at hreal hsilence
  simp only [State.toCome, hm, hk]
  rcases Nat.eq_zero_or_pos s.nReal with h0 | hpos
  · obtain ⟨⟨_, _, _, _, htr⟩, _, hnr, hnz⟩ := hsilence h0
    obtain ⟨z, hz⟩ : ∃ z, s.nZero = z + 1 := Nat.exists_eq_add_one.mpr (by simpa [State.remaining, h0] using h)
    exact ⟨_, htr, by simp [tagged, h0, hnr, hnz, hz, List.replicate_succ]⟩
  · obtain ⟨⟨_, _, _, _, htr⟩, hR, hnr, hnz⟩ := hreal hpos
    have hnext : ring (memRead s.mem) s.cfg.c (addP s.cfg s.R 1) (s.nReal - 1) =
        ring (memRead s.mem) s.cfg.c (s.R + 1) (s.nReal - 1) := by
      rw [← ring_mod, addP, mod_pw_mod_c s.cfg hq, ring_mod]
    have hall := ring_append (memRead s.mem) s.cfg.c s.R 1 (s.nReal - 1)
    rw [Nat.add_sub_cancel' hpos, ring_one] at hall
    exact ⟨_, htr, by simp [tagged, hall, hR, hnext, hnr, hnz, slot_eq_mod s.cfg hq]⟩

/-! ### The reference beside the hardware -/

/-- The reference stores what the hardware stores, at the same place. -/
structure StoresAlike (s : State) (g : Counts) (r : RefState) : Prop where
  c : r.c = s.cfg.c
  f : r.f = s.cfg.f
  length : r.storage.length = s.cfg.c
  storage : ∀ i < s.cfg.c, r.storage.getD i 0 = memRead s.mem i
  writeCursor : r.writeCursor = g.w % s.cfg.c

/-- The reference has dropped at once what the read domain drops when it sees it, and has handed out at once what the command
in flight has still to emit; the mode and the counts of the consumer are the same. -/
structure ReadsAlike (s : State) (g : Counts) (r : RefState) : Prop where
  available : r.available + s.nReal = min (g.w - g.r) s.cfg.c
  overflow : r.overflowCount = g.dropped + (g.w - g.r - s.cfg.c)
  dropCount : s.dropCount = BitVec.ofNat 32 g.dropped
  mode : r.mode = .starved ↔ s.starved = true
  underrunCount : s.underrunCount = BitVec.ofNat 32 r.underrunCount

section Alike
variable {s : State} {g : Counts} {r : RefState}

theorem ReadsAlike.available_le (h : ReadsAlike s g r) : r.available ≤ g.w - g.r ∧ r.available ≤ s.cfg.c := by
  have havail := h.available
  omega

/-- The read cursor is as far behind the write cursor as samples are unread (R327). -/
theorem readCursor_of_alike (hs : r.Sound) (hst : StoresAlike s g r) (hrd : ReadsAlike s g r) :
    r.readCursor = (g.w - r.available) % s.cfg.c := by
  obtain ⟨_, _, hr, _, hwr⟩ := hs
  obtain ⟨hw, _⟩ := hrd.available_le
  have hmod : (r.readCursor + r.available) % s.cfg.c = (g.w - r.available + r.available) % s.cfg.c := by
    rw [← hst.c, ← hwr, hst.writeCursor, hst.c, Nat.sub_add_cancel (by omega)]
  have hcancel : r.readCursor % s.cfg.c = (g.w - r.available) % s.cfg.c := Nat.ModEq.add_right_cancel' _ hmod
  rwa [Nat.mod_eq_of_lt (hst.c ▸ hr)] at hcancel

/-- What the reference has unread stands in the hardware's storage up to the write cursor. -/
theorem content_of_alike (hs : r.Sound) (hst : StoresAlike s g r) (hrd : ReadsAlike s g r) :
    r.content = ring (memRead s.mem) s.cfg.c (g.w - r.available) r.available := by
  obtain ⟨_, _, hr, _⟩ := id hs
  rw [RefState.content, hst.c, readCursor_of_alike hs hst hrd, ring_mod]
  exact ring_congr fun i _ => hst.storage _ (Nat.mod_lt _ (Nat.zero_lt_of_lt (hst.c ▸ hr)))

/-! ### Writes -/

/-- A sample stored at the write cursor is one `write1` (40_producer R185; R322). -/
theorem StoresAlike.write1 {t : State} {g' : Counts} (hst : StoresAlike s g r) (hmem : Memory.wf s.mem = true)
    (v : Sample) (hk : t.cfg = s.cfg) (hm : t.mem = memWrite s.mem (g.w % s.cfg.c) v) (hw : g'.w = g.w + 1) :
    StoresAlike t g' (r.write1 v) := by
  have hstore : (r.write1 v).storage = r.storage.set r.writeCursor v ∧
      (r.write1 v).writeCursor = (r.writeCursor + 1) % r.c := by
    unfold RefState.write1
    split <;> exact ⟨rfl, rfl⟩
  obtain ⟨hset, hcursor⟩ := hstore
  obtain ⟨hsize, hframe⟩ := RefState.write1_size v r
  constructor
  case c => rw [hsize, hk, hst.c]
  case f => rw [hframe, hk, hst.f]
  case length => rw [hset, List.length_set, hk, hst.length]
  case storage =>
    intro i hi
    rw [hk] at hi
    rw [hset, hst.writeCursor, hm, List.getD_eq_getElem?_getD]
    by_cases heq : g.w % s.cfg.c = i
    · subst heq
      rw [memRead_memWrite_same _ _ _ hmem, List.getElem?_set_self (hst.length ▸ hi)]
      rfl
    · rw [memRead_memWrite_other _ _ _ _ (Ne.symm heq), List.getElem?_set_ne heq, ← hst.storage i hi,
        List.getD_eq_getElem?_getD]
  case writeCursor => rw [hcursor, hst.writeCursor, hst.c, hk, hw, Nat.mod_add_mod]

/-- When the buffer is full the reference drops its oldest, which the read domain has then to drop. -/
theorem ReadsAlike.write1 {t : State} {g' : Counts} (hrd : ReadsAlike s g r) (hc : r.c = s.cfg.c) (v : Sample)
    (h0 : s.nReal = 0) (hle : g.r ≤ g.w) (hk : t.cfg = s.cfg) (hread : SameReadDomain s t) (hw : g'.w = g.w + 1)
    (hr : g'.r = g.r) (hd : g'.dropped = g.dropped) : ReadsAlike t g' (r.write1 v) := by
  obtain ⟨_, _, _, _, _, _, _, hnr, _, hstarved, _, hunder, hdrop, _⟩ := hread
  have havail := hrd.available
  have hover := hrd.overflow
  have hone : (r.write1 v).available = min (r.available + 1) s.cfg.c ∧
      (r.write1 v).overflowCount = r.overflowCount + (r.available + 1 - s.cfg.c) ∧ (r.write1 v).mode = r.mode ∧
      (r.write1 v).underrunCount = r.underrunCount := by
    rw [← hc] at havail ⊢
    rcases Nat.lt_or_ge r.available r.c with hroom | hfull
    · rw [RefState.write1_room v hroom]
      exact ⟨by dsimp only; omega, by dsimp only; omega, rfl, rfl⟩
    · rw [RefState.write1_full v hfull]
      exact ⟨by dsimp only; omega, by dsimp only; omega, rfl, rfl⟩
  obtain ⟨havail', hover', hmode', hunder'⟩ := hone
  constructor
  case available => rw [havail', hnr, hw, hr, hk]; omega
  case overflow => rw [hover', hw, hr, hk, hd]; omega
  case dropCount => rw [hdrop, hd, hrd.dropCount]
  case mode => rw [hmode', hstarved]; exact hrd.mode
  case underrunCount => rw [hunder', hunder]; exact hrd.underrunCount

/-- The reference with one more burst counted, if one ends (R323). -/
def RefState.countBurst (ends : Bool) (r : RefState) : RefState :=
  if ends then { r with burstCounter := r.burstCounter + 1 } else r

theorem RefState.countBurst_burstCounter (ends : Bool) (r : RefState) :
    (r.countBurst ends).burstCounter = if ends then r.burstCounter + 1 else r.burstCounter := by cases ends <;> rfl

theorem StoresAlike.countBurst (h : StoresAlike s g r) (ends : Bool) : StoresAlike s g (r.countBurst ends) := by
  cases ends
  · exact h
  · exact ⟨h.c, h.f, h.length, h.storage, h.writeCursor⟩

theorem ReadsAlike.countBurst (h : ReadsAlike s g r) (ends : Bool) : ReadsAlike s g (r.countBurst ends) := by
  cases ends
  · exact h
  · exact ⟨h.available, h.overflow, h.dropCount, h.mode, h.underrunCount⟩

/-- The samples a `wstep` completes, none or one. -/
def completed (s : State) (payload : Option Byte) : List Sample := samplesOf (s.pendingBytes ++ payload.toList)

/-- A `wstep` does what the reference does with the samples it completes, and with the end of a burst (R322, R323). -/
theorem wstep_keeps_alike {g' : Counts} (payload : Option Byte) (eob : Bool) (hform : s.Wf) (hcur : CursorsMatch s g)
    (hle : g.r ≤ g.w) (hst : StoresAlike s g r) (hrd : ReadsAlike s g r) (hidle : completed s payload ≠ [] → s.nReal = 0)
    (hw : g'.w = g.w + (completed s payload).length) (hr : g'.r = g.r) (hd : g'.dropped = g.dropped) :
    StoresAlike (wstep payload eob s) g' ((r.write (completed s payload)).countBurst eob) ∧
      ReadsAlike (wstep payload eob s) g' ((r.write (completed s payload)).countBurst eob) := by
  obtain ⟨hq, hW, _, _, _, _, _, _, _, _, hmem, _⟩ := hform
  obtain ⟨hk, _, hm⟩ := wstep_writes payload eob s hW
  have hread := wstep_keeps_readDomain payload eob s
  have hone : (completed s payload).length ≤ 1 := by
    rw [completed, samplesOf_pending_length]
    split <;> omega
  change (wstep payload eob s).mem = storeAll s.cfg s.mem s.W (completed s payload) at hm
  match hvs : completed s payload, hone with
  | [], _ =>
    rw [hvs] at hm hw
    obtain ⟨_, _, _, _, _, _, _, hnr, _, hstarved, _, hunder, hdrop, _⟩ := hread
    have hst' : StoresAlike (wstep payload eob s) g' r :=
      ⟨hk ▸ hst.c, hk ▸ hst.f, hk ▸ hst.length, by rw [hk, hm]; exact hst.storage, by rw [hk, hw]; exact hst.writeCursor⟩
    have hrd' : ReadsAlike (wstep payload eob s) g' r :=
      ⟨by rw [hnr, hw, hr, hk]; exact hrd.available, by rw [hw, hr, hk, hd]; exact hrd.overflow,
        by rw [hdrop, hd]; exact hrd.dropCount, by rw [hstarved]; exact hrd.mode, hunder.trans hrd.underrunCount⟩
    exact ⟨hst'.countBurst eob, hrd'.countBurst eob⟩
  | [v], _ =>
    rw [hvs] at hm hw
    have hm' : (wstep payload eob s).mem = memWrite s.mem (g.w % s.cfg.c) v := by
      rw [hm, ← slot_mod s.cfg hq, ← hcur.W]
      rfl
    exact ⟨(hst.write1 hmem v hk hm' hw).countBurst eob,
      (hrd.write1 hst.c v (hidle (by simp [hvs])) hle hk hread hw hr hd).countBurst eob⟩

/-! ### Reads -/

theorem after_consumer_dropped (w : Nat) (hq : s.cfg.isQsf = true) (hcur : CursorsMatch s g) (hord : CountsOrdered s g) :
    (g.after s (.port (.consumer w))).dropped = g.dropped + s.toDrop := by
  change g.dropped + (g.r1 s.cfg - g.r) = _
  rw [r1_eq_counts hq hcur hord, Nat.add_sub_cancel_left]

/-- When the read domain sees every write, what it finds available is what the reference has unread. -/
theorem rAvail_of_alike (hq : s.cfg.isQsf = true) (hcur : CursorsMatch s g) (hord : CountsOrdered s g)
    (hready : s.cReady = true) (hseen : g.ws2 = g.w) (hrd : ReadsAlike s g r) :
    s.rAvail = r.available ∧ g.r1 s.cfg = g.w - r.available := by
  obtain ⟨h0, _⟩ := (cReady_iff s).mp hready
  have hdef : g.r1 s.cfg = g.r + (g.ws2 - g.r - s.cfg.c) := rfl
  have hrange := hord.r_le
  have hunread := hrd.available
  rw [rAvail_eq_counts hq hcur hord]
  omega

section Read
variable (i : Instr) (cmd : Command) (hc : commandOf i = some cmd) (w : Nat)
include hc

/-- A `rstep` writes nothing. -/
theorem rstep_storesAlike (hst : StoresAlike s g r) : StoresAlike (rstep cmd s) (g.after s (.port (.consumer w))) r := by
  obtain ⟨_, hm⟩ := rstep_keeps_writeDomain i cmd hc s
  have hk := rstep_cfg i cmd hc s
  exact ⟨hk ▸ hst.c, hk ▸ hst.f, hk ▸ hst.length, by rw [hk, hm]; exact hst.storage, by rw [hk]; exact hst.writeCursor⟩

variable (hq : s.cfg.isQsf = true) (hcur : CursorsMatch s g) (hord : CountsOrdered s g)
include hq hcur hord

/-- Catch-up drops what the reference has dropped already; the split an accepted command plans takes its real samples from the
reference's unread ones. -/
theorem rstep_ready_readsAlike (hready : s.cReady = true) (hrd : ReadsAlike s g r) {r' : RefState}
    (havail : r'.available + (rstep cmd s).nReal = r.available) (hover : r'.overflowCount = r.overflowCount)
    (hmode : r'.mode = .starved ↔ (rstep cmd s).starved = true)
    (hunder : (rstep cmd s).underrunCount = BitVec.ofNat 32 r'.underrunCount) :
    ReadsAlike (rstep cmd s) (g.after s (.port (.consumer w))) r' := by
  obtain ⟨h0, _⟩ := (cReady_iff s).mp hready
  have hr := after_consumer_r s g w
  have hd := after_consumer_dropped w hq hcur hord
  have hr1 := r1_eq_counts hq hcur hord
  have hdef : g.r1 s.cfg = g.r + (g.ws2 - g.r - s.cfg.c) := rfl
  have hseen : g.ws2 ≤ g.w := hord.ws2_le.trans ((Nat.le_add_right _ _).trans_eq hord.w_eq.symm)
  have hw : (g.after s (.port (.consumer w))).w = g.w := rfl
  have hunread := hrd.available
  have hlost := hrd.overflow
  rw [if_neg (by omega), Nat.add_zero] at hr
  constructor
  case available => rw [rstep_cfg i cmd hc s, hw, hr]; omega
  case overflow => rw [rstep_cfg i cmd hc s, hw, hr, hd]; omega
  case dropCount => rw [hd, rstep_dropCount i cmd hc s, hrd.dropCount, BitVec.ofNat_add]
  case mode => exact hmode
  case underrunCount => exact hunder

/-- A streaming step hands out what the reference has handed out already. -/
theorem rstep_busy_readsAlike (hbusy : 0 < s.remaining) (hseen : g.ws2 = g.w) (hle : g.w - g.r ≤ s.cfg.c)
    (hrd : ReadsAlike s g r) : ReadsAlike (rstep cmd s) (g.after s (.port (.consumer w))) r := by
  have hr := after_consumer_r s g w
  have hd := after_consumer_dropped w hq hcur hord
  have hr1 := r1_eq_counts hq hcur hord
  have hdef : g.r1 s.cfg = g.r + (g.ws2 - g.r - s.cfg.c) := rfl
  have hw : (g.after s (.port (.consumer w))).w = g.w := rfl
  have hunread := hrd.available
  have hlost := hrd.overflow
  have hready := not_cReady_of_remaining s hbusy
  obtain ⟨hstarved, hunder, _⟩ := rstep_busy_indications cmd s hready
  obtain ⟨hreal, hsilence, _⟩ := rstep_streamsOne i cmd hc s hready
  have hnr : (rstep cmd s).nReal = s.nReal - 1 := by
    rcases Nat.eq_zero_or_pos s.nReal with h0 | hpos
    · obtain ⟨_, _, hnr, _⟩ := hsilence h0
      rw [hnr, h0]
    · obtain ⟨_, _, hnr, _⟩ := hreal hpos
      exact hnr
  constructor
  case available =>
    rw [rstep_cfg i cmd hc s, hw, hr, hnr]
    split <;> omega
  case overflow =>
    rw [rstep_cfg i cmd hc s, hw, hr, hd]
    split <;> omega
  case dropCount => rw [hd, rstep_dropCount i cmd hc s, hrd.dropCount, BitVec.ofNat_add]
  case mode => rw [hstarved]; exact hrd.mode
  case underrunCount => exact hunder.trans hrd.underrunCount

/-- The split an accepted command plans is the reference's oldest unread samples, then silence. -/
theorem toCome_of_split (hready : s.cReady = true) (hseen : g.ws2 = g.w) (hs : r.Sound) (hst : StoresAlike s g r)
    (hrd : ReadsAlike s g r) (hle : (rstep cmd s).nReal ≤ r.available) :
    (rstep cmd s).toCome = (r.content.take (rstep cmd s).nReal).map realElement ++ silences (rstep cmd s).nZero := by
  obtain ⟨_, hm⟩ := rstep_keeps_writeDomain i cmd hc s
  obtain ⟨_, hr1⟩ := rAvail_of_alike hq hcur hord hready hseen hrd
  rw [State.toCome, hm, rstep_cfg i cmd hc s, rstep_ready_R i cmd hc s hready, caughtUp_eq_counts hq hcur hord, hr1,
    content_of_alike hs hst hrd, ring_take _ _ _ _ _ hle, ← ring_mod, mod_pw_mod_c s.cfg hq, ring_mod]

end Read

/-! ### Accepted commands and reference calls -/

/-- The hardware state `t` beside the reference after these calls, whose elements are all still to come. -/
structure MakesCalls (cs : List RefCall) (r : RefState) (t : State) (g : Counts) : Prop where
  stores : StoresAlike t g (r.calls cs).2
  reads : ReadsAlike t g (r.calls cs).2
  toCome : t.toCome = (r.calls cs).1

section Accept
variable (w : Nat) (hq : s.cfg.isQsf = true) (hcur : CursorsMatch s g) (hord : CountsOrdered s g) (hready : s.cReady = true)
  (hst : StoresAlike s g r) (hrd : ReadsAlike s g r)
include hq hcur hord hready hst hrd

/-- A command that plans nothing and leaves the indications makes no call. -/
theorem rstep_makes_no_call (i : Instr) (cmd : Command) (hc : commandOf i = some cmd) (hlen : commandLength s.cfg i = 0)
    (hstarved : (rstep cmd s).starved = s.starved) (hunder : (rstep cmd s).underrunCount = s.underrunCount) :
    MakesCalls [] r (rstep cmd s) (g.after s (.port (.consumer w))) := by
  have hrem := rstep_ready_remaining i cmd hc s hready
  have hdone : (rstep cmd s).cReady = true := (cReady_iff_remaining _).mpr (hrem.trans hlen)
  obtain ⟨h0, _⟩ := (cReady_iff _).mp hdone
  refine ⟨rstep_storesAlike i cmd hc w hst, ?_, toCome_of_cReady _ hdone⟩
  exact rstep_ready_readsAlike i cmd hc w hq hcur hord hready hrd (by rw [h0]; rfl) rfl (by rw [hstarved]; exact hrd.mode)
    (hunder.trans hrd.underrunCount)

variable (hseen : g.ws2 = g.w) (hs : r.Sound)
include hseen hs

/-- A command makes a call that hands out what the command plans, and takes its real samples from the unread ones. -/
theorem rstep_makesCalls_of_split (i : Instr) (cmd : Command) (hc : commandOf i = some cmd) (cs : List RefCall) (mode : Mode)
    (under : Nat) (hle : (rstep cmd s).nReal ≤ r.available)
    (hcalls : r.calls cs = ((r.content.take (rstep cmd s).nReal).map realElement ++ silences (rstep cmd s).nZero,
      { r.skip (rstep cmd s).nReal with mode := mode, underrunCount := under }))
    (hmode : mode = .starved ↔ (rstep cmd s).starved = true)
    (hunder : (rstep cmd s).underrunCount = BitVec.ofNat 32 under) :
    MakesCalls cs r (rstep cmd s) (g.after s (.port (.consumer w))) := by
  have hst' := rstep_storesAlike i cmd hc w hst
  refine ⟨?_, ?_, ?_⟩
  · rw [hcalls]
    exact ⟨hst'.c, hst'.f, hst'.length, hst'.storage, hst'.writeCursor⟩
  · rw [hcalls]
    exact rstep_ready_readsAlike i cmd hc w hq hcur hord hready hrd (Nat.sub_add_cancel hle) rfl hmode hunder
  · rw [toCome_of_split i cmd hc hq hcur hord hready hseen hs hst hrd hle, hcalls]

/-- An accepted `READ n` is the call `read(n)` (41_consumer R229; R324). -/
theorem rstep_makes_read (n : Nat) :
    MakesCalls [.read n] r (rstep (acceptRead n) s) (g.after s (.port (.consumer w))) := by
  obtain ⟨_, _, hr, _⟩ := id hs
  obtain ⟨hnr, hnz, hstarved, hunder⟩ := rstep_ready_shows (acceptRead n) s hready
  obtain ⟨havail, _⟩ := rAvail_of_alike hq hcur hord hready hseen hrd
  have hstarved' : (rstep (acceptRead n) s).starved = s.starved := hstarved.trans (by simp [accepted])
  have hunder' : (rstep (acceptRead n) s).underrunCount = s.underrunCount := hunder.trans (by simp [accepted])
  simp only [accepted, acceptRead_nReal, acceptRead_nZero, catchUp_eq, havail] at hnr hnz
  refine rstep_makesCalls_of_split w hq hcur hord hready hst hrd hseen hs (.read n) _ rfl [.read n] r.mode r.underrunCount
    (hnr.trans_le (Nat.min_le_right _ _)) ?_ (by rw [hstarved']; exact hrd.mode) (hunder'.trans hrd.underrunCount)
  have htake : r.content.take (min n r.available) = r.content.take n := by
    rw [← r.content_length, List.take_eq_take_iff]
    omega
  have hpad : n - min n r.available = n - r.available := by omega
  rw [hnr, hnz, htake, hpad]
  rw [RefState.calls_one, RefState.call, RefState.read_eq n r hr]
  rfl

/-- An accepted `PULL` is the call `pull()` (41_consumer R226 to R228; R325). -/
theorem rstep_makes_pull : MakesCalls [.pull] r (rstep acceptPull s) (g.after s (.port (.consumer w))) := by
  obtain ⟨_, _, hr, _⟩ := id hs
  obtain ⟨havail, _⟩ := rAvail_of_alike hq hcur hord hready hseen hrd
  have hmakes := rstep_makesCalls_of_split w hq hcur hord hready hst hrd hseen hs .pull _ rfl [.pull]
  rcases Nat.lt_or_ge r.available s.cfg.f with hf | hf
  · obtain ⟨hnr, hnz, hstarved, hunder⟩ := rstep_pull_starved s hready (havail ▸ hf)
    rw [hnr, hnz, ← hst.f, RefState.skip_zero r hr] at hmakes
    refine hmakes .starved (r.underrunCount + 1) (Nat.zero_le _) ?_ (iff_of_true rfl hstarved) ?_
    · rw [RefState.calls_one, RefState.call, RefState.pull_starved r (hst.f ▸ hf)]
      rfl
    · rw [hunder, hrd.underrunCount, BitVec.ofNat_add]
      rfl
  · obtain ⟨hnr, hnz, hstarved, hunder⟩ := rstep_pull_feeding s hready (havail ▸ hf)
    rw [hnr, hnz, ← hst.f, silences, List.replicate_zero, List.append_nil] at hmakes
    refine hmakes .feeding r.underrunCount (hst.f ▸ hf) ?_ (iff_of_false nofun (by simp [hstarved]))
      (hunder.trans hrd.underrunCount)
    rw [RefState.calls_one, RefState.call, RefState.pull_feeding_eq r hr (hst.f ▸ hf)]
    rfl

end Accept

/-- An accepted command makes the reference calls it stands for (R330). -/
theorem rstep_makesCalls (i : Instr) (cmd : Command) (hc : commandOf i = some cmd) (w : Nat) (hq : s.cfg.isQsf = true)
    (hcur : CursorsMatch s g) (hord : CountsOrdered s g) (hready : s.cReady = true)
    (hseen : callsOf i ≠ [] → g.ws2 = g.w) (hs : r.Sound) (hst : StoresAlike s g r) (hrd : ReadsAlike s g r) :
    MakesCalls (callsOf i) r (rstep cmd s) (g.after s (.port (.consumer w))) := by
  obtain ⟨_, _, hstarved, hunder⟩ := rstep_ready_shows cmd s hready
  have hnone := rstep_makes_no_call w hq hcur hord hready hst hrd i cmd hc
  cases i <;> simp only [commandOf, Option.some.injEq, reduceCtorEq] at hc <;> subst hc
  case pull => exact rstep_makes_pull w hq hcur hord hready hst hrd (hseen nofun) hs
  case read => exact rstep_makes_read w hq hcur hord hready hst hrd (hseen nofun) hs _
  all_goals exact hnone rfl (hstarved.trans (by simp [accepted])) (hunder.trans (by simp [accepted]))

end Alike

end Sys2Proof.Machine
end

