-- ==== Sys2Proof/Proofs/SettledSchedules.lean ====
section
/-! PROOF. Settled schedules (43_reference_model R329, R330): along one the hardware agrees with the reference after the calls
watched so far and the whole samples of the burst in progress. One invariant, started at any settled point and kept by every
transaction that meets S1 to S4, gives the statements for a `PULL`, a `READ`, a burst and a whole run. -/

namespace Sys2Proof.Machine

/-! ### What is watched, by the kind of the transaction -/

/-- At least `n` `rstep`s have occurred since the last sample write, if there was one. -/
def Watch.Past (n : Nat) (v : Watch) : Prop := v.sinceWrite.all (fun m => decide (n ≤ m)) = true

theorem Watch.Past.mono {m n : Nat} {v : Watch} (h : v.Past n) (hmn : m ≤ n) : v.Past m := by
  cases hs : v.sinceWrite with
  | none => simp [Watch.Past, hs]
  | some a =>
    have ha : n ≤ a := by simpa [Watch.Past, hs] using h
    simpa [Watch.Past, hs] using hmn.trans ha

theorem Watch.past_zero (v : Watch) : v.Past 0 := by cases hs : v.sinceWrite <;> simp [Watch.Past, hs]

/-- A `wstep` as it is watched: its byte, the sample it completes, and the end of a burst. -/
theorem Watch.after_producer (i : Instr) (payload : Option Byte) (eob : Bool) (hpe : producerParts i = some (payload, eob))
    (s : State) (v : Watch) :
    v.after s i = {
      burst := if eob then [] else v.burst ++ payload.toList
      writes := v.writes + (completed s payload).length
      sinceWrite := if completed s payload = [] then v.sinceWrite else some 0
      calls := if eob then v.calls ++ [.burst (v.burst ++ payload.toList)] else v.calls } := by
  cases i <;> simp only [producerParts, Option.some.injEq, Prod.mk.injEq, reduceCtorEq] at hpe <;>
    obtain ⟨rfl, rfl⟩ := hpe <;> cases hlo : s.loPending <;>
    simp [Watch.after, Watch.takeByte, Watch.endBurst, completed, hlo, samplesOf]

/-- A sample write starts the count of `rstep`s anew. -/
theorem Watch.past_wstep (n : Nat) (i : Instr) (payload : Option Byte) (eob : Bool)
    (hpe : producerParts i = some (payload, eob)) (s : State) (v : Watch) :
    (v.after s i).Past (n + 1) ↔ completed s payload = [] ∧ v.Past (n + 1) := by
  rw [after_producer i payload eob hpe]
  by_cases hne : completed s payload = [] <;> simp [Watch.Past, hne]

theorem Watch.after_consumer (i : Instr) (cmd : Command) (hc : commandOf i = some cmd) (s : State) (v : Watch) :
    v.after s i = v.rstep s i := by
  cases i <;> simp only [commandOf, reduceCtorEq] at hc <;> rfl

theorem writesSample_iff (i : Instr) (payload : Option Byte) (eob : Bool) (hpe : producerParts i = some (payload, eob))
    (s : State) : writesSample s i = true ↔ completed s payload ≠ [] := by
  cases i <;> simp only [producerParts, Option.some.injEq, Prod.mk.injEq, reduceCtorEq] at hpe <;>
    obtain ⟨rfl, rfl⟩ := hpe <;> cases hlo : s.loPending <;> simp [writesSample, completed, hlo, samplesOf]

theorem Watch.past_rstep (n : Nat) (s : State) (i : Instr) (v : Watch) : (v.rstep s i).Past (n + 1) ↔ v.Past n := by
  cases hs : v.sinceWrite <;> simp [Watch.Past, Watch.rstep, hs]

/-! ### The reference watched so far -/

/-- The reference after the calls watched so far, from `r`, with the whole samples of the burst in progress written (log 27). -/
def Watch.ref (r : RefState) (v : Watch) : RefState := (r.calls v.calls).2.write (samplesOf v.burst)

/-- What the calls watched so far return, from `r`. -/
def Watch.returned (r : RefState) (v : Watch) : List RefSample := (r.calls v.calls).1

/-- The burst in progress is whole samples and the pending byte. -/
def HoldsPending (s : State) (v : Watch) : Prop := ∃ whole, v.burst = whole ++ s.pendingBytes ∧ whole.length % 2 = 0

theorem samplesOf_pendingBytes (s : State) : samplesOf s.pendingBytes = [] := by
  cases h : s.loPending <;> simp [h, samplesOf]

/-- Further bytes of the burst add the samples they complete. -/
theorem HoldsPending.samplesOf_append {s : State} {v : Watch} (h : HoldsPending s v) (bytes : List Byte) :
    samplesOf (v.burst ++ bytes) = samplesOf v.burst ++ samplesOf (s.pendingBytes ++ bytes) := by
  obtain ⟨whole, hburst, heven⟩ := h
  rw [hburst, List.append_assoc, Machine.samplesOf_append _ _ heven, Machine.samplesOf_append _ _ heven,
    samplesOf_pendingBytes, List.append_nil]

theorem HoldsPending.wstep {s : State} {v : Watch} (h : HoldsPending s v) (i : Instr) (payload : Option Byte) (eob : Bool)
    (hpe : producerParts i = some (payload, eob)) : HoldsPending (wstep payload eob s) (v.after s i) := by
  obtain ⟨whole, hburst, heven⟩ := h
  have hlo := wstep_loPending payload eob s
  rw [Watch.after_producer i payload eob hpe]
  cases eob with
  | true => exact ⟨[], by simp [hlo], rfl⟩
  | false =>
    cases payload with
    | none =>
      obtain ⟨hlb, _⟩ := wstep_none_assembles_nothing false s
      exact ⟨whole, by simp [hburst, State.pendingBytes, hlo, hlb], heven⟩
    | some d =>
      cases hp : s.loPending with
      | false =>
        obtain ⟨hlb, _⟩ := wstep_keeps_low_byte d false s hp
        exact ⟨whole, by simp [hburst, State.pendingBytes, hlo, hlb, hp], heven⟩
      | true =>
        refine ⟨whole ++ [s.loByte, d], by simp [hburst, State.pendingBytes, hlo, hp], ?_⟩
        rw [List.length_append]
        simp only [List.length_cons, List.length_nil]
        omega

theorem Watch.ref_wstep (r : RefState) {s : State} {v : Watch} (h : HoldsPending s v) (i : Instr) (payload : Option Byte)
    (eob : Bool) (hpe : producerParts i = some (payload, eob)) :
    (v.after s i).ref r = ((v.ref r).write (completed s payload)).countBurst eob ∧
      (v.after s i).returned r = v.returned r := by
  have hsamples := h.samplesOf_append payload.toList
  rw [Watch.after_producer i payload eob hpe]
  cases eob with
  | true =>
    have hcalls := RefState.calls_append v.calls [.burst (v.burst ++ payload.toList)] r
    rw [RefState.calls_one, RefState.call, RefState.onBurst, hsamples, RefState.write_append] at hcalls
    simp only [Watch.ref, Watch.returned, if_true, hcalls, List.append_nil]
    exact ⟨rfl, trivial⟩
  | false =>
    simp only [Watch.ref, Watch.returned, Bool.false_eq_true, if_false, hsamples, RefState.write_append]
    exact ⟨rfl, trivial⟩

/-- A command accepted with no burst in progress makes its calls (S4). -/
theorem Watch.ref_rstep (r : RefState) (s : State) (v : Watch) (i : Instr) (hready : s.cReady = true)
    (h4 : callsOf i ≠ [] → v.burst = []) :
    (v.rstep s i).ref r = ((v.ref r).calls (callsOf i)).2 ∧
      (v.rstep s i).returned r = v.returned r ++ ((v.ref r).calls (callsOf i)).1 := by
  simp only [Watch.ref, Watch.returned, Watch.rstep, hready, if_true, RefState.calls_append]
  by_cases hcalls : callsOf i = []
  · rw [hcalls]
    exact ⟨rfl, rfl⟩
  · rw [h4 hcalls]
    exact ⟨rfl, rfl⟩

/-! ### The invariant -/

/-- What is watched beside the counts: the burst in progress, the writes since the last `rstep`, and how far the read domain
sees and has caught up; a command streams only when it has (S2, S3). -/
structure Watched (s : State) (v : Watch) (g : Counts) : Prop where
  pending : HoldsPending s v
  writes : v.writes = g.sinceR
  ws1 : v.Past 1 → g.ws1 = g.w
  ws2 : v.Past 2 → g.ws2 = g.w
  caught : v.Past 3 → g.w - g.r ≤ s.cfg.c
  streams : 0 < s.remaining → v.Past 3

/-- The hardware agrees with the reference that started from `r` when the trace was `tr`: it stores, counts and has unread what
the reference does, and what it has emitted and has still to emit is what the calls return. -/
structure Agrees (r : RefState) (tr : List OutEvent) (s : State) (v : Watch) (g : Counts) : Prop where
  form : s.Wf
  cursors : CursorsMatch s g
  ordered : CountsOrdered s g
  watched : Watched s v g
  sound : (v.ref r).Sound
  stores : StoresAlike s g (v.ref r)
  reads : ReadsAlike s g (v.ref r)
  bursts : s.burstCount = BitVec.ofNat 32 (v.ref r).burstCounter
  emits : ∃ evs, s.trace = tr ++ evs ∧ tagged evs ++ s.toCome = v.returned r

section Step
variable {r : RefState} {tr : List OutEvent} {s : State} {v : Watch} {g : Counts}

/-- The counts after a `wstep` with this payload and end of burst. -/
def Counts.afterWstep (s : State) (payload : Option Byte) (eob : Bool) (g : Counts) : Counts :=
  g.after s (.port (.producer (producerWord payload.isSome eob (payload.getD 0))))

theorem wstep_eq_wordStep (payload : Option Byte) (eob : Bool) (s : State) :
    wstep payload eob s = wordStep (producerWord payload.isSome eob (payload.getD 0)) s := by
  cases payload <;> simp [wordStep, wordPayload]

/-- The samples completed are counted as written (42_cdc R288). -/
theorem afterWstep_counts (s : State) (payload : Option Byte) (eob : Bool) (g : Counts) :
    (g.afterWstep s payload eob).w = g.w + (completed s payload).length ∧
      (g.afterWstep s payload eob).sinceR = g.sinceR + (completed s payload).length := by
  rw [completed, samplesOf_pending_length]
  simp only [Counts.afterWstep, Counts.after, completesSample, pValid_producerWord]
  split <;> exact ⟨rfl, rfl⟩

theorem Counts.seen_le (hord : CountsOrdered s g) : g.ws1 ≤ g.w ∧ g.ws2 ≤ g.w ∧ g.r ≤ g.w := by
  obtain ⟨_, _, hr, hws2, hw, _⟩ := hord
  omega

/-- S1 is ENV-RATE at this step (42_cdc R288). -/
theorem envRate_of_meetsS1 (hord : CountsOrdered s g) (hrate : v.writes = g.sinceR) (i : Instr) (payload : Option Byte)
    (eob : Bool) (hpe : producerParts i = some (payload, eob)) (h1 : meetsS1 s v i = true) :
    EnvRate s g (.port (.producer (producerWord payload.isSome eob (payload.getD 0)))) := by
  obtain ⟨_, hsince⟩ := afterWstep_counts s payload eob g
  change (g.afterWstep s payload eob).sinceR ≤ s.cfg.c - 1
  by_cases hne : completed s payload = []
  · rw [hsince, hne]
    exact hord.sinceR_le
  · have hle : v.writes + 1 ≤ s.cfg.c - 1 := by simpa [meetsS1, (writesSample_iff i payload eob hpe s).mpr hne] using h1
    have hone : (completed s payload).length ≤ 1 := by
      rw [completed, samplesOf_pending_length]
      split <;> omega
    omega

theorem Watched.wstep (h : Watched s v g) (i : Instr) (payload : Option Byte) (eob : Bool)
    (hpe : producerParts i = some (payload, eob)) (hidle : completed s payload ≠ [] → s.cReady = true) :
    Watched (wstep payload eob s) (v.after s i) (g.afterWstep s payload eob) := by
  obtain ⟨hw, hsince⟩ := afterWstep_counts s payload eob g
  have hpast := fun n => Watch.past_wstep n i payload eob hpe s v
  have hkeeps : completed s payload = [] → (g.afterWstep s payload eob).w = g.w := fun hne => by rw [hw, hne]; rfl
  obtain ⟨hrem, _⟩ := wstep_keeps_stream payload eob s
  refine ⟨h.pending.wstep i payload eob hpe, ?_, fun hp => ?_, fun hp => ?_, fun hp => ?_, fun hbusy => ?_⟩
  · rw [Watch.after_producer i payload eob hpe, hsince, ← h.writes]
  · obtain ⟨hne, hp⟩ := (hpast 0).mp hp
    exact (h.ws1 hp).trans (hkeeps hne).symm
  · obtain ⟨hne, hp⟩ := (hpast 1).mp hp
    exact (h.ws2 hp).trans (hkeeps hne).symm
  · obtain ⟨hne, hp⟩ := (hpast 2).mp hp
    rw [hkeeps hne, wstep_cfg]
    exact h.caught hp
  · rw [hrem] at hbusy
    refine (hpast 2).mpr ⟨by_contra fun hne => ?_, h.streams hbusy⟩
    exact hbusy.ne' ((cReady_iff_remaining s).mp (hidle hne))

theorem toCome_wstep (payload : Option Byte) (eob : Bool) (s : State) (hidle : completed s payload ≠ [] → s.cReady = true)
    (hW : s.W < 2 ^ s.cfg.pw) : (Machine.wstep payload eob s).toCome = s.toCome := by
  obtain ⟨hrem, _⟩ := wstep_keeps_stream payload eob s
  by_cases hne : completed s payload = []
  · obtain ⟨hk, _, hm⟩ := wstep_writes payload eob s hW
    change _ = storeAll s.cfg s.mem s.W (completed s payload) at hm
    obtain ⟨hR, _, _, _, _, _, _, hnr, hnz, _⟩ := wstep_keeps_readDomain payload eob s
    rw [hne] at hm
    rw [State.toCome, State.toCome, hk, hm, hR, hnr, hnz]
    rfl
  · have hready := hidle hne
    have hready' := (cReady_iff_remaining _).mpr (hrem.trans ((cReady_iff_remaining s).mp hready))
    rw [toCome_of_cReady s hready, toCome_of_cReady _ hready']

/-- A `wstep` that meets S1 and S2. -/
theorem Agrees.wstep (h : Agrees r tr s v g) (i : Instr) (payload : Option Byte) (eob : Bool)
    (hpe : producerParts i = some (payload, eob)) (h1 : meetsS1 s v i = true) (h2 : meetsS2 s i = true) :
    Agrees r tr (wstep payload eob s) (v.after s i) (g.afterWstep s payload eob) := by
  obtain ⟨_, hW, _⟩ := id h.form
  obtain ⟨_, _, hle⟩ := Counts.seen_le h.ordered
  obtain ⟨hw, _⟩ := afterWstep_counts s payload eob g
  have hidle : completed s payload ≠ [] → s.cReady = true := fun hne => by
    simpa [meetsS2, (writesSample_iff i payload eob hpe s).mpr hne] using h2
  obtain ⟨hst, hrd⟩ := wstep_keeps_alike payload eob h.form h.cursors hle h.stores h.reads
    (fun hne => Nat.eq_zero_of_add_eq_zero_right ((cReady_iff_remaining s).mp (hidle hne))) hw rfl rfl
  have hsound := h.sound.write (completed s payload)
  obtain ⟨href, hret⟩ := Watch.ref_wstep r h.watched.pending i payload eob hpe
  have hcursors := wordStep_cursorsMatch (producerWord payload.isSome eob (payload.getD 0)) h.cursors
  have hordered := wordStep_countsOrdered _ h.ordered (envRate_of_meetsS1 h.ordered h.watched.writes i payload eob hpe h1)
  rw [← wstep_eq_wordStep] at hcursors hordered
  obtain ⟨evs, htr, hevs⟩ := h.emits
  obtain ⟨_, htr'⟩ := wstep_keeps_stream payload eob s
  refine ⟨wstep_wf payload eob s h.form, hcursors, hordered, h.watched.wstep i payload eob hpe hidle, ?_, href ▸ hst,
    href ▸ hrd, ?_, evs, htr'.trans htr, by rw [toCome_wstep payload eob s hidle hW, hret, hevs]⟩
  · rw [href]
    cases eob <;> exact hsound
  · obtain ⟨hbursts, _⟩ := RefState.write_indications (completed s payload) (v.ref r)
    rw [href, wstep_burstCount, h.bursts, RefState.countBurst_burstCounter, hbursts]
    cases eob with
    | true => exact (BitVec.ofNat_add _ _).symm
    | false => rfl

/-- The counts after a `rstep`, which do not see its word. -/
def Counts.afterRstep (s : State) (g : Counts) : Counts := g.after s (.port (.consumer 0))

theorem Watched.rstep (h : Watched s v g) (hord : CountsOrdered s g) (i : Instr) (cmd : Command)
    (hc : commandOf i = some cmd) (h3 : meetsS3 s v i = true) :
    Watched (rstep cmd s) (v.rstep s i) (g.afterRstep s) := by
  obtain ⟨⟨_, _, hlo, hlb, _⟩, _⟩ := rstep_keeps_writeDomain i cmd hc s
  have hpast := fun n => Watch.past_rstep n s i v
  have hr1 : g.ws2 ≤ (g.afterRstep s).r + s.cfg.c := by
    obtain ⟨_, _, hnear⟩ := hord.r1_bounds
    rw [Counts.afterRstep, after_consumer_r]
    omega
  refine ⟨?_, rfl, fun _ => rfl, fun hp => h.ws1 ((hpast 1).mp hp), fun hp => ?_, fun hbusy => (hpast 2).mpr ?_⟩
  · simpa [HoldsPending, State.pendingBytes, Watch.rstep, hlo, hlb] using h.pending
  · rw [rstep_cfg i cmd hc s]
    have hseen := h.ws2 ((hpast 2).mp hp)
    change g.w - _ ≤ _
    omega
  · cases hready : s.cReady with
    | false =>
      have hrem : 0 < s.remaining := Nat.pos_of_ne_zero fun h0 => by simp [(cReady_iff_remaining s).mpr h0] at hready
      exact (h.streams hrem).mono (by omega)
    | true =>
      rw [rstep_ready_remaining i cmd hc s hready] at hbusy
      have hcalls : callsOf i ≠ [] := by cases i <;> simp [commandLength, callsOf] at hbusy ⊢
      simpa [Watch.Past, meetsS3, hready, hcalls] using h3

/-- No command ends a burst. -/
theorem RefState.command_burstCounter (i : Instr) (h : r.Sound) : (r.calls (callsOf i)).2.burstCounter = r.burstCounter := by
  obtain ⟨_, _, hr, _⟩ := h
  cases i
  case read n =>
    rw [callsOf, calls_one, call, read_eq n r hr]
    rfl
  case pull =>
    rw [callsOf, calls_one, call]
    rcases Nat.lt_or_ge r.available r.f with hf | hf
    · rw [pull_starved r hf]
    · rw [pull_feeding_eq r hr hf]
      rfl
  all_goals rfl

/-- A `rstep` that meets S3 and S4. -/
theorem Agrees.rstep (h : Agrees r tr s v g) (i : Instr) (cmd : Command) (hc : commandOf i = some cmd)
    (hi : i.wf s.cfg = true) (h3 : meetsS3 s v i = true) (h4 : meetsS4 s v i = true) :
    Agrees r tr (rstep cmd s) (v.rstep s i) (g.afterRstep s) := by
  obtain ⟨hq, _⟩ := id h.form
  obtain ⟨⟨_, _, _, _, hbursts, _⟩, _⟩ := rstep_keeps_writeDomain i cmd hc s
  obtain ⟨evs, htr, hevs⟩ := h.emits
  have hform := rstep_wf i cmd hc s h.form hi
  have hcursors := rstep_cursorsMatch i cmd hc 0 h.form h.cursors h.ordered
  have hordered := rstep_countsOrdered i cmd hc 0 h.form h.cursors h.ordered
  have hwatched := h.watched.rstep h.ordered i cmd hc h3
  cases hready : s.cReady with
  | true =>
    have hseen : callsOf i ≠ [] → g.ws2 = g.w := fun hcalls =>
      h.watched.ws2 (by simpa [Watch.Past, meetsS3, hready, hcalls] using h3)
    have hnoburst : callsOf i ≠ [] → v.burst = [] := fun hcalls => by
      have hcommand : isCommand i = true := by cases i <;> simp [callsOf, isCommand] at hcalls ⊢
      simpa [meetsS4, hready, hcommand] using h4
    obtain ⟨hst, hrd, hcome⟩ := rstep_makesCalls i cmd hc 0 hq h.cursors h.ordered hready hseen h.sound h.stores h.reads
    obtain ⟨href, hret⟩ := Watch.ref_rstep r s v i hready hnoburst
    obtain ⟨_, _, _, _, htr'⟩ := rstep_ready_emitsNothing i cmd hc s hready
    rw [toCome_of_cReady s hready, List.append_nil] at hevs
    refine ⟨hform, hcursors, hordered, hwatched, href ▸ h.sound.calls (callsOf i), href ▸ hst, href ▸ hrd, ?_, evs,
      htr'.trans htr, by rw [hret, hcome, hevs]⟩
    rw [href, hbursts, h.bursts, RefState.command_burstCounter i h.sound]
  | false =>
    have hbusy : 0 < s.remaining := Nat.pos_of_ne_zero fun h0 => by simp [(cReady_iff_remaining s).mpr h0] at hready
    have hpast := h.watched.streams hbusy
    have hcaught := h.watched.caught hpast
    have hseen := h.watched.ws2 (hpast.mono (by omega))
    have hdrop : s.toDrop = 0 := by
      rw [State.toDrop, unread_eq_counts hq h.cursors h.ordered, hseen]
      omega
    have hsame : (v.rstep s i).calls = v.calls := by simp [Watch.rstep, hready]
    have href : (v.rstep s i).ref r = v.ref r := by rw [Watch.ref, hsame]; rfl
    have hret : (v.rstep s i).returned r = v.returned r := by rw [Watch.returned, hsame]; rfl
    obtain ⟨e, htr', hcome⟩ := rstep_emits_toCome i cmd hc s hq hbusy hdrop
    rw [hcome, ← List.append_assoc] at hevs
    refine ⟨hform, hcursors, hordered, hwatched, href ▸ h.sound, href ▸ rstep_storesAlike i cmd hc 0 h.stores,
      href ▸ rstep_busy_readsAlike i cmd hc 0 hq h.cursors h.ordered hbusy hseen hcaught h.reads, ?_, evs ++ [e],
      by rw [htr', htr, List.append_assoc], by rw [hret, ← hevs]; simp [tagged]⟩
    rw [href, hbursts, h.bursts]

/-! ### One transaction, and a whole schedule -/

/-- The overflow indication tells whether the read domain has dropped a sample, for as long as no `CLRS` is accepted. -/
def OvfTells (s : State) (g : Counts) : Prop := s.ovf = decide (0 < g.dropped)

/-- A transaction that meets S1 to S4 keeps the agreement. -/
theorem Agrees.exec (h : Agrees r tr s v g) (i : Instr) (hi : i.wf s.cfg = true) (h1 : meetsS1 s v i = true)
    (h2 : meetsS2 s i = true) (h3 : meetsS3 s v i = true) (h4 : meetsS4 s v i = true) :
    ∃ t g', exec i s = .next t ∧ Agrees r tr t (v.after s i) g' ∧ (i ≠ .clrs → OvfTells s g → OvfTells t g') := by
  obtain ⟨hq, _⟩ := id h.form
  cases hp : i.port with
  | producer =>
    obtain ⟨payload, eob, hpe, _⟩ := exec_producer i hp s
    obtain ⟨_, _, _, _, _, _, _, _, _, _, hovf, _⟩ := wstep_keeps_readDomain payload eob s
    exact ⟨_, _, exec_of_producerParts i payload eob hpe s hq, h.wstep i payload eob hpe h1 h2,
      fun _ htells => hovf.trans htells⟩
  | consumer =>
    obtain ⟨cmd, hc, _⟩ := exec_consumer i hp s
    refine ⟨_, g.afterRstep s, exec_of_commandOf i cmd hc s hq, ?_, fun hne htells => ?_⟩
    · rw [Watch.after_consumer i cmd hc]
      exact h.rstep i cmd hc hi h3 h4
    · rw [OvfTells, rstep_ovf_of_ne_clrs i cmd hc s hne, htells, Counts.afterRstep,
        after_consumer_dropped 0 hq h.cursors h.ordered, ← Bool.decide_or]
      exact decide_eq_decide.mpr Nat.add_pos_iff_pos_or_pos.symm

/-- Along a schedule that meets S1 to S4 the hardware agrees with the reference. -/
theorem Agrees.watch (is : List Instr) (h : Agrees r tr s v g) (hwf : ∀ i ∈ is, i.wf s.cfg = true)
    (hsettled : settledFrom is s v = true) :
    ∃ t v' g', watch is s v = (t, v') ∧ play (schedule s.cfg is) s = .next (withEdges [] t) ∧ t.cfg = s.cfg ∧
      t.edges = s.edges ∧ Agrees r tr t v' g' ∧ (Instr.clrs ∉ is → OvfTells s g → OvfTells t g') := by
  induction is generalizing s v g with
  | nil => exact ⟨s, v, g, rfl, play_nil s, rfl, rfl, h, fun _ => id⟩
  | cons i is ih =>
    obtain ⟨hwfi, hwfis⟩ := List.forall_mem_cons.mp hwf
    obtain ⟨hq, _⟩ := id h.form
    obtain ⟨u, hx⟩ := exec_total i s hq
    rw [settledFrom_next i is s u v hx] at hsettled
    simp only [Bool.and_eq_true] at hsettled
    obtain ⟨⟨⟨⟨h1, h2⟩, h3⟩, h4⟩, hrest⟩ := hsettled
    obtain ⟨u', g₁, hx', hu, hovf⟩ := h.exec i hwfi h1 h2 h3 h4
    obtain rfl : u = u' := Host.Outcome.next.inj (hx.symm.trans hx')
    have hk := exec_cfg i s u hx
    obtain ⟨t, v', g', hwatch, hplay, hkt, hedges, ht, hovf'⟩ := ih hu (hk ▸ hwfis) hrest
    refine ⟨t, v', g', (watch_next i is s u v hx).trans hwatch, (play_schedule_cons i is s u hwfi hx).trans hplay,
      hkt.trans hk, hedges.trans (exec_edges i s u hx), ht, fun hne htells => ?_⟩
    rw [List.mem_cons, not_or] at hne
    exact hovf' hne.2 (hovf (Ne.symm hne.1) htells)

end Step

/-! ### Where the agreement starts, and what it says at a settled point -/

section Settled
variable {r : RefState} {s : State}

/-- Counts for a settled state: everything is seen, and the copies of the read cursor are older than it. -/
def settledCounts (s : State) (r : RefState) : Counts where
  w := s.R + 2 * 2 ^ s.cfg.pw + subP s.cfg s.W s.R
  r := s.R + 2 * 2 ^ s.cfg.pw
  ws1 := s.R + 2 * 2 ^ s.cfg.pw + subP s.cfg s.W s.R
  ws2 := s.R + 2 * 2 ^ s.cfg.pw + subP s.cfg s.W s.R
  rHold := s.Rhold + 2 ^ s.cfg.pw
  rW := s.Rw
  sinceR := 0
  written := []
  emitted := []
  dropped := r.overflowCount

theorem addP_subP_cancel (k : Config) (a b : Nat) (ha : a < 2 ^ k.pw) (hb : b < 2 ^ k.pw) : addP k b (subP k a b) = a := by
  rw [addP, subP, Nat.add_mod_mod, Nat.mod_eq_of_lt hb, show b + (a + (2 ^ k.pw - b)) = a + 2 ^ k.pw by omega,
    Nat.add_mod_right, Nat.mod_eq_of_lt ha]

theorem settledCounts_distance (s : State) (r : RefState) :
    (settledCounts s r).w - (settledCounts s r).r = subP s.cfg s.W s.R := by simp [settledCounts]

theorem settledCounts_W (hform : s.Wf) : s.W = (settledCounts s r).w % 2 ^ s.cfg.pw := by
  obtain ⟨_, hW, _, _, hR, _⟩ := hform
  have hsum := addP_subP_cancel s.cfg s.W s.R hW hR
  rw [settledCounts, Nat.add_right_comm, Nat.add_mul_mod_self_right]
  exact hsum.symm

theorem settledCounts_cursorsMatch (hform : s.Wf) (hset : s.Settled) : CursorsMatch s (settledCounts s r) := by
  have hw := settledCounts_W (r := r) hform
  obtain ⟨_, _, hWg, hRw, hR, _, _, hhold, _⟩ := hform
  obtain ⟨_, _, hws1, hws2, _⟩ := hset
  have hgray : s.Wg = bin2gray ((settledCounts s r).w % 2 ^ s.cfg.pw) := hWg.trans (congrArg bin2gray hw)
  refine ⟨hw, ?_, hws1.trans hgray, hws2.trans hgray, ?_, (Nat.mod_eq_of_lt hRw).symm⟩
  · rw [settledCounts, Nat.add_mul_mod_self_right, Nat.mod_eq_of_lt hR]
  · rw [settledCounts, Nat.add_mod_right, Nat.mod_eq_of_lt hhold]

theorem settledCounts_ordered (hform : s.Wf) (hset : s.Settled) : CountsOrdered s (settledCounts s r) := by
  obtain ⟨hq, _, _, hRw, _, _, _, hhold, _⟩ := hform
  obtain ⟨hready, _, _, _, hle⟩ := hset
  obtain ⟨h0, _⟩ := (cReady_iff s).mp hready
  have hcap := c_pos s.cfg hq
  constructor <;> simp only [settledCounts] <;> omega

theorem sound_of_abstracts (hform : s.Wf) (hset : s.Settled) (habs : Abstracts s r) : r.Sound := by
  obtain ⟨hq, hW, _, _, hR, _⟩ := hform
  obtain ⟨_, _, _, _, hle⟩ := hset
  obtain ⟨hc, _, hlen, _, hwc, hrc, havail, _⟩ := habs
  have hsum := addP_subP_cancel s.cfg s.W s.R hW hR
  refine ⟨hlen.trans hc.symm, ?_, ?_, by rw [havail, hc]; exact hle, ?_⟩
  · rw [hwc, hc]
    exact slot_lt_c _ _ hq
  · rw [hrc, hc]
    exact slot_lt_c _ _ hq
  · rw [hwc, hrc, havail, hc, slot_eq_mod _ hq, slot_eq_mod _ hq, Nat.mod_add_mod, ← mod_pw_mod_c s.cfg hq (s.R + _)]
    exact congrArg (· % s.cfg.c) hsum.symm

/-- A settled state that maps to `r` agrees with it, nothing being watched yet. -/
theorem agrees_of_settled (hform : s.Wf) (hset : s.Settled) (habs : Abstracts s r) :
    Agrees r s.trace s Watch.start (settledCounts s r) := by
  have hdist := settledCounts_distance s r
  have hw := settledCounts_W (r := r) hform
  obtain ⟨hq, _⟩ := id hform
  obtain ⟨hready, hlo, _, _, hle⟩ := id hset
  obtain ⟨hc, hf, hlen, hstorage, hwc, _, havail, hmode, hbursts, hdrop, hunder⟩ := id habs
  obtain ⟨h0, _⟩ := (cReady_iff s).mp hready
  have hidle : s.remaining = 0 := (cReady_iff_remaining s).mp hready
  have hwatched : Watched s Watch.start (settledCounts s r) :=
    ⟨⟨[], by simp [Watch.start, hlo], rfl⟩, rfl, fun _ => rfl, fun _ => rfl, fun _ => hdist.trans_le hle,
      fun hbusy => absurd hidle hbusy.ne'⟩
  have hstores : StoresAlike s (settledCounts s r) r :=
    ⟨hc, hf, hlen, hstorage, by rw [hwc, ← slot_mod s.cfg hq, ← hw]⟩
  have hreads : ReadsAlike s (settledCounts s r) r := by
    refine ⟨?_, ?_, hdrop, hmode, hunder⟩
    · rw [havail, h0, hdist, Nat.min_eq_left hle, Nat.add_zero]
    · rw [hdist, Nat.sub_eq_zero_of_le hle]
      rfl
  exact ⟨hform, settledCounts_cursorsMatch hform hset, settledCounts_ordered hform hset, hwatched,
    sound_of_abstracts hform hset habs, hstores, hreads, hbursts, [], (List.append_nil _).symm, toCome_of_cReady s hready⟩

/-- Three `rstep`s after the last write the read domain has nothing left to drop. -/
theorem Agrees.overflowCount_eq {tr : List OutEvent} {v : Watch} {g : Counts} (h : Agrees r tr s v g) (hpast : v.Past 3) :
    (v.ref r).overflowCount = g.dropped := by
  have hcaught := h.watched.caught hpast
  have hlost := h.reads.overflow
  omega

/-- At a settled point the state is settled and maps to the reference (R329, R328). -/
theorem Agrees.settledPoint {tr : List OutEvent} {v : Watch} {g : Counts} (h : Agrees r tr s v g) (hp : SettledPoint s v) :
    s.Settled ∧ Abstracts s (v.ref r) := by
  obtain ⟨hready, hlo, hpast⟩ := hp
  obtain ⟨hq, _, hWg, _⟩ := id h.form
  obtain ⟨h0, _⟩ := (cReady_iff s).mp hready
  have hpast : v.Past 3 := hpast
  have hws1 := h.watched.ws1 (hpast.mono (by omega))
  have hws2 := h.watched.ws2 (hpast.mono (by omega))
  have hcaught := h.watched.caught hpast
  have hcap := c_pos s.cfg hq
  obtain ⟨_, _, hle⟩ := Counts.seen_le h.ordered
  have hdist : subP s.cfg s.W s.R = g.w - g.r := by
    rw [h.cursors.W, h.cursors.R]
    exact subP_mod_mod_of_lt s.cfg hq _ _ hle (by omega)
  have havail : (v.ref r).available = g.w - g.r := by
    have hunread := h.reads.available
    omega
  have hover := h.overflowCount_eq hpast
  refine ⟨⟨hready, hlo, ?_, ?_, hdist.trans_le hcaught⟩, h.stores.c, h.stores.f, h.stores.length, h.stores.storage, ?_, ?_,
    havail.trans hdist.symm, h.reads.mode, h.bursts, ?_, h.reads.underrunCount⟩
  · rw [h.cursors.ws1, hws1, hWg, h.cursors.W]
  · rw [h.cursors.ws2, hws2, hWg, h.cursors.W]
  · rw [h.stores.writeCursor, h.cursors.W, slot_mod s.cfg hq]
  · rw [readCursor_of_alike h.sound h.stores h.reads, h.cursors.R, slot_mod s.cfg hq, havail, Nat.sub_sub_self hle]
  · rw [h.reads.dropCount, hover]

end Settled

/-! ### Settled schedules from reset -/

/-- A schedule keeps the handshake's order (42_cdc R284, R285). -/
theorem play_inOrder (is : List Instr) (s t : State) (hq : s.cfg.isQsf = true) (hwf : ∀ i ∈ is, i.wf s.cfg = true)
    (h : s.HandshakeInOrder) (hplay : play (schedule s.cfg is) s = .next t) : t.HandshakeInOrder := by
  have hstep : ∀ (i : Instr) (u w : State), exec i u = .next w → u.HandshakeInOrder → w.HandshakeInOrder := by
    intro i u w hx hu
    obtain ⟨_, ⟨_, payload, eob, _, rfl⟩ | ⟨_, cmd, hc, rfl⟩⟩ := exec_cases i u w hx
    · exact wstep_inOrder hu payload eob
    · exact rstep_inOrder hu i cmd hc
  obtain ⟨t', hplay', ht⟩ := play_schedule_keeps (fun _ u => u.HandshakeInOrder) is (fun _ _ hu => hu)
    (fun i _ _ u w hx hu => hstep i u w hx hu) 0 s hq hwf h
  obtain rfl : t = t' := Host.Outcome.next.inj (hplay.symm.trans hplay')
  exact ht

section FromReset
variable {k : Config} {is : List Instr} {s : State} {v : Watch}

/-- Along a settled schedule the hardware agrees with the reference created with it. -/
theorem agrees_of_settledSchedule (h : SettledSchedule k is) (hwatch : watch is (State.resetOf k) Watch.start = (s, v)) :
    ∃ g, play (schedule k is) (State.resetOf k) = .next s ∧ s.cfg = k ∧ Agrees (RefState.create k.c k.f) [] s v g ∧
      (Instr.clrs ∉ is → OvfTells s g) := by
  obtain ⟨hq, hwf, hsettled⟩ := h
  have hstart := agrees_of_settled (resetOf_wf k hq) (resetOf_settled k) (resetOf_abstracts k)
  obtain ⟨t, v', g, hwatch', hplay, hk, hedges, hagrees, hovf⟩ := hstart.watch is hwf hsettled
  obtain ⟨rfl, rfl⟩ := Prod.mk.inj (hwatch.symm.trans hwatch')
  have hself : withEdges [] s = s := by
    have hs := withEdges_self s
    rwa [hedges] at hs
  rw [hself] at hplay
  exact ⟨g, hplay, hk, hagrees, fun hne => hovf hne rfl⟩

/-- What has been emitted and what is still to come is what the calls return. -/
theorem Agrees.returned_eq {r : RefState} {g : Counts} (h : Agrees r [] s v g) :
    tagged s.trace ++ s.toCome = v.returned r := by
  obtain ⟨evs, htr, hevs⟩ := h.emits
  rwa [htr]

/-- Settles O57: the invariant along the schedule, read at its end, and then ten `LOCK` pairs. -/
theorem settledRunsAgreeWithTheReference : Obligations.SettledRunsAgreeWithTheReference := by
  intro k is s v out r hset hwatch hcalls
  obtain ⟨g, hplay, rfl, h, _⟩ := agrees_of_settledSchedule hset hwatch
  obtain ⟨hq, hwf, _⟩ := hset
  have hout : v.returned (RefState.create s.cfg.c s.cfg.f) = out := by rw [Watch.returned, hcalls]
  have href : v.ref (RefState.create s.cfg.c s.cfg.f) = r.write (samplesOf v.burst) := by rw [Watch.ref, hcalls]
  have hret := h.returned_eq
  rw [hout] at hret
  refine ⟨hplay, ?_, ?_, fun hp => ?_⟩
  · rw [← hret]
    exact (List.take_left' (List.length_map _)).symm
  · rw [← hret, List.length_append, toCome_length, tagged, List.length_map]
    rfl
  · obtain ⟨hsettled, habs⟩ := h.settledPoint hp
    rw [href] at habs
    have hord := play_inOrder is (State.resetOf s.cfg) s hq hwf (resetOf_inOrder s.cfg) hplay
    obtain ⟨t, hsettle, _, _, _, _, _, htr, hfill, havail, hfull⟩ := eightLockPairsSettle s 10 h.form hord hsettled (by omega)
    obtain ⟨_, _, _, _, _, _, hunread, _⟩ := id habs
    rw [← hunread] at hfill havail hfull
    exact ⟨hsettled, habs, t, hsettle, htr, hfill, havail, hfull⟩

end FromReset

/-! ### Reading back what was written -/

/-- With nothing unread and no command in flight the read domain has nothing left to drop. -/
theorem Agrees.dropCount_eq {r : RefState} {tr : List OutEvent} {s : State} {v : Watch} {g : Counts} (h : Agrees r tr s v g)
    (hready : s.cReady = true) (h0 : (v.ref r).available = 0) :
    (v.ref r).overflowCount = g.dropped ∧ s.dropCount = BitVec.ofNat 32 (v.ref r).overflowCount := by
  obtain ⟨hq, _⟩ := id h.form
  obtain ⟨hreal, _⟩ := (cReady_iff s).mp hready
  have hcap := c_pos s.cfg hq
  have hunread := h.reads.available
  have hlost := h.reads.overflow
  have heq : (v.ref r).overflowCount = g.dropped := by omega
  exact ⟨heq, by rw [heq, h.reads.dropCount]⟩

/-- Settles O58: the reference reads back the last samples and is then empty, so all its drops are the hardware's. -/
theorem settledRunsReadInOrder : Obligations.SettledRunsReadInOrder := by
  intro k is s v before reads bursts vs out r hset hwatch hbefore hempty hvs hreads hcalls hburst hready
  obtain ⟨hq, _⟩ := id hset
  obtain ⟨g, _, _, h, _⟩ := agrees_of_settledSchedule hset hwatch
  have hcreate := RefState.create_sound k.c k.f (c_pos k hq)
  have hsound : r.Sound := by simpa only [hbefore] using hcreate.calls before
  have hsize := hcreate.calls_size before
  rw [hbefore] at hsize
  obtain ⟨(hc : r.c = k.c), (hf : r.f = k.f)⟩ := hsize
  obtain ⟨n, hwritten⟩ := RefState.calls_bursts bursts r
  obtain ⟨r', hread, hleft, hover⟩ := hsound.reads_back hempty n vs reads (by rwa [hc, hf])
  rw [← hvs] at hwritten
  rw [hc] at hread hover
  have hall : (RefState.create k.c k.f).calls v.calls = (out ++ (vs.drop (vs.length - k.c)).map realElement, r') := by
    rw [hcalls, RefState.calls_append, RefState.calls_append, hbefore, hwritten, hread, List.append_nil]
  have href : v.ref (RefState.create k.c k.f) = r' := by rw [Watch.ref, hall, hburst]; rfl
  have hret := h.returned_eq
  rw [toCome_of_cReady s hready, List.append_nil, Watch.returned, hall] at hret
  obtain ⟨_, hdrop⟩ := h.dropCount_eq hready (href ▸ hleft)
  exact ⟨hret, by rw [hdrop, href, hover]⟩

end Sys2Proof.Machine
end

