-- ==== Sys2Proof/Proofs/SettledPieces.lean ====
section
/-! PROOF. Pieces of settled schedules: a command with the `rstep`s of its duration, a burst under ENV-RATE, and quiet words.
Each meets S1 to S4 and is watched as the calls it stands for, so the agreement along a schedule gives the correspondence of
43_reference_model R330 call by call. -/

namespace Sys2Proof.Machine

/-! ### Schedules that meet S1 to S4, in pieces -/

/-- The schedule meets S1 to S4 from `s` and `v` on, and ends in `t` and `v'`. -/
structure SettledPath (is : List Instr) (s : State) (v : Watch) (t : State) (v' : Watch) : Prop where
  settled : settledFrom is s v = true
  ends : watch is s v = (t, v')

/-- A transaction meets S1 to S4. -/
def MeetsAll (s : State) (v : Watch) (i : Instr) : Prop :=
  meetsS1 s v i = true ∧ meetsS2 s i = true ∧ meetsS3 s v i = true ∧ meetsS4 s v i = true

theorem SettledPath.nil (s : State) (v : Watch) : SettledPath [] s v s v := ⟨rfl, rfl⟩

theorem SettledPath.cons {i : Instr} {is : List Instr} {s u t : State} {v v' : Watch} (hmeets : MeetsAll s v i)
    (hx : exec i s = .next u) (h : SettledPath is u (v.after s i) t v') : SettledPath (i :: is) s v t v' := by
  obtain ⟨h1, h2, h3, h4⟩ := hmeets
  refine ⟨?_, (watch_next i is s u v hx).trans h.ends⟩
  rw [settledFrom_next i is s u v hx, h1, h2, h3, h4, h.settled]
  rfl

theorem SettledPath.append {is js : List Instr} {s t u : State} {v v' v'' : Watch} (h : SettledPath is s v t v')
    (h' : SettledPath js t v' u v'') : SettledPath (is ++ js) s v u v'' := by
  induction is generalizing s v with
  | nil =>
    obtain ⟨rfl, rfl⟩ := Prod.mk.inj h.ends
    exact h'
  | cons i is ih =>
    obtain ⟨hsettled, hends⟩ := h
    cases hx : exec i s with
    | next w =>
      rw [settledFrom_next i is s w v hx] at hsettled
      rw [watch_next i is s w v hx] at hends
      simp only [Bool.and_eq_true] at hsettled
      obtain ⟨⟨⟨⟨h1, h2⟩, h3⟩, h4⟩, hrest⟩ := hsettled
      exact .cons ⟨h1, h2, h3, h4⟩ hx (ih ⟨hrest, hends⟩)
    | fault e => cases e
    | refused e => simp [settledFrom, hx] at hsettled

/-- Between bursts nothing is pending, in the hardware and as it is watched. -/
structure BetweenBursts (s : State) (v : Watch) : Prop where
  loPending : s.loPending = false
  burst : v.burst = []

/-! ### Quiet words -/

/-- Quiet words from `s` and `v`, of which the `rstep`s stream or change nothing. -/
structure QuietPath (is : List Instr) (s : State) (v : Watch) (t : State) (v' : Watch) : Prop where
  path : SettledPath is s v t v'
  cfg : t.cfg = s.cfg
  between : BetweenBursts t v'
  remaining : t.remaining = s.remaining - is.countP onConsumer
  calls : v'.calls = v.calls
  past : ∀ n, v.Past n → v'.Past (n + is.countP onConsumer)

/-- A `PNOP`. -/
theorem pnop_quietPath {s : State} {v : Watch} (hq : s.cfg.isQsf = true) (h : BetweenBursts s v) :
    ∃ t, exec .pnop s = .next t ∧ QuietPath [.pnop] s v t v := by
  obtain ⟨hlo, hburst⟩ := h
  have hx := exec_of_producerParts .pnop none false rfl s hq
  obtain ⟨hrem, _⟩ := wstep_keeps_stream none false s
  refine ⟨_, hx, .cons ?_ hx (.nil _ _), wstep_cfg none false s, ⟨?_, hburst⟩, hrem, rfl, fun _ => id⟩
  · exact ⟨rfl, rfl, by simp [meetsS3, callsOf], by simp [meetsS4, isCommand]⟩
  · rw [wstep_loPending, hlo]
    rfl

/-- A consumer word that finds a command streaming, or that is a `CNOP`. -/
theorem consumer_quietPath (i : Instr) (cmd : Command) (hc : commandOf i = some cmd) {s : State} {v : Watch}
    (hq : s.cfg.isQsf = true) (h : BetweenBursts s v) (hidle : 0 < s.remaining ∨ i = .cnop) :
    ∃ t, exec i s = .next t ∧ QuietPath [i] s v t (v.after s i) := by
  obtain ⟨hlo, hburst⟩ := h
  have hx := exec_of_commandOf i cmd hc s hq
  have hone : [i].countP onConsumer = 1 := by
    cases i <;> simp only [commandOf, reduceCtorEq] at hc <;> rfl
  have hnone : s.cReady = false ∨ callsOf i = [] ∧ isCommand i = false := by
    obtain hbusy | rfl := hidle
    · exact .inl (not_cReady_of_remaining s hbusy)
    · exact .inr ⟨rfl, rfl⟩
  have hwrites : writesSample s i = false := by cases i <;> simp only [commandOf, reduceCtorEq] at hc <;> rfl
  obtain ⟨⟨_, _, hlo', _⟩, _⟩ := rstep_keeps_writeDomain i cmd hc s
  refine ⟨_, hx, .cons ⟨?_, ?_, ?_, ?_⟩ hx (.nil _ _), rstep_cfg i cmd hc s, ⟨hlo'.trans hlo, ?_⟩, ?_, ?_, ?_⟩
  · simp [meetsS1, hwrites]
  · simp [meetsS2, hwrites]
  · obtain hbusy | ⟨hcalls, _⟩ := hnone <;> simp [meetsS3, *]
  · simp [meetsS4, hburst]
  · rw [Watch.after_consumer i cmd hc]
    exact hburst
  · rw [hone]
    rcases Nat.eq_zero_or_pos s.remaining with h0 | hbusy
    · obtain rfl : i = .cnop := hidle.resolve_left h0.not_gt
      rw [h0, rstep_ready_remaining .cnop cmd hc s ((cReady_iff_remaining s).mpr h0)]
      rfl
    · obtain ⟨hemits, _⟩ := rstep_busy_emits_one cmd s hbusy
      omega
  · rw [Watch.after_consumer i cmd hc]
    obtain hbusy | ⟨hcalls, _⟩ := hnone <;> simp [Watch.rstep, *]
  · rw [Watch.after_consumer i cmd hc, hone]
    exact fun n => (Watch.past_rstep n s i v).mpr

theorem QuietPath.append {is js : List Instr} {s t u : State} {v v' v'' : Watch} (h : QuietPath is s v t v')
    (h' : QuietPath js t v' u v'') : QuietPath (is ++ js) s v u v'' where
  path := h.path.append h'.path
  cfg := h'.cfg.trans h.cfg
  between := h'.between
  remaining := by rw [h'.remaining, h.remaining, List.countP_append, Nat.sub_sub]
  calls := h'.calls.trans h.calls
  past n hn := by rw [List.countP_append, ← Nat.add_assoc]; exact h'.past _ (h.past n hn)

/-- Quiet words, no more of them `rstep`s than samples left to stream, or none a command. -/
theorem quiet_path (is : List Instr) {s : State} {v : Watch} (hq : s.cfg.isQsf = true) (h : BetweenBursts s v)
    (hquiet : quiet is = true)
    (hidle : is.countP onConsumer ≤ s.remaining ∨ ∀ i ∈ is, i.port = .consumer → i = .cnop) :
    ∃ t v', QuietPath is s v t v' := by
  induction is generalizing s v with
  | nil => exact ⟨s, v, .nil s v, rfl, h, rfl, rfl, fun _ => id⟩
  | cons i is ih =>
    rw [quiet_cons, Bool.and_eq_true] at hquiet
    obtain ⟨hi, his⟩ := hquiet
    have hcount := rsteps_cons i is
    have hone : ∃ u v₁, QuietPath [i] s v u v₁ := by
      cases hp : i.port with
      | producer =>
        obtain rfl : i = .pnop := by cases i <;> simp [quiet, Instr.port] at hi hp ⊢
        obtain ⟨u, _, hu⟩ := pnop_quietPath hq h
        exact ⟨u, v, hu⟩
      | consumer =>
        obtain ⟨cmd, hc, _⟩ := exec_consumer i hp s
        have hrstep : [i].countP onConsumer = 1 := by simp [onConsumer, hp]
        obtain ⟨u, _, hu⟩ := consumer_quietPath i cmd hc hq h
          (hidle.imp (fun hle => by omega) fun hall => hall i List.mem_cons_self hp)
        exact ⟨u, _, hu⟩
    obtain ⟨u, v₁, hu⟩ := hone
    obtain ⟨t, v', ht⟩ := ih (hu.cfg ▸ hq) hu.between his
      (hidle.imp (fun hle => by rw [hu.remaining]; omega) fun hall j hj => hall j (List.mem_cons_of_mem i hj))
    exact ⟨t, v', hu.append ht⟩

/-! ### Commands -/

/-- From one point with no command in flight and no burst in progress to another, making these calls. -/
structure Performs (cs : List RefCall) (is : List Instr) (s : State) (v : Watch) (t : State) (v' : Watch) : Prop where
  path : SettledPath is s v t v'
  cfg : t.cfg = s.cfg
  between : BetweenBursts t v'
  ready : t.cReady = true
  calls : v'.calls = v.calls ++ cs

theorem Performs.append {cs ds : List RefCall} {is js : List Instr} {s t u : State} {v v' v'' : Watch}
    (h : Performs cs is s v t v') (h' : Performs ds js t v' u v'') : Performs (cs ++ ds) (is ++ js) s v u v'' where
  path := h.path.append h'.path
  cfg := h'.cfg.trans h.cfg
  between := h'.between
  ready := h'.ready
  calls := by rw [h'.calls, h.calls, List.append_assoc]

/-- An accepted command and quiet words with as many `rstep`s as it emits samples (41_consumer R241): one call, or none. -/
theorem command_performs (i : Instr) (cmd : Command) (hc : commandOf i = some cmd) (is : List Instr) {s : State} {v : Watch}
    (hq : s.cfg.isQsf = true) (hready : s.cReady = true) (h : BetweenBursts s v) (hpast : v.Past 2)
    (hquiet : quiet is = true) (hcount : is.countP onConsumer = commandLength s.cfg i) :
    ∃ t v', Performs (callsOf i) (i :: is) s v t v' ∧ v'.Past 3 := by
  obtain ⟨hlo, hburst⟩ := h
  have hx := exec_of_commandOf i cmd hc s hq
  have hk := rstep_cfg i cmd hc s
  have hrem := rstep_ready_remaining i cmd hc s hready
  obtain ⟨⟨_, _, hlo', _⟩, _⟩ := rstep_keeps_writeDomain i cmd hc s
  have hafter := Watch.after_consumer i cmd hc s v
  have hwrites : writesSample s i = false := by cases i <;> simp only [commandOf, reduceCtorEq] at hc <;> rfl
  have hmeets : MeetsAll s v i := by
    refine ⟨by simp [meetsS1, hwrites], by simp [meetsS2, hwrites], ?_, by simp [meetsS4, hburst]⟩
    rw [meetsS3, show v.sinceWrite.all _ = true from hpast, Bool.or_true]
  obtain ⟨t, v', ht⟩ := quiet_path is (s := rstep cmd s) (v := v.after s i) (hk ▸ hq)
    ⟨hlo'.trans hlo, by rw [hafter]; exact hburst⟩ hquiet (.inl (by rw [hrem, hcount]))
  refine ⟨t, v', ⟨.cons hmeets hx ht.path, ht.cfg.trans hk, ht.between, ?_, ?_⟩, ?_⟩
  · rw [cReady_iff_remaining, ht.remaining, hrem, hcount, Nat.sub_self]
  · rw [ht.calls, hafter, Watch.rstep, if_pos hready]
  · have hpast3 : (v.after s i).Past 3 := by rw [hafter]; exact (Watch.past_rstep 2 s i v).mpr hpast
    exact (ht.past 3 hpast3).mono (Nat.le_add_right _ _)

/-! ### From any settled state -/

section FromSettled
variable {s : State} {r : RefState}

theorem start_betweenBursts (hset : s.Settled) : BetweenBursts s Watch.start := by
  obtain ⟨_, hlo, _⟩ := hset
  exact ⟨hlo, rfl⟩

/-- From a settled state that maps to `r`, a schedule that makes these calls and waits three `rstep`s emits what they return and
ends settled, at a state that maps to the reference after them (R330). -/
theorem performs_agrees {cs : List RefCall} {is : List Instr} {t : State} {v' : Watch} (hform : s.Wf) (hset : s.Settled)
    (habs : Abstracts s r) (hwf : ∀ i ∈ is, i.wf s.cfg = true) (h : Performs cs is s Watch.start t v') (hpast : v'.Past 3) :
    ∃ evs, play (schedule s.cfg is) s = .next (withEdges [] t) ∧ t.trace = s.trace ++ evs ∧ tagged evs = (r.calls cs).1 ∧
      t.Settled ∧ Abstracts t (r.calls cs).2 := by
  obtain ⟨t', v'', g, hwatch, hplay, _, _, hagrees, _⟩ :=
    (agrees_of_settled hform hset habs).watch is hwf h.path.settled
  obtain ⟨rfl, rfl⟩ := Prod.mk.inj (h.path.ends.symm.trans hwatch)
  have hcalls : v'.calls = cs := h.calls
  have href : v'.ref r = (r.calls cs).2 := by rw [Watch.ref, hcalls, h.between.burst]; rfl
  obtain ⟨hsettled, hmap⟩ := hagrees.settledPoint ⟨h.ready, h.between.loPending, hpast⟩
  obtain ⟨evs, htr, hevs⟩ := hagrees.emits
  rw [toCome_of_cReady t h.ready, List.append_nil, Watch.returned, hcalls] at hevs
  exact ⟨evs, hplay, htr, hevs, hsettled, href ▸ hmap⟩

/-- An accepted command from a settled state is its reference calls. -/
theorem settled_command_agrees (i : Instr) (cmd : Command) (hc : commandOf i = some cmd) (is : List Instr) (hform : s.Wf)
    (hset : s.Settled) (habs : Abstracts s r) (hi : i.wf s.cfg = true) (hwf : ∀ j ∈ is, j.wf s.cfg = true)
    (hquiet : quiet is = true) (hcount : is.countP onConsumer = commandLength s.cfg i) :
    ∃ t evs, play (schedule s.cfg (i :: is)) s = .next t ∧ t.trace = s.trace ++ evs ∧ tagged evs = (r.calls (callsOf i)).1 ∧
      t.Settled ∧ Abstracts t (r.calls (callsOf i)).2 := by
  obtain ⟨hq, _⟩ := id hform
  obtain ⟨hready, _⟩ := id hset
  obtain ⟨t, v', ht, hpast⟩ :=
    command_performs i cmd hc is hq hready (start_betweenBursts hset) rfl hquiet hcount
  obtain ⟨evs, hplay, htr, hevs, hsettled, hmap⟩ :=
    performs_agrees hform hset habs (List.forall_mem_cons.mpr ⟨hi, hwf⟩) ht hpast
  exact ⟨withEdges [] t, evs, hplay, htr, hevs, hsettled, hmap⟩

end FromSettled

/-- Settles O48: the call of `PULL` is `pull()`. -/
theorem pullAgreesWithTheReference : Obligations.PullAgreesWithTheReference := by
  intro s r is hform hset habs hwf hquiet hcount
  have h := settled_command_agrees .pull acceptPull rfl is hform hset habs rfl hwf hquiet hcount
  rwa [callsOf, RefState.calls_one] at h

/-- Settles O49: the call of `READ n` is `read(n)`. -/
theorem readAgreesWithTheReference : Obligations.ReadAgreesWithTheReference := by
  intro s r n is hform hset habs hn hwf hquiet hcount
  have h := settled_command_agrees (.read n) _ rfl is hform hset habs (decide_eq_true hn) hwf hquiet hcount
  rwa [callsOf, RefState.calls_one] at h

/-! ### Bursts -/

/-- ENV-RATE at a producer word: it may complete a sample only when that is allowed, and the rest is judged from there. -/
theorem rateOver_producer (c : Nat) (s : State) (n : Nat) (i : Instr) (is : List Instr) (payload : Option Byte) (eob : Bool)
    (hpe : producerParts i = some (payload, eob)) :
    rateOver c s.loPending n (i :: is) =
      ((decide (completed s payload = []) || decide (n + 1 ≤ c - 1)) &&
        rateOver c (wstep payload eob s).loPending (n + (completed s payload).length) is) := by
  rw [wstep_loPending]
  cases i <;> simp only [producerParts, Option.some.injEq, Prod.mk.injEq, reduceCtorEq] at hpe <;>
    obtain ⟨rfl, rfl⟩ := hpe <;> cases hlo : s.loPending <;> simp [rateOver, completed, hlo, samplesOf]

theorem cnop_meetsAll (s : State) (v : Watch) : MeetsAll s v .cnop :=
  ⟨rfl, rfl, by simp [meetsS3, callsOf], by simp [meetsS4, isCommand]⟩

/-- With no command in flight a producer word needs only ENV-RATE. -/
theorem producer_meetsAll {s : State} {v : Watch} (i : Instr) (payload : Option Byte) (eob : Bool)
    (hpe : producerParts i = some (payload, eob)) (hready : s.cReady = true)
    (hrate : completed s payload = [] ∨ v.writes + 1 ≤ s.cfg.c - 1) : MeetsAll s v i := by
  have hcalls : callsOf i = [] ∧ isCommand i = false := by
    cases i <;> simp only [producerParts, reduceCtorEq] at hpe <;> exact ⟨rfl, rfl⟩
  obtain ⟨hnone, hcommand⟩ := hcalls
  refine ⟨?_, by simp [meetsS2, hready], by simp [meetsS3, hnone], by simp [meetsS4, hcommand]⟩
  have hwrite := writesSample_iff i payload eob hpe s
  cases hw : writesSample s i with
  | false => simp [meetsS1, hw]
  | true => simpa [meetsS1, hw] using hrate.resolve_left (hwrite.mp hw)

/-- From any point inside a burst with no command in flight, its remaining transactions with `CNOP`s between them are one
`on_burst` of all its bytes. -/
theorem burst_performs (is : List Instr) {s : State} {v : Watch} (hq : s.cfg.isQsf = true) (hready : s.cReady = true)
    (hburst : oneBurst is = true) (hcnop : ∀ i ∈ is, i.port = .consumer → i = .cnop)
    (hrate : rateOver s.cfg.c s.loPending v.writes is = true) :
    ∃ t v', Performs [.burst (v.burst ++ bytesOf is)] is s v t v' := by
  induction is generalizing s v with
  | nil => simp [oneBurst] at hburst
  | cons i is ih =>
    have hcnops : ∀ j ∈ is, j.port = .consumer → j = .cnop := fun j hj => hcnop j (List.mem_cons_of_mem i hj)
    cases hp : i.port with
    | consumer =>
      obtain rfl := hcnop i List.mem_cons_self hp
      have hx := exec_of_commandOf .cnop acceptNothing rfl s hq
      have hk := rstep_cfg .cnop acceptNothing rfl s
      have hrem := rstep_ready_remaining .cnop acceptNothing rfl s hready
      obtain ⟨⟨_, _, hlo, _⟩, _⟩ := rstep_keeps_writeDomain .cnop acceptNothing rfl s
      obtain ⟨t, v', ht⟩ := ih (s := rstep acceptNothing s) (v := v.after s .cnop) (hk ▸ hq)
        ((cReady_iff_remaining _).mpr hrem) hburst hcnops (by rw [hk, hlo]; exact hrate)
      refine ⟨t, v', .cons (cnop_meetsAll s v) hx ht.path, ht.cfg.trans hk, ht.between, ht.ready, ?_⟩
      rw [ht.calls]
      simp [Watch.after, Watch.rstep, callsOf, bytesOf]
    | producer =>
      obtain ⟨payload, eob, hpe, _⟩ := exec_producer i hp s
      obtain ⟨hbytes, hends⟩ := burst_of_producerParts i payload eob hpe
      have hx := exec_of_producerParts i payload eob hpe s hq
      have hk := wstep_cfg payload eob s
      obtain ⟨hrem, _⟩ := wstep_keeps_stream payload eob s
      have hready' : (wstep payload eob s).cReady = true :=
        (cReady_iff_remaining _).mpr (hrem.trans ((cReady_iff_remaining s).mp hready))
      rw [rateOver_producer _ _ _ _ _ _ _ hpe, Bool.and_eq_true, Bool.or_eq_true, decide_eq_true_iff, decide_eq_true_iff]
        at hrate
      obtain ⟨hallowed, hrest⟩ := hrate
      have hmeets := producer_meetsAll i payload eob hpe hready hallowed
      have hafter := Watch.after_producer i payload eob hpe s v
      rw [oneBurst_cons, hends] at hburst
      rw [bytesOf_cons, hbytes]
      cases eob with
      | true =>
        rw [if_pos rfl] at hburst
        have hbetween : BetweenBursts (wstep payload true s) (v.after s i) :=
          ⟨by rw [wstep_loPending]; rfl, by rw [hafter]; rfl⟩
        obtain ⟨t, v', ht⟩ := quiet_path is (hk ▸ hq) hbetween hburst (.inr hcnops)
        refine ⟨t, v', .cons hmeets hx ht.path, ht.cfg.trans hk, ht.between, ?_, ?_⟩
        · rw [cReady_iff_remaining, ht.remaining, hrem, (cReady_iff_remaining s).mp hready, Nat.zero_sub]
        · rw [ht.calls, hafter, bytesOf_of_quiet is hburst, List.append_nil]
          rfl
      | false =>
        rw [if_neg Bool.false_ne_true] at hburst
        obtain ⟨t, v', ht⟩ := ih (s := wstep payload false s) (v := v.after s i) (hk ▸ hq) hready' hburst hcnops
          (by rw [hk, hafter]; exact hrest)
        refine ⟨t, v', .cons hmeets hx ht.path, ht.cfg.trans hk, ht.between, ht.ready, ?_⟩
        rw [ht.calls, hafter]
        simp

theorem quiet_cnops (n : Nat) : quiet (List.replicate n .cnop) = true := by
  induction n with
  | zero => rfl
  | succ n ih => exact ih

theorem rsteps_cnops (n : Nat) : (List.replicate n Instr.cnop).countP onConsumer = n := by
  rw [List.countP_replicate, if_pos (by rfl)]

/-- `CNOP`s while no command is in flight: only time passes. -/
theorem cnops_perform (n : Nat) {s : State} {v : Watch} (hq : s.cfg.isQsf = true) (hready : s.cReady = true)
    (h : BetweenBursts s v) : ∃ t v', Performs [] (List.replicate n .cnop) s v t v' ∧ v'.Past n := by
  obtain ⟨t, v', ht⟩ := quiet_path _ hq h (quiet_cnops n) (.inr fun i hi _ => List.eq_of_mem_replicate hi)
  refine ⟨t, v', ⟨ht.path, ht.cfg, ht.between, ?_, by rw [ht.calls, List.append_nil]⟩, ?_⟩
  · rw [cReady_iff_remaining, ht.remaining, (cReady_iff_remaining s).mp hready, Nat.zero_sub]
  · have hpast := ht.past 0 v.past_zero
    rwa [rsteps_cnops, Nat.zero_add] at hpast

theorem wf_of_cnops (k : Config) (is : List Instr) (h : ∀ i ∈ is, i.port = .consumer → i = .cnop) :
    ∀ i ∈ is, i.wf k = true := by
  intro i hi
  cases hp : i.port with
  | producer => exact wf_of_producer k i hp
  | consumer =>
    obtain rfl := h i hi hp
    rfl

/-- Settles O50: the burst is one `on_burst`, and three `CNOP`s later the read domain has caught up. -/
theorem burstAgreesWithTheReference : Obligations.BurstAgreesWithTheReference := by
  intro s r is hform hset habs hburst hcnop hrate
  obtain ⟨hq, _⟩ := id hform
  obtain ⟨hready, hlo, _⟩ := id hset
  obtain ⟨u, v, hu⟩ := burst_performs is (v := Watch.start) hq hready hburst hcnop (by rw [hlo]; exact hrate)
  obtain ⟨t, v', ht, hpast⟩ := cnops_perform 3 (hu.cfg ▸ hq) hu.ready hu.between
  have hall : ∀ i ∈ is ++ [.cnop, .cnop, .cnop], i.port = .consumer → i = .cnop := fun i hi hp => by
    rcases List.mem_append.mp hi with hi | hi
    · exact hcnop i hi hp
    · simpa using hi
  obtain ⟨evs, hplay, htr, hevs, hsettled, hmap⟩ :=
    performs_agrees hform hset habs (wf_of_cnops s.cfg _ hall) (hu.append ht) hpast
  have hcall : [RefCall.burst (Watch.start.burst ++ bytesOf is)] ++ [] = [.burst (bytesOf is)] := rfl
  rw [hcall, RefState.calls_one] at hevs hmap
  obtain rfl : evs = [] := List.map_eq_nil_iff.mp hevs
  exact ⟨withEdges [] t, hplay, htr.trans (List.append_nil _), hsettled, hmap⟩

end Sys2Proof.Machine
end

