-- ==== Sys2Proof/Proofs/Scenarios.lean ====
section
/-! PROOF. Scenarios B, A and C of 43_reference_model R332, in every QSF: the script's words, piece by piece as settled
schedules, and what the reference calls they make give. -/

namespace Sys2Proof.Machine

/-! ### The words of the scenarios -/

/-- The transactions of `BURST` (30_encoding R151). -/
def burstWords : List Sample → List Instr
  | [] => [.eob]
  | [v] => [.byte (v.extractLsb' 0 8), .bytel (v.extractLsb' 8 8)]
  | v :: rest => .byte (v.extractLsb' 0 8) :: .byte (v.extractLsb' 8 8) :: burstWords rest

/-- `LOCK`: a `CNOP` after each word (R151). -/
def locked (is : List Instr) : List Instr := is.flatMap fun i => [i, .cnop]

/-- A `PULL` and its `F` further `rstep`s, as `DO PULL` writes them (R151). -/
def pullWords (k : Config) : List Instr := .pull :: List.replicate k.f .cnop

theorem scriptEdges_map_tx (k : Config) (is : List Instr) : scriptEdges k (is.map .tx) = schedule k is := by
  simp [scriptEdges, schedule, Function.comp_def, lineEdge]

theorem doLines_pull (k : Config) : doLines k .pull = (pullWords k).map .tx := by
  simp [doLines, ridleLines, pullWords, commandLength]

theorem ridleLines_eq (n : Nat) : ridleLines n = (List.replicate n Instr.cnop).map .tx := by simp [ridleLines]

theorem burstLines_eq (vs : List Sample) : burstLines vs = (burstWords vs).map .tx := by
  induction vs using burstWords.induct with
  | case1 => rfl
  | case2 v => rfl
  | case3 v rest hne ih =>
    rw [burstLines, burstWords, ih]
    · rfl
    · exact hne
    · exact hne

theorem burstWords_producer (vs : List Sample) : ∀ i ∈ burstWords vs, i.port = .producer := by
  induction vs using burstWords.induct with
  | case1 => simp [burstWords, Instr.port]
  | case2 v => simp [burstWords, Instr.port]
  | case3 v rest hne ih =>
    rw [burstWords]
    · simpa [Instr.port] using ih
    · exact hne

theorem lockLines_eq (is : List Instr) (h : ∀ i ∈ is, i.port = .producer) :
    lockLines (is.map .tx) = (locked is).map .tx := by
  induction is with
  | nil => rfl
  | cons i is ih =>
    obtain ⟨hi, his⟩ := List.forall_mem_cons.mp h
    rw [List.map_cons, lockLines, if_pos hi, ih his]
    rfl

/-- The two bytes of a sample make it (20_memory R103). -/
theorem sampleOf_extract (v : Sample) : sampleOf (v.extractLsb' 8 8) (v.extractLsb' 0 8) = v := by
  have hjoin : v.extractLsb' 8 8 ++ v.extractLsb' 0 8 = v.extractLsb' 0 (8 + 8) :=
    BitVec.extractLsb'_append_extractLsb'_eq_extractLsb' rfl
  exact hjoin.trans BitVec.extractLsb'_eq_self

/-- The bytes of a burst of samples. -/
def burstBytes (vs : List Sample) : List Byte := bytesOf (locked (burstWords vs))

/-- The bytes of a burst make its samples. -/
theorem samplesOf_burstBytes (vs : List Sample) : samplesOf (burstBytes vs) = vs := by
  induction vs using burstWords.induct with
  | case1 => rfl
  | case2 v => exact congrArg (fun x => [x]) (sampleOf_extract v)
  | case3 v rest hne ih =>
    rw [burstBytes, burstWords]
    · exact congrArg₂ List.cons (sampleOf_extract v) ih
    · exact hne

/-- A locked burst is one burst, and meets ENV-RATE with one sample to two `rstep`s. -/
theorem locked_burst (c : Nat) (hc : 2 ≤ c) (vs : List Sample) :
    oneBurst (locked (burstWords vs)) = true ∧ ∀ n, rateOver c false n (locked (burstWords vs)) = true := by
  have hone : 0 + 1 ≤ c - 1 := by omega
  induction vs using burstWords.induct with
  | case1 => exact ⟨rfl, fun _ => rfl⟩
  | case2 v => exact ⟨rfl, fun n => by simp [locked, burstWords, rateOver, hone]⟩
  | case3 v rest hne ih =>
    obtain ⟨hburst, hrate⟩ := ih
    rw [burstWords]
    · exact ⟨hburst, fun n => by simpa [locked, rateOver, hone] using hrate 0⟩
    · exact hne

/-! ### The pieces of a scenario -/

section Pieces
variable {s : State} {v : Watch} (hq : s.cfg.isQsf = true) (hready : s.cReady = true) (h : BetweenBursts s v)
include hq hready h

/-- A locked burst and two `CNOP`s: one `on_burst` of its samples, and a command may follow (S3). -/
theorem lockedBurst_performs (vs : List Sample) :
    ∃ t v', Performs [.burst (burstBytes vs)] (locked (burstWords vs) ++ List.replicate 2 .cnop) s v t v' ∧ v'.Past 2 := by
  obtain ⟨hpos, hc, _⟩ := (isQsf_iff s.cfg).mp hq
  have htwo : 2 ≤ s.cfg.c := hc ▸ (Nat.pow_le_pow_right (by decide) hpos : 2 ^ 1 ≤ 2 ^ s.cfg.aw)
  obtain ⟨hburst, hrate⟩ := locked_burst s.cfg.c htwo vs
  have hcnop : ∀ i ∈ locked (burstWords vs), i.port = .consumer → i = .cnop := by
    intro i hi hp
    obtain ⟨j, hj, hij⟩ := List.mem_flatMap.mp hi
    have hproducer := burstWords_producer vs j hj
    rcases List.mem_cons.mp hij with rfl | hij
    · rw [hproducer] at hp
      cases hp
    · exact List.mem_singleton.mp hij
  obtain ⟨u, v₁, hu⟩ := burst_performs _ hq hready hburst hcnop (by rw [h.loPending]; exact hrate v.writes)
  obtain ⟨t, v', ht, hpast⟩ := cnops_perform 2 (hu.cfg ▸ hq) hu.ready hu.between
  rw [h.burst] at hu
  exact ⟨t, v', hu.append ht, hpast⟩

theorem pull_performs (hpast : v.Past 2) : ∃ t v', Performs [.pull] (pullWords s.cfg) s v t v' ∧ v'.Past 3 :=
  command_performs .pull acceptPull rfl _ hq hready h hpast (quiet_cnops _) (rsteps_cnops _)

/-- Any number of pulls, one after another. -/
theorem pulls_perform (n : Nat) (hpast : v.Past 2) :
    ∃ t v', Performs (List.replicate (n + 1) .pull) (List.replicate (n + 1) (pullWords s.cfg)).flatten s v t v' ∧
      v'.Past 3 := by
  induction n generalizing s v with
  | zero => simpa using pull_performs hq hready h hpast
  | succ n ih =>
    obtain ⟨u, v₁, hu, hpast'⟩ := pull_performs hq hready h hpast
    obtain ⟨t, v', ht, hlast⟩ := ih (hu.cfg ▸ hq) hu.ready hu.between (hpast'.mono (by omega))
    rw [hu.cfg] at ht
    exact ⟨t, v', hu.append ht, hlast⟩

end Pieces

/-! ### The scenarios -/

/-- A transaction of the scenarios: a producer word, a `CNOP` or a `PULL`. -/
def InScenario (i : Instr) : Prop := i.port = .producer ∨ i = .cnop ∨ i = .pull

theorem InScenario.wf {i : Instr} (h : InScenario i) (k : Config) : i.wf k = true := by
  obtain hp | rfl | rfl := h
  · exact wf_of_producer k i hp
  · rfl
  · rfl

theorem InScenario.ne_clrs {i : Instr} (h : InScenario i) : i ≠ .clrs := by
  rintro rfl
  obtain hp | hp | hp := h <;> cases hp

theorem inScenario_lockedBurst (vs : List Sample) : ∀ i ∈ locked (burstWords vs) ++ List.replicate 2 .cnop, InScenario i := by
  intro i hi
  rcases List.mem_append.mp hi with hi | hi
  · obtain ⟨j, hj, hij⟩ := List.mem_flatMap.mp hi
    rcases List.mem_cons.mp hij with rfl | hij
    · exact .inl (burstWords_producer vs i hj)
    · exact .inr (.inl (List.mem_singleton.mp hij))
  · exact .inr (.inl (List.eq_of_mem_replicate hi))

theorem inScenario_pullWords (k : Config) : ∀ i ∈ pullWords k, InScenario i := by
  intro i hi
  rcases List.mem_cons.mp hi with rfl | hi
  · exact .inr (.inr rfl)
  · exact .inr (.inl (List.eq_of_mem_replicate hi))

/-- The hardware shows what the reference holds after these calls, with nothing more to emit. -/
structure ShowsResult (result : List RefSample × RefState) (t : State) : Prop where
  trace : tagged t.trace = result.1
  rAvail : t.rAvail = result.2.available
  starved : t.starved = decide (result.2.mode = .starved)
  underrunCount : t.underrunCount = BitVec.ofNat 32 result.2.underrunCount
  dropCount : t.dropCount = BitVec.ofNat 32 result.2.overflowCount
  ovf : t.ovf = decide (0 < result.2.overflowCount)

/-- A scenario from reset shows what its calls give. -/
theorem performs_shows (k : Config) (hq : k.isQsf = true) {cs : List RefCall} {is : List Instr} {t : State} {v : Watch}
    (hin : ∀ i ∈ is, InScenario i) (h : Performs cs is (State.resetOf k) Watch.start t v) (hpast : v.Past 3) :
    ∃ u, play (schedule k is) (State.resetOf k) = .next u ∧ ShowsResult ((RefState.create k.c k.f).calls cs) u := by
  have hset : SettledSchedule k is := ⟨hq, fun i hi => (hin i hi).wf k, h.path.settled⟩
  obtain ⟨g, hplay, _, hagrees, hovf⟩ := agrees_of_settledSchedule hset h.path.ends
  have hcalls : v.calls = cs := h.calls
  have href : v.ref (RefState.create k.c k.f) = ((RefState.create k.c k.f).calls cs).2 := by
    rw [Watch.ref, hcalls, h.between.burst]
    rfl
  obtain ⟨hsettled, hmap⟩ := hagrees.settledPoint ⟨h.ready, h.between.loPending, hpast⟩
  have hret := hagrees.returned_eq
  rw [toCome_of_cReady t h.ready, List.append_nil, Watch.returned, hcalls] at hret
  have hlost := hagrees.overflowCount_eq hpast
  obtain ⟨_, hW, hWg, _⟩ := id hagrees.form
  obtain ⟨hWs, _⟩ := settled_sees_all hW hWg hsettled
  obtain ⟨_, _, _, _, hle⟩ := hsettled
  rw [href] at hmap hlost
  obtain ⟨_, _, _, _, _, _, havail, hmode, _, hdrop, hunder⟩ := hmap
  refine ⟨t, hplay, hret, ?_, ?_, hunder, hdrop, ?_⟩
  · rw [State.rAvail, hWs, Nat.min_eq_left hle, havail]
  · rw [Bool.eq_iff_iff, decide_eq_true_iff, hmode]
  · rw [hlost]
    exact hovf fun hclrs => (hin _ hclrs).ne_clrs rfl

theorem lockedBurst_lines (vs : List Sample) : lockLines (burstLines vs) = (locked (burstWords vs)).map .tx := by
  rw [burstLines_eq, lockLines_eq _ (burstWords_producer vs)]

theorem pulls_lines (k : Config) (n : Nat) :
    repeatLines n (doLines k .pull) = ((List.replicate n (pullWords k)).flatten).map .tx := by
  rw [doLines_pull, repeatLines, ← List.map_replicate, ← List.map_flatten]

/-- The words of scenarios B and A. -/
def scenarioBAWords (k : Config) (x : Sample) : List Instr :=
  pullWords k ++ ((locked (burstWords (List.replicate k.f x)) ++ List.replicate 2 .cnop) ++ pullWords k)

/-- The words of scenario C with `n` pulls. -/
def scenarioCWords (k : Config) (vs : List Sample) (n : Nat) : List Instr :=
  (locked (burstWords vs) ++ List.replicate 2 .cnop) ++ (List.replicate n (pullWords k)).flatten

theorem scenarioBA_lines (k : Config) (x : Sample) :
    scriptEdges k (scenarioBA k x) = schedule k (scenarioBAWords k x) := by
  rw [scenarioBA, doLines_pull, lockedBurst_lines, ridleLines_eq, ← List.map_append, ← List.map_append, ← List.map_append,
    scriptEdges_map_tx, scenarioBAWords, List.append_assoc, List.append_assoc, List.append_assoc]

theorem scenarioC_lines (k : Config) (vs : List Sample) (n : Nat) :
    scriptEdges k (scenarioC k vs n) = schedule k (scenarioCWords k vs n) := by
  rw [scenarioC, pulls_lines, lockedBurst_lines, ridleLines_eq, ← List.map_append, ← List.map_append, scriptEdges_map_tx,
    scenarioCWords]

/-! ### What the scenarios' calls give -/

section Scenarios
variable (k : Config) (hq : k.isQsf = true)
include hq

/-- A pull from an empty reference is a frame of silence (R325). -/
theorem calls_pull_empty {r : RefState} (hempty : r.available = 0) (hf : r.f = k.f) :
    ∃ r', r.calls [.pull] = (silences k.f, r') ∧ r'.available = 0 ∧ r'.c = r.c ∧ r'.f = r.f ∧
      r'.overflowCount = r.overflowCount ∧ r'.underrunCount = r.underrunCount + 1 ∧ r'.mode = .starved := by
  obtain ⟨_, _, hpos, _⟩ := (isQsf_iff k).mp hq
  refine ⟨{ r with mode := .starved, underrunCount := r.underrunCount + 1 }, ?_, hempty, rfl, rfl, rfl, rfl, rfl⟩
  rw [RefState.calls_one, RefState.call, RefState.pull_starved r (by omega), hf]

/-- The calls of scenarios B and A: a starved pull, a frame of samples, a fed pull. -/
theorem calls_scenarioBA (bytes : List Byte) (hlen : (samplesOf bytes).length = k.f) :
    ∃ r', (RefState.create k.c k.f).calls ([.pull] ++ ([.burst bytes] ++ [.pull])) =
        (silences k.f ++ (samplesOf bytes).map realElement, r') ∧
      r'.available = 0 ∧ r'.overflowCount = 0 ∧ r'.underrunCount = 1 ∧ r'.mode = .feeding := by
  obtain ⟨_, _, _, hfc, _⟩ := (isQsf_iff k).mp hq
  obtain ⟨r₁, hfirst, hempty, (hc : r₁.c = k.c), (hf : r₁.f = k.f), hover, hunder, _⟩ :=
    calls_pull_empty k hq (r := RefState.create k.c k.f) rfl rfl
  have hsound : r₁.Sound := by simpa only [hfirst] using (RefState.create_sound k.c k.f (c_pos k hq)).calls [.pull]
  obtain ⟨r', hsecond, hleft, hover', hunder', _, hmode⟩ :=
    hsound.burst_pulls hempty bytes 1 (by rw [hf, hc, hlen, Nat.one_mul, Nat.min_eq_left hfc])
  rw [hc, hlen, Nat.sub_eq_zero_of_le hfc] at hsecond hover'
  refine ⟨r', ?_, hleft, hover'.trans hover, hunder'.trans hunder, hmode Nat.one_pos⟩
  rw [RefState.calls_append, hfirst]
  exact congrArg (fun p => (silences k.f ++ p.1, p.2)) hsecond

/-- The calls of scenario C: the pulls that come out even give the last `C` samples, and one more finds nothing. -/
theorem calls_scenarioC (bytes : List Byte) (j : Nat) (hlen : k.c ≤ (samplesOf bytes).length) (hj : (j + 1) * k.f = k.c) :
    ∃ r r', (RefState.create k.c k.f).calls (.burst bytes :: List.replicate (j + 1) .pull) =
        (((samplesOf bytes).drop ((samplesOf bytes).length - k.c)).map realElement, r) ∧
      r.available = 0 ∧ r.overflowCount = (samplesOf bytes).length - k.c ∧ r.mode = .feeding ∧
      (RefState.create k.c k.f).calls (.burst bytes :: List.replicate (j + 1 + 1) .pull) =
        (((samplesOf bytes).drop ((samplesOf bytes).length - k.c)).map realElement ++ silences k.f, r') ∧
      r'.available = 0 ∧ r'.mode = .starved := by
  have hsound := RefState.create_sound k.c k.f (c_pos k hq)
  have heven : (j + 1) * k.f = min (samplesOf bytes).length k.c := hj.trans (Nat.min_eq_right hlen).symm
  obtain ⟨r, hcalls, hleft, hover, _, hf, hmode⟩ :=
    hsound.burst_pulls rfl bytes (j + 1) heven
  obtain ⟨r', hlast, hleft', _, _, _, _, hmode'⟩ := calls_pull_empty k hq hleft hf
  have hsplit : RefCall.burst bytes :: List.replicate (j + 1 + 1) .pull =
      (.burst bytes :: List.replicate (j + 1) .pull) ++ [.pull] := by rw [List.replicate_succ', List.cons_append]
  refine ⟨r, r', hcalls, hleft, hover.trans (Nat.zero_add _), hmode (Nat.succ_pos j), ?_, hleft', hmode'⟩
  rw [hsplit, RefState.calls_append, hcalls, hlast]
  rfl

/-! ### What the hardware shows -/

/-- Scenarios B and A: silence, then the frame written. -/
theorem scenarioBA_shows (x : Sample) :
    ∃ t, play (scriptEdges k (scenarioBA k x)) (State.resetOf k) = .next t ∧
      tagged t.trace = List.replicate k.f ⟨0, true⟩ ++ List.replicate k.f ⟨x, false⟩ ∧
      t.rAvail = 0 ∧ t.starved = false ∧ t.underrunCount = 1 ∧ t.dropCount = 0 := by
  obtain ⟨t₁, v₁, h₁, _⟩ :=
    pull_performs (s := State.resetOf k) hq rfl (start_betweenBursts (resetOf_settled k)) rfl
  obtain ⟨t₂, v₂, h₂, hpast₂⟩ :=
    lockedBurst_performs (h₁.cfg ▸ hq) h₁.ready h₁.between (List.replicate k.f x)
  have hk : t₂.cfg = k := h₂.cfg.trans h₁.cfg
  obtain ⟨t₃, v₃, h₃, hpast₃⟩ := pull_performs (hk ▸ hq) h₂.ready h₂.between hpast₂
  rw [hk] at h₃
  have hin : ∀ i ∈ scenarioBAWords k x, InScenario i := List.forall_mem_append.mpr ⟨inScenario_pullWords k,
    List.forall_mem_append.mpr ⟨inScenario_lockedBurst (List.replicate k.f x), inScenario_pullWords k⟩⟩
  obtain ⟨u, hplay, hshows⟩ := performs_shows k hq hin (h₁.append (h₂.append h₃)) hpast₃
  obtain ⟨r', hcalls, hleft, hover, hunder, hmode⟩ :=
    calls_scenarioBA k hq (burstBytes (List.replicate k.f x)) (by rw [samplesOf_burstBytes, List.length_replicate])
  rw [hcalls, samplesOf_burstBytes, List.map_replicate] at hshows
  refine ⟨u, (scenarioBA_lines k x).symm ▸ hplay, hshows.trace, hshows.rAvail.trans hleft, ?_, ?_, ?_⟩
  · rw [hshows.starved, hmode]
    rfl
  · rw [hshows.underrunCount, hunder]
    rfl
  · rw [hshows.dropCount, hover]
    rfl

/-- Scenario C with at least one pull shows what its calls give. -/
theorem scenarioC_plays (vs : List Sample) (n : Nat) :
    ∃ t, play (scriptEdges k (scenarioC k vs (n + 1))) (State.resetOf k) = .next t ∧
      ShowsResult ((RefState.create k.c k.f).calls (.burst (burstBytes vs) :: List.replicate (n + 1) .pull)) t := by
  obtain ⟨t₁, v₁, h₁, hpast₁⟩ :=
    lockedBurst_performs (s := State.resetOf k) hq rfl (start_betweenBursts (resetOf_settled k)) vs
  obtain ⟨t₂, v₂, h₂, hpast₂⟩ := pulls_perform (h₁.cfg ▸ hq) h₁.ready h₁.between n hpast₁
  rw [h₁.cfg] at h₂
  have hpulls : ∀ i ∈ (List.replicate (n + 1) (pullWords k)).flatten, InScenario i := by
    intro i hi
    obtain ⟨is, his, hi⟩ := List.mem_flatten.mp hi
    rw [List.eq_of_mem_replicate his] at hi
    exact inScenario_pullWords k i hi
  have hin : ∀ i ∈ scenarioCWords k vs (n + 1), InScenario i :=
    List.forall_mem_append.mpr ⟨inScenario_lockedBurst vs, hpulls⟩
  obtain ⟨u, hplay, hshows⟩ := performs_shows k hq hin (h₁.append h₂) hpast₂
  exact ⟨u, (scenarioC_lines k vs (n + 1)).symm ▸ hplay, hshows⟩

/-- Scenario C after `j + 1` pulls that come out even: the last `C` samples in order, and one more pull is silence. -/
theorem scenarioC_shows (vs : List Sample) (j : Nat) (hlen : k.c ≤ vs.length) (hj : (j + 1) * k.f = k.c) :
    ∃ t u, play (scriptEdges k (scenarioC k vs (j + 1))) (State.resetOf k) = .next t ∧
      tagged t.trace = (vs.drop (vs.length - k.c)).map (fun x => (⟨x, false⟩ : RefSample)) ∧
      t.rAvail = 0 ∧ t.starved = false ∧ t.dropCount = BitVec.ofNat 32 (vs.length - k.c) ∧
      t.ovf = decide (k.c < vs.length) ∧
      play (scriptEdges k (scenarioC k vs (j + 1 + 1))) (State.resetOf k) = .next u ∧
      tagged u.trace = tagged t.trace ++ List.replicate k.f ⟨0, true⟩ ∧ u.rAvail = 0 ∧ u.starved = true := by
  obtain ⟨r, r', hcalls, hleft, hover, hmode, hcalls', hleft', hmode'⟩ :=
    calls_scenarioC k hq (burstBytes vs) j (by rwa [samplesOf_burstBytes]) hj
  rw [samplesOf_burstBytes] at hcalls hover hcalls'
  obtain ⟨t, hplay, ht⟩ := scenarioC_plays k hq vs j
  obtain ⟨u, hplay', hu⟩ := scenarioC_plays k hq vs (j + 1)
  rw [hcalls] at ht
  rw [hcalls'] at hu
  refine ⟨t, u, hplay, ht.trace, ht.rAvail.trans hleft, ?_, ?_, ?_, hplay', ?_, hu.rAvail.trans hleft', ?_⟩
  · rw [ht.starved, hmode]
    rfl
  · rw [ht.dropCount, hover]
  · rw [ht.ovf, hover]
    exact decide_eq_decide.mpr Nat.sub_pos_iff_lt
  · rw [hu.trace, ht.trace]
  · rw [hu.starved, hmode']
    rfl

end Scenarios

/-- Settles O59: each scenario piece by piece, against what its calls give. -/
theorem scenariosGiveTheirFrames : Obligations.ScenariosGiveTheirFrames := by
  intro k hq
  refine ⟨scenarioBA_shows k hq, fun vs j hlen hj => ?_⟩
  cases j with
  | zero =>
    have hcap := c_pos k hq
    omega
  | succ j => exact scenarioC_shows k hq vs j hlen hj

end Sys2Proof.Machine
end

