-- ==== Sys2Proof/Proofs/StoppedClocks.lean ====
section
/-! PROOF. Where no transaction runs: steps that take no word of a port (log 5, 8, 11, 14), and a domain whose clock has stopped
(60_exceptions R373). A run of one port's words keeps what that port's transactions keep; while `rclk` is stopped nothing starts
the count of ENV-RATE anew. -/

namespace Sys2Proof.Machine

/-! ### Steps that take no word of a port -/

/-- A value wider than the consumer port's wires is none of its words (30_encoding R140). -/
theorem decode_of_too_wide (k : Config) (w : Nat) (h : 2 ^ (k.pw + 3) ≤ w) :
    decode k (.consumer w) = .error .consumerWordTooWide := if_neg (Nat.not_lt.mpr h)

/-- Settles O5, by the head of the waiting edges: none, a value that is no port word, a reset. -/
theorem stepWithoutAPortWord : Obligations.StepWithoutAPortWord := by
  refine ⟨fun s hq he => ?_, fun s w es he hw => ?_, fun s es hq he => ?_⟩
  · exact (step_of_no_edge s he).trans (onQsf_of_qsf s s hq)
  · exact (step_of_word s _ es he).trans (stepWord_error _ _ (withEdges es s) (decode_of_too_wide s.cfg w hw))
  · exact ⟨withEdges es (State.resetOf s.cfg), (step_of_reset s es he).trans (onQsf_of_qsf (withEdges es s) _ hq), rfl, rfl⟩

/-! ### A run of one port's words -/

/-- What the transactions of all words of a run keep holds after the run. -/
theorem play_words_keeps (P : State → Prop) (ws : List PortWord) (hedges : ∀ u, P u → P (withEdges [] u))
    (hstep : ∀ w ∈ ws, ∀ i u t, i.port = (if w.isConsumer then .consumer else .producer) → exec i u = .next t →
      P u → P t)
    (s : State) (hq : s.cfg.isQsf = true) (hwf : ∀ w ∈ ws, w.wf s.cfg = true) (h : P s) :
    ∃ t, play (ws.map .port) s = .next t ∧ P t := by
  induction ws generalizing s with
  | nil => exact ⟨withEdges [] s, play_nil s, hedges s h⟩
  | cons w ws ih =>
    obtain ⟨hw, hws⟩ := List.forall_mem_cons.mp hwf
    obtain ⟨hstepw, hstepws⟩ := List.forall_mem_cons.mp hstep
    obtain ⟨i, u, hd, hx, hk, _⟩ := step_port_word w s hq hw
    obtain ⟨t, hplay, ht⟩ := ih hstepws u (hk ▸ hq) (hk ▸ hws) (hstepw i s u (decode_port s.cfg w i hd) hx h)
    exact ⟨t, (play_word w i _ s u hd hx).trans hplay, ht⟩

/-- Producer words alone leave the read domain. -/
theorem play_producerWords_keeps (ws : List PortWord) (s : State) (hq : s.cfg.isQsf = true)
    (hwf : ∀ w ∈ ws, w.wf s.cfg = true) (h : ws.all (fun w => !w.isConsumer) = true) :
    ∃ t, play (ws.map .port) s = .next t ∧ SameReadDomain s t := by
  refine play_words_keeps (SameReadDomain s) ws (fun _ hu => hu) (fun w hw i u t hport hx hu => ?_) s hq hwf
    (by simp [SameReadDomain])
  have hnot : w.isConsumer = false := by simpa using List.all_eq_true.mp h w hw
  have hproducer : i.port = .producer := by simpa [hnot] using hport
  obtain ⟨_, hread, _⟩ := domainsWriteOnlyTheirOwn u t i hx
  simp [SameReadDomain, hread hproducer, hu]

/-- Consumer words alone leave the write domain and the storage. -/
theorem play_consumerWords_keeps (ws : List PortWord) (s : State) (hq : s.cfg.isQsf = true)
    (hwf : ∀ w ∈ ws, w.wf s.cfg = true) (h : ws.all PortWord.isConsumer = true) :
    ∃ t, play (ws.map .port) s = .next t ∧ SameWriteDomain s t ∧ t.mem = s.mem := by
  refine play_words_keeps (fun u => SameWriteDomain s u ∧ u.mem = s.mem) ws (fun _ hu => hu)
    (fun w hw i u t hport hx hu => ?_) s hq hwf (by simp [SameWriteDomain])
  have hconsumer : i.port = .consumer := by simpa [List.all_eq_true.mp h w hw] using hport
  obtain ⟨hdomain, hmem⟩ := hu
  obtain ⟨_, _, hwrite⟩ := domainsWriteOnlyTheirOwn u t i hx
  obtain ⟨hdomain', hmem'⟩ := hwrite hconsumer
  exact ⟨by simp [SameWriteDomain, hdomain', hdomain], hmem'.trans hmem⟩

/-! ### ENV-RATE while `rclk` is stopped -/

theorem after_producer_sinceR (w : BitVec 10) (s : State) (g : Counts) :
    (g.after s (.port (.producer w))).sinceR = g.sinceR + if completesSample s w then 1 else 0 := by
  simp only [Counts.after]
  split <;> rfl

/-- `samplesIn` counts the sample that a word completes and goes on from what the word's `wstep` leaves pending. -/
theorem samplesIn_wordStep (w : BitVec 10) (ws : List (BitVec 10)) (s : State) :
    samplesIn s.loPending (w :: ws) =
      (if completesSample s w then 1 else 0) + samplesIn (wordStep w s).loPending ws := by
  have hleft : (if pEob w then false else if pValid w then !s.loPending else s.loPending) = (wordStep w s).loPending := by
    rw [wordStep, wstep_loPending, wordPayload]
    cases pValid w <;> cases pEob w <;> simp
  rw [samplesIn, hleft, completesSample]

/-- With no `rstep` among them, words add what they write to the samples written since the last one. -/
theorem follow_producerWords_sinceR (ws : List PortWord) (s : State) (g : Counts) (hq : s.cfg.isQsf = true)
    (h : ws.all (fun w => !w.isConsumer) = true) :
    (follow (ws.map .port) s g).2.sinceR = g.sinceR + samplesIn s.loPending (producerWords ws) := by
  induction ws generalizing s g with
  | nil => rfl
  | cons w ws ih =>
    obtain ⟨hw, hws⟩ := Bool.and_eq_true_iff.mp h
    cases w with
    | consumer w => cases hw
    | producer w =>
      have hx : exec (decodeProducer w) s = .next (wordStep w s) :=
        exec_of_producerParts _ _ _ (producerParts_decodeProducer w) s hq
      have hk : (wordStep w s).cfg = s.cfg := wstep_cfg _ _ s
      rw [List.map_cons, follow_word _ _ _ s _ g rfl hx, ih (withEdges [] (wordStep w s)) _ (hk ▸ hq) hws,
        after_producer_sinceR, producerWords, samplesIn_wordStep, Nat.add_assoc]
      rfl

/-- A run that ends with `C` samples written since the last `rstep` violates ENV-RATE. -/
theorem not_envRateAlong (es : List Edge) (s : State) (g : Counts) (hq : s.cfg.isQsf = true)
    (h : s.cfg.c ≤ (follow es s g).2.sinceR) : ¬ EnvRateAlong es s g := by
  intro hrate
  have hend := hrate es.length
  rw [List.take_length] at hend
  have hcap := c_pos s.cfg hq
  omega

/-- Settles O53: each clock's words touch its own domain only, and producer words add to the count of ENV-RATE. -/
theorem stoppedClockKeepsItsDomain : Obligations.StoppedClockKeepsItsDomain := by
  intro s g ws hq hwf
  refine ⟨fun hstopped => ?_, fun hstopped => ?_⟩
  · obtain ⟨t, hplay, hread⟩ := play_producerWords_keeps ws s hq hwf hstopped
    have hsince := follow_producerWords_sinceR ws s g hq hstopped
    exact ⟨t, hplay, hread, hsince, fun hfull => not_envRateAlong _ s g hq (hsince ▸ hfull)⟩
  · obtain ⟨t, hplay, hwrite, hmem⟩ := play_consumerWords_keeps ws s hq hwf hstopped
    exact ⟨t, hplay, hwrite, sameStorage_of_mem_eq s t hmem⟩

end Sys2Proof.Machine
end

