-- ==== Sys2Proof/Proofs/Hazards.lean ====
section
/-! PROOF. The hazards of 70_reset_and_hazards: which written sample a real-sample step emits, lapped or not (R413), and the
clock conditions that keep to ENV-RATE (R410). -/

namespace Sys2Proof.Machine

/-! ### The sample a slot holds -/

section Slot
variable {s : State} {g : Counts}

/-- With real samples left, the sample at the cursor after catch-up has been seen (42_cdc R289). -/
theorem CountsOrdered.r1_lt (hord : CountsOrdered s g) (hreal : 0 < s.nReal) : g.r1 s.cfg < g.ws2 := by
  have hcovered := hord.covered
  have hdef : g.r1 s.cfg = g.r + (g.ws2 - g.r - s.cfg.c) := rfl
  have hnear := hord.ws2_near
  omega

/-- So it has been written. -/
theorem CountsOrdered.r1_lt_w (hord : CountsOrdered s g) (hreal : 0 < s.nReal) : g.r1 s.cfg < g.w := by
  have hlt := hord.r1_lt hreal
  have hseen := hord.ws2_le
  have hw := hord.w_eq
  omega

/-- The slot of a written sample holds it or a newer one of the slot: the last written (20_memory R111). -/
theorem StoresNewest.reads_last_of_slot (hst : StoresNewest s g) (hc : 0 < s.cfg.c) (r : Nat) (hr : r < g.w) :
    ∃ n, r ≤ n ∧ n < g.w ∧ n % s.cfg.c = r % s.cfg.c ∧ memRead s.mem (r % s.cfg.c) = g.written.getD n 0 := by
  have hsplit := Nat.div_add_mod (g.w - 1 - r) s.cfg.c
  have hrest := Nat.mod_lt (g.w - 1 - r) hc
  have hslot : (r + s.cfg.c * ((g.w - 1 - r) / s.cfg.c)) % s.cfg.c = r % s.cfg.c := Nat.add_mul_mod_self_left _ _ _
  refine ⟨_, Nat.le_add_right r _, by omega, hslot, ?_⟩
  rw [← hslot]
  exact hst.newest _ (by omega) (by omega)

end Slot

/-- Settles O42: the emitted sample is what the slot of `R1` holds, which is the sample numbered `R1` until it is lapped. -/
theorem realStepEmitsTheNumberedSample : Obligations.RealStepEmitsTheNumberedSample := by
  intro s g i h hi hreal
  obtain ⟨⟨hq, _⟩, hcur, hord, _, hst⟩ := (tracks_iff s g).mp h
  obtain ⟨cmd, hc, _⟩ := exec_consumer i hi s
  obtain ⟨hstream, _⟩ := rstep_streamsOne i cmd hc s (not_cReady_of_remaining s (Nat.add_pos_left hreal _))
  obtain ⟨⟨_, hdata, _⟩, _⟩ := hstream hreal
  rw [caughtUp_eq_counts hq hcur hord, slot_mod s.cfg hq] at hdata
  have hwritten := hord.r1_lt_w hreal
  obtain ⟨n, hle, hlt, hslot, hread⟩ := hst.reads_last_of_slot (c_pos s.cfg hq) _ hwritten
  exact ⟨_, exec_of_commandOf i cmd hc s hq, fun hnear => hdata.trans (hst.newest _ hwritten (by omega)),
    n, hle, hlt, hslot, hdata.trans hread⟩

/-! ### Clock edges -/

/-- Edges up to a time take at least a shortest period each, after the first (70_reset_and_hazards R410). -/
theorem edgesAt_span (c : Clock) (ticks t b : Nat) (times : List Nat) (h : c.edgesAt ticks (t :: times))
    (hb : ∀ u ∈ t :: times, u ≤ b) : times.length * ticks ≤ (b - t) * c.fastest := by
  induction times generalizing t with
  | nil => simp
  | cons u times ih =>
    obtain ⟨⟨htu, hperiod, _⟩, hchain⟩ := List.isChain_cons_cons.mp h
    obtain ⟨_, hub⟩ := List.forall_mem_cons.mp hb
    have hu : u ≤ b := hub u List.mem_cons_self
    calc (times.length + 1) * ticks
      _ = ticks + times.length * ticks := by rw [Nat.succ_mul, Nat.add_comm]
      _ ≤ (u - t) * c.fastest + (b - u) * c.fastest := Nat.add_le_add hperiod (ih u hchain hub)
      _ = (b - t) * c.fastest := by rw [← Nat.add_mul]; congr 1; omega

/-- Between two consecutive edges of `r`, both ends counted, the edges of `w` are at most those of R410. -/
theorem edges_le_edgeRatioBound (w r : Clock) (ticks a b : Nat) (times : List Nat) (hticks : 0 < ticks)
    (hslow : 0 < r.slowest) (hr : r.edgesAt ticks [a, b]) (hw : w.edgesAt ticks times)
    (hin : ∀ t ∈ times, a ≤ t ∧ t ≤ b) : times.length ≤ edgeRatioBound w r := by
  cases times with
  | nil => exact Nat.zero_le _
  | cons t times =>
    obtain ⟨⟨_, _, hperiod⟩, _⟩ := List.isChain_cons_cons.mp hr
    obtain ⟨⟨hat, _⟩, _⟩ := List.forall_mem_cons.mp hin
    have hspan := edgesAt_span w ticks t b times hw fun u hu => (hin u hu).2
    have hratio : ticks * (times.length * r.slowest) ≤ ticks * w.fastest :=
      calc ticks * (times.length * r.slowest)
        _ = times.length * ticks * r.slowest := by ring
        _ ≤ (b - t) * w.fastest * r.slowest := Nat.mul_le_mul_right _ hspan
        _ ≤ (b - a) * w.fastest * r.slowest :=
          Nat.mul_le_mul_right _ (Nat.mul_le_mul_right _ (Nat.sub_le_sub_left hat b))
        _ = (b - a) * r.slowest * w.fastest := by ring
        _ ≤ ticks * w.fastest := Nat.mul_le_mul_right _ hperiod
    exact Nat.succ_le_succ ((Nat.le_div_iff_mul_le hslow).mpr (Nat.le_of_mul_le_mul_left hratio hticks))

/-- A run from reset that writes fewer than `C` samples between `rstep`s meets ENV-RATE (42_cdc R288). -/
theorem envRateAlong_of_writesBetween (k : Config) (ws : List PortWord) (n : Nat) (hq : k.isQsf = true)
    (hwf : ∀ w ∈ ws, w.wf k = true) (hn : writesBetween n false 0 ws = true) (hc : n ≤ k.c - 1) :
    EnvRateAlong (ws.map .port) (State.resetOf k) Counts.zero := by
  intro m
  obtain ⟨_, _, hbound⟩ := follow_writesBounded (s := State.resetOf k) ws m hq hwf (resetOf_writesBounded n k) hn
  exact hbound.sinceR_le.trans hc

/-- Settles O54: the edges by the span they need; the runs by the bound on their writes, `ceil(m / 2) <= C - 1`. -/
theorem clockConditionsGiveEnvRate : Obligations.ClockConditionsGiveEnvRate := by
  refine ⟨edges_le_edgeRatioBound, fun k m ws hq hwf hpaced => ?_⟩
  have hwrites := writesBetween_of_pacing m ws hpaced
  refine ⟨hwrites, fun hm => envRateAlong_of_writesBetween k ws _ hq hwf hwrites ?_⟩
  have hle : m ≤ 2 * k.c - 2 := hm
  omega

end Sys2Proof.Machine
end

