-- ==== Sys2Proof/Proofs/Reset.lean ====
section
/-! PROOF. Reset (70_reset_and_hazards R400 to R403): what the reset step sets, what the ports and the first steps show, and why
the storage's reset value is never seen. Until `C` samples are written no cursor has wrapped and ENV-RATE holds by itself, so
only written slots are read; after that every slot has been written. -/

namespace Sys2Proof.Machine

/-! ### The reset step and what follows it -/

/-- Settles O8. -/
theorem resetSetsEveryRegister : Obligations.ResetSetsEveryRegister := by
  intro s es hq he
  refine ⟨withEdges es (State.resetOf s.cfg), (step_of_reset s es he).trans (onQsf_of_qsf (withEdges es s) _ hq), rfl,
    fun _ => rfl, fun n _ => memRead_nil n, ?_⟩
  simp

/-- At reset nothing is unread and nothing is stored, seen from either domain. -/
theorem resetOf_empty (k : Config) (hq : k.isQsf = true) :
    (State.resetOf k).rAvail = 0 ∧ (State.resetOf k).wFill = 0 ∧ (State.resetOf k).wFull = false := by
  obtain ⟨_, hcur, hord, _⟩ := (tracks_iff _ _).mp (resetOf_tracks k hq)
  have hnone : subP k 0 0 = 0 := by simp [subP]
  refine ⟨(rAvail_eq_counts hq hcur hord).trans (Nat.zero_sub _), ?_, ?_⟩
  · rw [State.wFill, resetOf_cfg, resetOf_W, resetOf_Rw, hnone, Nat.zero_min]
  · rw [State.wFull, resetOf_cfg, resetOf_W, resetOf_Rw, hnone]
    exact decide_eq_false (Nat.not_le.mpr (c_pos k hq))

/-- Settles O9. -/
theorem statusAfterReset : Obligations.StatusAfterReset := by
  intro k hq
  obtain ⟨havail, hfill, hfull⟩ := resetOf_empty k hq
  refine ⟨rfl, havail, hfill, hfull, rfl, rfl, rfl, rfl, rfl, rfl, rfl, fun i hi => ?_, fun d => ?_, fun d => ?_⟩
  · obtain ⟨t, hx, _, ⟨_, _, hsend, _⟩, _⟩ := exec_consumer_crosses i (State.resetOf k) hq hi
    obtain ⟨hhold, hreq⟩ := hsend rfl
    exact ⟨t, hx, hreq, hhold⟩
  · obtain ⟨t, hx, hlb, hlo, hW, _⟩ := exec_first_byte (.byte d) d false rfl (s := State.resetOf k) hq rfl
    exact ⟨t, hx, hlo, hlb, hW⟩
  · obtain ⟨t, hx, hlb, _, hW, _⟩ := exec_first_byte (.bytel d) d true rfl (s := State.resetOf k) hq rfl
    exact ⟨t, hx, hlb, hW⟩

/-! ### The same run with another storage -/

/-- The state with another storage. -/
def withStorage (m : Memory) (s : State) : State := { s with mem := m }

/-- The storage after a producer word, when it was `m` before (40_producer R185). -/
def storedBy (w : BitVec 10) (s : State) (m : Memory) : Memory :=
  if completesSample s w then memWrite m (slot s.cfg s.W) (sampleOf (pData w) s.loByte) else m

theorem wordStep_mem (w : BitVec 10) (s : State) : (wordStep w s).mem = storedBy w s s.mem := by
  unfold storedBy
  split
  · next h => exact (wordStep_writes w h).2
  · next h => exact (wordStep_writes_nothing w (Bool.eq_false_iff.mpr h)).2

theorem storedBy_wf (w : BitVec 10) (s : State) (m : Memory) (h : Memory.wf m = true) : Memory.wf (storedBy w s m) = true := by
  unfold storedBy
  split
  · exact memWrite_wf _ _ _ h
  · exact h

/-- A `wstep` writes the storage and does not read it. -/
theorem wordStep_withStorage (w : BitVec 10) (m : Memory) (s : State) :
    wordStep w (withStorage m s) = withStorage (storedBy w s m) (wordStep w s) := by
  rw [wordStep, wordStep, wordPayload, storedBy, completesSample]
  cases pValid w with
  | false => cases pEob w <;> rfl
  | true =>
    cases hlo : s.loPending with
    | false =>
      rw [if_pos rfl, wstep_low _ _ s hlo, wstep_low _ _ (withStorage m s) hlo]
      cases pEob w <;> rfl
    | true =>
      rw [if_pos rfl, wstep_high _ _ s hlo, wstep_high _ _ (withStorage m s) hlo]
      cases pEob w <;> rfl

/-- No command sees the storage. -/
theorem command_withStorage (i : Instr) (cmd : Command) (hc : commandOf i = some cmd) (u : CatchUp) (m : Memory) (s : State) :
    cmd u (withStorage m s) = withStorage m (cmd u s) := by
  cases i <;> simp only [commandOf, Option.some.injEq, reduceCtorEq] at hc <;> subst hc
  case cnop | read | rsvd => rfl
  case clrs =>
    unfold acceptClrs
    split <;> rfl
  case pull =>
    rcases Nat.lt_or_ge u.d1 s.cfg.f with hf | hf
    · rw [acceptPull_starved u s hf, acceptPull_starved u (withStorage m s) hf]
      rfl
    · rw [acceptPull_feeding u s hf, acceptPull_feeding u (withStorage m s) hf]
      rfl

/-- Streaming a real sample sees the one slot it reads (41_consumer R232). -/
theorem streamReal_withStorage (u : CatchUp) (m : Memory) (s : State)
    (h : memRead m (slot s.cfg u.r1) = memRead s.mem (slot s.cfg u.r1)) :
    streamReal u (withStorage m s) = withStorage m (streamReal u s) := by
  simp only [streamReal, emit, withStorage, h]

/-- A `rstep` sees of the storage the slot at the cursor after catch-up, and that only when it emits a real sample. -/
theorem rstep_withStorage (i : Instr) (cmd : Command) (hc : commandOf i = some cmd) (m : Memory) (s : State)
    (h : 0 < s.nReal → memRead m (slot s.cfg s.caughtUp) = memRead s.mem (slot s.cfg s.caughtUp)) :
    rstep cmd (withStorage m s) = withStorage m (rstep cmd s) := by
  rcases rstep_cases cmd s with ⟨hready, he⟩ | ⟨hreal, he⟩ | ⟨h0, hzero, he⟩
  · rw [he, rstep_idle cmd (withStorage m s) hready]
    exact congrArg (fun t => sendHandshake s.R (synchronise (emitNothing t)))
      (command_withStorage i cmd hc (catchUp s) m (applyCatchUp (catchUp s) s))
  · rw [he, rstep_real cmd (withStorage m s) hreal]
    refine congrArg (fun t => sendHandshake s.R (synchronise t))
      (streamReal_withStorage (catchUp s) m (applyCatchUp (catchUp s) s) ?_)
    rw [catchUp_eq]
    exact h hreal
  · rw [he, rstep_silence cmd (withStorage m s) h0 hzero]
    rfl

/-! ### Slots that read alike -/

/-- The first `n` slots read alike in two storages. -/
def ReadAlike (n : Nat) (m m' : Memory) : Prop := ∀ a < n, memRead m a = memRead m' a

/-- A slot reads alike after the same write to two storages, if it is the one written or read alike before. -/
theorem memRead_memWrite_congr (m m' : Memory) (a b : Nat) (v : Sample) (hm : Memory.wf m = true) (hm' : Memory.wf m' = true)
    (h : b ≠ a → memRead m b = memRead m' b) : memRead (memWrite m a v) b = memRead (memWrite m' a v) b := by
  by_cases hb : b = a
  · rw [hb, memRead_memWrite_same m a v hm, memRead_memWrite_same m' a v hm']
  · rw [memRead_memWrite_other m a b v hb, memRead_memWrite_other m' a b v hb, h hb]

section Unobserved
variable {s : State} {m : Memory}

/-- A producer word writes the same to both storages. -/
theorem ReadAlike.after_word {n : Nat} (h : ReadAlike n m s.mem) (hm : Memory.wf m = true) (hs : Memory.wf s.mem = true)
    (w : BitVec 10) : ReadAlike n (storedBy w s m) (wordStep w s).mem := by
  intro a ha
  rw [wordStep_mem, storedBy, storedBy]
  split
  · exact memRead_memWrite_congr _ _ _ _ _ hm hs fun _ => h a ha
  · exact h a ha

/-- While nothing has wrapped, a sample is written to the slot of its number, so all slots written so far read alike. -/
theorem ReadAlike.after_early_word {g : Counts} (h : ReadAlike g.w m s.mem) (hm : Memory.wf m = true) (hform : s.Wf)
    (hcur : CursorsMatch s g) (hearly : g.w < s.cfg.c) (w : BitVec 10) :
    ReadAlike (g.after s (.port (.producer w))).w (storedBy w s m) (wordStep w s).mem := by
  obtain ⟨hq, _, _, _, _, _, _, _, _, _, hs, _⟩ := hform
  have hslot : slot s.cfg s.W = g.w := by rw [hcur.W, slot_mod s.cfg hq, Nat.mod_eq_of_lt hearly]
  cases hcompletes : completesSample s w with
  | false => simpa [Counts.after, hcompletes] using h.after_word hm hs w
  | true =>
    intro a ha
    have hle : a < g.w + 1 := by simpa [Counts.after, hcompletes] using ha
    rw [wordStep_mem, storedBy, storedBy, if_pos hcompletes, if_pos hcompletes, hslot]
    exact memRead_memWrite_congr _ _ _ _ _ hm hs fun hne => h a (by omega)

/-! ### What is not written is not read -/

/-- Another storage that no step can tell from the state's own: every slot written so far reads alike, and that is every slot,
or the counts are below `C` still and `Tracks` says what is read. -/
structure Unobserved (s : State) (m : Memory) : Prop where
  form : s.Wf
  canonical : Memory.wf m = true
  alike : ReadAlike s.cfg.c m s.mem ∨ ∃ g, Tracks s g ∧ g.w < s.cfg.c ∧ ReadAlike g.w m s.mem

theorem resetOf_unobserved (k : Config) (hq : k.isQsf = true) (hm : Memory.wf m = true) : Unobserved (State.resetOf k) m :=
  ⟨resetOf_wf k hq, hm, .inr ⟨Counts.zero, resetOf_tracks k hq, c_pos k hq, nofun⟩⟩

/-- The slot of a real-sample step has been written. -/
theorem Unobserved.reads_alike (h : Unobserved s m) (hreal : 0 < s.nReal) :
    memRead m (slot s.cfg s.caughtUp) = memRead s.mem (slot s.cfg s.caughtUp) := by
  obtain ⟨hq, _⟩ := h.form
  rcases h.alike with hall | ⟨g, htracks, hearly, hwritten⟩
  · exact hall _ (slot_lt_c s.cfg _ hq)
  · obtain ⟨_, hcur, hord, _⟩ := (tracks_iff s g).mp htracks
    have hlt := hord.r1_lt_w hreal
    rw [caughtUp_eq_counts hq hcur hord, slot_mod s.cfg hq, Nat.mod_eq_of_lt (hlt.trans hearly)]
    exact hwritten _ hlt

/-- ENV-RATE holds by itself until `C` samples are written. -/
theorem envRate_of_w_lt {g : Counts} (hord : CountsOrdered s g) (w : BitVec 10)
    (h : (g.after s (.port (.producer w))).w < s.cfg.c) : EnvRate s g (.port (.producer w)) := by
  have hw := hord.w_eq
  have hsince : (g.after s (.port (.producer w))).sinceR ≤ (g.after s (.port (.producer w))).w := by
    simp only [Counts.after]
    split <;> omega
  exact Nat.le_sub_one_of_lt (hsince.trans_lt h)

theorem Unobserved.wordStep (h : Unobserved s m) (w : BitVec 10) :
    Unobserved (wordStep w s) (storedBy w s m) := by
  obtain ⟨hform, hm, halike⟩ := h
  obtain ⟨_, _, _, _, _, _, _, _, _, _, hs, _⟩ := id hform
  obtain ⟨hk, _⟩ := wordStep_frame w s
  refine ⟨wstep_wf _ _ s hform, storedBy_wf w s m hm, ?_⟩
  rw [hk]
  rcases halike with hall | ⟨g, htracks, hearly, hwritten⟩
  · exact .inl (hall.after_word hm hs w)
  · obtain ⟨_, hcur, hord, _⟩ := (tracks_iff s g).mp htracks
    have hnow := hwritten.after_early_word hm hform hcur hearly w
    rcases Nat.lt_or_ge (g.after s (.port (.producer w))).w s.cfg.c with hlt | hge
    · exact .inr ⟨_, wordStep_tracks w htracks (envRate_of_w_lt hord w hlt), hlt, hnow⟩
    · exact .inl fun a ha => hnow a (ha.trans_le hge)

theorem Unobserved.rstep (h : Unobserved s m) (i : Instr) (cmd : Command) (hc : commandOf i = some cmd)
    (hi : i.wf s.cfg = true) : Unobserved (rstep cmd s) m := by
  obtain ⟨hform, hm, halike⟩ := h
  obtain ⟨_, hmem⟩ := rstep_keeps_writeDomain i cmd hc s
  refine ⟨rstep_wf i cmd hc s hform hi, hm, ?_⟩
  rw [rstep_cfg i cmd hc s, hmem]
  exact halike.imp_right fun ⟨g, htracks, hearly, hwritten⟩ => ⟨_, rstep_tracks i cmd hc 0 hi htracks, hearly, hwritten⟩

/-- A transaction does the same with the other storage, and leaves one that is not observed either. -/
theorem Unobserved.exec (h : Unobserved s m) (i : Instr) (hi : i.wf s.cfg = true) :
    ∃ t m', exec i s = .next t ∧ exec i (withStorage m s) = .next (withStorage m' t) ∧ Unobserved t m' := by
  obtain ⟨hq, _⟩ := h.form
  cases hp : i.port with
  | producer =>
    obtain ⟨payload, eob, hpe, _⟩ := exec_producer i hp s
    have hstep := wstep_eq_wordStep payload eob
    refine ⟨_, _, exec_of_producerParts i payload eob hpe s hq, ?_, hstep s ▸ h.wordStep _⟩
    rw [exec_of_producerParts i payload eob hpe (withStorage m s) hq, hstep, hstep, wordStep_withStorage]
  | consumer =>
    obtain ⟨cmd, hc, _⟩ := exec_consumer i hp s
    refine ⟨_, m, exec_of_commandOf i cmd hc s hq, ?_, h.rstep i cmd hc hi⟩
    rw [exec_of_commandOf i cmd hc (withStorage m s) hq, rstep_withStorage i cmd hc m s h.reads_alike]

/-- A schedule does the same with the other storage. -/
theorem Unobserved.play (is : List Instr) (h : Unobserved s m) (hwf : ∀ i ∈ is, i.wf s.cfg = true) :
    ∃ t m', play (schedule s.cfg is) s = .next t ∧ play (schedule s.cfg is) (withStorage m s) = .next (withStorage m' t) := by
  induction is generalizing s m with
  | nil => exact ⟨withEdges [] s, m, play_nil s, play_nil (withStorage m s)⟩
  | cons i is ih =>
    obtain ⟨hi, his⟩ := List.forall_mem_cons.mp hwf
    obtain ⟨u, m₁, hx, hx', hu⟩ := h.exec i hi
    obtain ⟨t, m₂, hplay, hplay'⟩ := ih hu (exec_cfg i s u hx ▸ his)
    exact ⟨t, m₂, (play_schedule_cons i is s u hi hx).trans hplay,
      (play_schedule_cons i is (withStorage m s) (withStorage m₁ u) hi hx').trans hplay'⟩

end Unobserved

/-- Settles O45: the two runs differ in the storage at most, at every step. -/
theorem resetStorageIsNeverObserved : Obligations.ResetStorageIsNeverObserved := by
  intro k m is hq hm hwf
  obtain ⟨t, m', hplay, hplay'⟩ := (resetOf_unobserved k hq hm).play is hwf
  exact ⟨t, withStorage m' t, hplay, hplay', by simp [SameReadDomain, withStorage], by simp [SameWriteDomain, withStorage]⟩

end Sys2Proof.Machine
end
